-- ==== Sys2Proof/Word.lean ====
section
/-! DEFINITION. The bus word and the byte (00_scope.md R11: a bus word is 32 bits). -/

namespace Sys2Proof

/-- A bus word, a command word or a limb: 32 bits (R11, R15). -/
abbrev Word := BitVec 32

/-- One byte of the little-endian byte view of the register space (R38). -/
abbrev Byte := BitVec 8

end Sys2Proof
end

