-- ==== Sys2Proof/Machine/Arith.lean ====
section
/-! DEFINITION. The integer arithmetic of the commands (00_scope.md R12, 40_command_execution.md R70): exact, on
mathematical integers, with structurally recursive methods whose results are the values of the rules (logs 11, 17). -/

namespace Sys2Proof.Machine

/-! ## Division, bit length (R12) -/

/-- `a div b = floor(a / b)` (R12). -/
def idiv (a b : Int) : Int := a.fdiv b

/-- `a mod b = a - b * (a div b)`, the floored modulo (R12): in `[0, b)` for `b > 0`, also for negative `a`. -/
def imod (a b : Int) : Int := a.fmod b

/-- `bitlen(a)`: the number of bits of `abs(a)`, and 0 for 0 (R12). -/
def bitlen (a : Int) : Nat := if a = 0 then 0 else a.natAbs.log2 + 1

/-! ## Modular power

R72 and R90 give the exact value `(b^e) mod m`; how it is computed is not architectural (R74). -/

/-- Square and multiply on naturals: `acc * b^e mod m`, if `fuel` is at least the bit length of `e`. -/
def powLoop : Nat → Nat → Nat → Nat → Nat → Nat
  | 0, _, _, _, acc => acc
  | fuel + 1, b, e, m, acc =>
    if e = 0 then acc
    else powLoop fuel (b * b % m) (e / 2) m (if e % 2 = 1 then acc * b % m else acc)

/-- `b^e mod m` on naturals, for `m > 0`. -/
def natPowMod (b e m : Nat) : Nat := powLoop (bitlen e) (b % m) e m (1 % m)

/-- `(b^e) mod m` for an integer base, `e ≥ 0` and `m > 0` (R72). -/
def powMod (b : Int) (e : Nat) (m : Int) : Int := (natPowMod (imod b m).toNat e m.toNat : Nat)

/-! ## Extended Euclid (R76) -/

/-- The loop of `EgcdCore`: the pairs `(r0, r1)`, `(s0, s1)`, `(t0, t1)` of R76. The fuel is more than `r1`, which
falls at every turn (log 17). -/
def egcdLoop : Nat → Int → Int → Int → Int → Int → Int → Int × Int × Int
  | 0, r0, _, s0, _, t0, _ => (r0, s0, t0)
  | fuel + 1, r0, r1, s0, s1, t0, t1 =>
    if r1 = 0 then (r0, s0, t0)
    else
      let q := idiv r0 r1
      egcdLoop fuel r1 (r0 - q * r1) s1 (s0 - q * s1) t1 (t0 - q * t1)

/-- `EgcdCore(A, B)`: `(g, s, t)` with `g = gcd(A, B)` and `A*s + B*t = g` (R76). -/
def egcdCore (a b : Nat) : Int × Int × Int := egcdLoop (b + 1) a b 1 0 0 1

/-- The unique `x` in `[0, m)` with `(a*x) mod m = 1 mod m`, for `m > 0` and `gcd(a, m) = 1`, computed as R78
allows: `x0 mod m` from `EgcdCore(a mod m, m)`. -/
def invMod (a m : Int) : Int := imod (egcdCore (imod a m).toNat m.toNat).2.1 m

/-! ## Montgomery (R73) -/

/-- `L`, the number of limbs of the modulus `N`: `max(1, ceil(bitlen(N) / 32))` (R73). -/
def montLimbs (n : Int) : Nat := max 1 ((bitlen n + 31) / 32)

/-- `R = 2^(32*L)` (R73). -/
def montR (n : Int) : Int := 2 ^ (32 * montLimbs n)

/-- `a * b * R^-1 mod N`, for odd `N > 0` (R73). -/
def montProduct (a b n : Int) : Int := imod (a * b * invMod (montR n) n) n

/-! ## Miller–Rabin (R80, R81) -/

/-- The pre-checks `MrPre` (R80): the verdict they decide, or `none` for an odd `n ≥ 5`. -/
def mrPre (n : Int) : Option Bool :=
  if n < 2 then some false
  else if n = 2 ∨ n = 3 then some true
  else if imod n 2 = 0 then some false
  else none

/-- Take factors 2 out of `d`, counting them in `r`. -/
def oddPart : Nat → Nat → Nat → Nat × Nat
  | 0, d, r => (d, r)
  | fuel + 1, d, r => if d % 2 = 0 then oddPart fuel (d / 2) (r + 1) else (d, r)

/-- The pair `(d, r)` with `n - 1 = d * 2^r` and `d` odd (R81); the fuel is the bit length (log 17). -/
def mrDecompose (n : Nat) : Nat × Nat := oddPart (bitlen ((n - 1 : Nat) : Int)) (n - 1) 0

/-- Square `x` up to `k` times and look for `n - 1` (R81). -/
def mrSquares : Nat → Nat → Nat → Bool
  | 0, _, _ => false
  | k + 1, x, n => if x * x % n = n - 1 then true else mrSquares k (x * x % n) n

/-- One round `MrRound(n, a)`, for odd `n ≥ 5` and `2 ≤ a ≤ n - 2`: `true` is pass (R81). -/
def mrRound (n a : Nat) : Bool :=
  let dr := mrDecompose n
  let x := natPowMod a dr.1 n
  if x = 1 ∨ x = n - 1 then true else mrSquares (dr.2 - 1) x n

/-- The verdict as an integer: 1 is "probably prime", 0 is "composite" (R84). -/
def verdict (b : Bool) : Int := if b then 1 else 0

/-! ## Limbs (20_memory.md R38, R39) -/

/-- Limb `i` of a magnitude: bits `[32i+31 : 32i]` (R38). -/
def limbOf (mag i : Nat) : Word := BitVec.ofNat 32 (mag / 2 ^ (32 * i))

/-- The magnitude with limb `i` replaced by `v`, all other bits unchanged (R39). -/
def withLimb (mag i : Nat) (v : Word) : Nat :=
  mag / 2 ^ (32 * (i + 1)) * 2 ^ (32 * (i + 1)) + v.toNat * 2 ^ (32 * i) + mag % 2 ^ (32 * i)

end Sys2Proof.Machine
end

