-- ==== Sys2Proof/Config.lean ====
section
/-! DEFINITION. What an implementation or a platform fixes: the named parameters `W`, `BASE` and `IRQ_ROUTE`
(00_scope.md R5, R6, R10), and the free value behind the parameter `WitnessDraw` (R8). -/

namespace Sys2Proof

/-- `IRQ_ROUTE` (R10): the interrupt-controller input the IRQ output drives, and its priority there. -/
structure IrqRoute where
  line     : Nat
  priority : Nat
  deriving DecidableEq, Repr

/-- The named parameters of one instance of the block. State carries them and no step changes them
(DESIGN CHOICE, log 1, safe: a statement over every state is a statement over every parameter). -/
structure Config where
  /-- `L_W`, the number of 32-bit limbs of a big register (R5, R22). -/
  limbs    : Nat
  /-- `BASE`, the bus address of the 16 KiB register space (R6). -/
  base     : Nat
  irqRoute : IrqRoute
  deriving DecidableEq, Repr

namespace Config

/-- `W`, the magnitude width in bits; `L_W = W / 32` (R5). -/
def width (c : Config) : Nat := 32 * c.limbs

/-- `2^W`: every magnitude a register can hold is below it (R17). -/
def bound (c : Config) : Nat := 2 ^ c.width

/-- R5: `W` is a multiple of 32 with `64 ≤ W ≤ 65536`; R6: `BASE` is a multiple of 0x4000. -/
def wf (c : Config) : Bool :=
  decide (2 ≤ c.limbs) && decide (c.limbs ≤ 2048) && decide (c.base % 0x4000 = 0)

/-- The reference configuration, `W = 4096` (R5). `BASE` and `IRQ_ROUTE` are open (R6, R10); the values here
are a DESIGN CHOICE (log 1, unsafe for a claim about `State.reset` alone that reads them). -/
def reference : Config := { limbs := 128, base := 0x40000000, irqRoute := { line := 0, priority := 0 } }

/-- The free value behind `WitnessDraw` (R8, 93 I7): the raw answer to draw number `k` once the answers that
State lists are used up. No body: nothing can be proved of it (DESIGN CHOICE, log 5, safe). -/
opaque freeWitness : Nat → Nat

end Config

end Sys2Proof
end

