-- ==== Sys2Proof/Syntax.lean ====
section
/-! DEFINITION. The command set MEXP-1 as syntax (30_encoding.md R50 to R57): one constructor of `Instr` per row of
spec/opcode_table.json, its operands already turned into register indices and the rounds number. -/

namespace Sys2Proof

/-- A big register index, `r0` to `r15` (R7, R14, R50: every 4-bit value names a register). -/
abbrev Reg := Fin 16

/-- MRTEST's unsigned rounds immediate, 0 to 255 (R56). -/
abbrev Rounds := Fin 256

/-- The five formats (R51 to R55). -/
inductive Format where
  | r4 | r3 | e | i | k
  deriving DecidableEq, Repr

/-- The eleven opcodes by name (R57). -/
inductive Mnemonic where
  | modexp | montmul | gcd | egcd | modinv | lcm | mrtest | mrwit | loadkey | hadd | hscale
  deriving DecidableEq, Repr

/-- A decoded command. Operands stand destinations first, then sources in the order of the fields
`rs1`, `rs2`, `rs3`; EGCD's stand in the assembler's order `rd, rdx, rdy, rs1, rs2` (R60). -/
inductive Instr where
  /-- `rd <- rs1 ^ rs2 mod rs3` (R72). -/
  | modexp (rd rs1 rs2 rs3 : Reg)
  /-- `rd <- rs1 * rs2 * R^-1 mod rs3` (R73). -/
  | montmul (rd rs1 rs2 rs3 : Reg)
  /-- `rd <- gcd(rs1, rs2)` (R75). -/
  | gcd (rd rs1 rs2 : Reg)
  /-- `(rd, rdx, rdy) <- (g, x, y)` of `(rs1, rs2)` (R77). -/
  | egcd (rd rdx rdy rs1 rs2 : Reg)
  /-- `rd <- rs1^-1 mod rs2` (R78). -/
  | modinv (rd rs1 rs2 : Reg)
  /-- `rd <- lcm(rs1, rs2)` (R79). -/
  | lcm (rd rs1 rs2 : Reg)
  /-- Miller–Rabin test of candidate `rs1` with drawn witnesses (R82). -/
  | mrtest (rd rs1 : Reg) (rounds : Rounds)
  /-- One Miller–Rabin round of candidate `rs1` with witness `rs2` (R83). -/
  | mrwit (rd rs1 rs2 : Reg)
  /-- Load the public key `n = rs1` into the key slot (R88). -/
  | loadkey (rs1 : Reg)
  /-- `rd <- rs1 * rs2 mod KEY.NSQ` (R89). -/
  | hadd (rd rs1 rs2 : Reg)
  /-- `rd <- rs1 ^ rs2 mod KEY.NSQ` (R90). -/
  | hscale (rd rs1 rs2 : Reg)
  deriving DecidableEq, Repr

/-- The mnemonic of a command. -/
def Instr.mnemonic : Instr → Mnemonic
  | .modexp .. => .modexp
  | .montmul .. => .montmul
  | .gcd .. => .gcd
  | .egcd .. => .egcd
  | .modinv .. => .modinv
  | .lcm .. => .lcm
  | .mrtest .. => .mrtest
  | .mrwit .. => .mrwit
  | .loadkey .. => .loadkey
  | .hadd .. => .hadd
  | .hscale .. => .hscale

/-- The big registers a command names as destinations (R51 to R55); LOADKEY names none (R88). -/
def Instr.dests : Instr → List Reg
  | .modexp rd _ _ _ => [rd]
  | .montmul rd _ _ _ => [rd]
  | .gcd rd _ _ => [rd]
  | .egcd rd rdx rdy _ _ => [rd, rdx, rdy]
  | .modinv rd _ _ => [rd]
  | .lcm rd _ _ => [rd]
  | .mrtest rd _ _ => [rd]
  | .mrwit rd _ _ => [rd]
  | .loadkey _ => []
  | .hadd rd _ _ => [rd]
  | .hscale rd _ _ => [rd]

/-- The big registers a command names as sources (R51 to R55). -/
def Instr.sources : Instr → List Reg
  | .modexp _ rs1 rs2 rs3 => [rs1, rs2, rs3]
  | .montmul _ rs1 rs2 rs3 => [rs1, rs2, rs3]
  | .gcd _ rs1 rs2 => [rs1, rs2]
  | .egcd _ _ _ rs1 rs2 => [rs1, rs2]
  | .modinv _ rs1 rs2 => [rs1, rs2]
  | .lcm _ rs1 rs2 => [rs1, rs2]
  | .mrtest _ rs1 _ => [rs1]
  | .mrwit _ rs1 rs2 => [rs1, rs2]
  | .loadkey rs1 => [rs1]
  | .hadd _ rs1 rs2 => [rs1, rs2]
  | .hscale _ rs1 rs2 => [rs1, rs2]

end Sys2Proof
end

