-- ==== Sys2Proof/Machine/State.lean ====
section
/-! DEFINITION. Everything the spec gives the machine, as plain data (10_state.md R16 to R34), the inputs that reach it
from outside (60_exceptions.md R105), and the reasons a step can stop. -/

namespace Sys2Proof.Machine

/-! ## Why a step can stop -/

/-- The reasons a step can fault. -/
inductive Fault where
  /-- Raised by `busAccess` in Machine/Bus.lean: a host access whose bus address lies outside `BASE` to
  `BASE + 0x3FFF`. It is no access to the block (R35), and the spec gives it no effect here. Safe: the model stops
  where the platform goes on with some other device (log 8). -/
  | outsideBlock (addr : Nat)
  deriving DecidableEq, Repr

/-- The reasons a step can be refused. -/
inductive Refusal where
  /-- Raised by an arm of `exec` that has no meaning yet; no arm raises it. Safe: the model stops. -/
  | notModelled (mnemonic : String)
  deriving DecidableEq, Repr

/-! ## Errors -/

/-- The errors a command can end with (60_exceptions.md R96). -/
inductive CmdError where
  | illegalCommand | invalidOperand | overflow | keyLocked | invalidKey
  | noModularInverse | divisionByZero | invalidConstant | uninitializedKey
  deriving DecidableEq, Repr

/-- The error kinds of host software that share the code space (60_exceptions.md R97). -/
inductive HostError where
  | invalidKeySize | invalidPlaintext | keyGenerationFailed | primeGenerationExhausted
  deriving DecidableEq, Repr

/-! ## Registers -/

/-- A big register: sign `S` and magnitude `MAG` (R16). `MAG` is a number below `2^W`; that bound is part of the
invariant `State.Inv` (log 12). -/
structure BigReg where
  sign : Bool
  mag  : Nat
  deriving DecidableEq, Repr

/-- The key slot: `KEY.N`, `KEY.NSQ`, `KEY.G`, `KEY.READY` (R19). -/
structure KeySlot where
  n     : Nat
  nsq   : Nat
  g     : Nat
  ready : Bool
  deriving DecidableEq, Repr

/-- The stored fields of STATUS (R24). BUSY and KEYREADY are read from `pend` and `key.ready` (log 13). -/
structure Status where
  done    : Bool
  err     : Bool
  ovr     : Bool
  accerr  : Bool
  errcode : BitVec 8
  deriving DecidableEq, Repr

/-! ## Inputs from outside -/

/-- The width of a bus access. Only `w32` is defined (20_memory.md R37). -/
inductive AccessSize where
  | w8 | w16 | w32 | w64
  | burst (beats : Nat)
  deriving DecidableEq, Repr

/-- A read, or a write of a word. The data of a write of another width never matters: it is refused (R37). -/
inductive BusOp where
  | read
  | write (v : Word)
  deriving DecidableEq, Repr

/-- One host bus access, at a bus address (R35). -/
structure Access where
  addr : Nat
  size : AccessSize
  op   : BusOp
  deriving DecidableEq, Repr

/-- What happens next to the block (log 2): a host access (R44), the instant at which the engine's completion step
falls (R64), or an assertion of reset (R109). -/
inductive Input where
  | access (a : Access)
  | engine
  | reset
  deriving DecidableEq, Repr

/-- The witness source (R8, log 5): answers it will give, oldest first, and how many draws were taken so far. -/
structure WitnessSource where
  queue : List Nat
  drawn : Nat
  deriving DecidableEq, Repr

/-! ## The machine -/

/-- The state of the block. ID, PARAM, SIGN, KEYINFO, REGCLR, STATUS.BUSY, STATUS.KEYREADY, the window and IRQ are
views of it (INVENTORY.md); `readData`, `source` and `inputs` are the model's own (logs 2, 5, 7). -/
structure State where
  /-- The parameters `W`, `BASE`, `IRQ_ROUTE` (R5, R6, R10; log 1). -/
  config   : Config
  /-- `BR[0]` to `BR[15]` (R16). -/
  br       : Vector BigReg 16
  /-- The key slot (R19). -/
  key      : KeySlot
  /-- CTRL.IE (R23). -/
  ie       : Bool
  /-- STATUS (R24). -/
  status   : Status
  /-- CMD as it reads back (R25). -/
  cmd      : Word
  /-- SEL.IDX (R26). -/
  sel      : BitVec 5
  /-- The command word in flight, `PEND` (R30). -/
  pend     : Option Word
  /-- The bus port's read data: what the last read returned (R41, R105). -/
  readData : Word
  /-- The witness source (R8). -/
  source   : WitnessSource
  /-- What is still to happen, first thing first (R44). -/
  inputs   : List Input
  deriving DecidableEq, Repr

/-! ## Reset values -/

/-- `S = 0`, `MAG = 0` (R34). -/
def BigReg.zero : BigReg := { sign := false, mag := 0 }

/-- The empty key slot: absent, all zero (R34). -/
def KeySlot.absent : KeySlot := { n := 0, nsq := 0, g := 0, ready := false }

/-- STATUS 0x00000000 (R34). -/
def Status.zero : Status := { done := false, err := false, ovr := false, accerr := false, errcode := 0x00#8 }

/-- The state after reset of a block with the parameters `c` (R34, R110): every value is the one R34 gives.
`readData`, `source` and `inputs` are the model's own, empty at reset (DESIGN CHOICE, logs 2, 5, 7). -/
def State.resetWith (c : Config) : State where
  config := c
  br := Vector.replicate 16 BigReg.zero
  key := KeySlot.absent
  ie := false
  status := Status.zero
  cmd := 0x00000000#32
  sel := 0#5
  pend := none
  readData := 0x00000000#32
  source := { queue := [], drawn := 0 }
  inputs := []

/-- The machine right after reset, in the reference configuration `W = 4096` (R5, R110). -/
def State.reset : State := State.resetWith Config.reference

end Sys2Proof.Machine
end

