-- ==== Sys2Proof/Machine/Flags.lean ====
section
/-! DEFINITION. STATUS, its flags and the words software reads (10_state.md R21 to R28, R33; 60_exceptions.md R96 to R101):
which flag each event sets or clears, the error codes, and the interrupt line. -/

namespace Sys2Proof.Machine

/-! ## Error codes -/

/-- The code of each error (R96). -/
def CmdError.code : CmdError → BitVec 8
  | .illegalCommand => 0x01#8
  | .invalidOperand => 0x02#8
  | .overflow => 0x03#8
  | .keyLocked => 0x04#8
  | .invalidKey => 0x05#8
  | .noModularInverse => 0x10#8
  | .divisionByZero => 0x11#8
  | .invalidConstant => 0x12#8
  | .uninitializedKey => 0x13#8

/-- The codes reserved for host software, which the block never writes (R97). -/
def HostError.code : HostError → BitVec 8
  | .invalidKeySize => 0x20#8
  | .invalidPlaintext => 0x21#8
  | .keyGenerationFailed => 0x22#8
  | .primeGenerationExhausted => 0x23#8

/-- The codes the block produces (R96, 93 I21). -/
def producedCodes : List (BitVec 8) :=
  [0x00#8, 0x01#8, 0x02#8, 0x03#8, 0x04#8, 0x05#8, 0x10#8, 0x11#8, 0x12#8, 0x13#8]

/-! ## Flag updates -/

/-- Issue clears DONE, ERR and ERRCODE and leaves OVR and ACCERR (R62). -/
def Status.atIssue (t : Status) : Status := { t with done := false, err := false, errcode := 0x00#8 }

/-- Completion with a result: ERR and ERRCODE 0, DONE 1 (R64). -/
def Status.atSuccess (t : Status) : Status := { t with done := true, err := false, errcode := 0x00#8 }

/-- Completion with an error: ERR 1, ERRCODE the code, DONE 1 (R64). -/
def Status.atError (t : Status) (e : CmdError) : Status := { t with done := true, err := true, errcode := e.code }

/-- A dropped CMD write sets OVR (R25). -/
def Status.setOvr (t : Status) : Status := { t with ovr := true }

/-- A refused access sets ACCERR (R41). -/
def Status.setAccerr (t : Status) : Status := { t with accerr := true }

/-- A write of STATUS clears each W1C bit written as 1, bits 1 (DONE), 4 (OVR) and 5 (ACCERR), and nothing else
(R24). Clearing DONE is the end of the host's interrupt handling (R101). -/
def Status.writeOneToClear (t : Status) (v : Word) : Status :=
  { t with done := t.done && !v.getLsbD 1, ovr := t.ovr && !v.getLsbD 4, accerr := t.accerr && !v.getLsbD 5 }

/-! ## Words software reads -/

/-- STATUS.BUSY: 1 exactly when a command is in flight (R24, R30). -/
def State.busy (s : State) : Bool := s.pend.isSome

/-- The constant ID, "MEXP" (R21). -/
def idWord : Word := 0x4D455850#32

/-- PARAM: VERSION [31:24] = 1, NREG [23:16] = 16, LW [15:0] (R22). -/
def State.paramWord (s : State) : Word := 0x01#8 ++ 0x10#8 ++ BitVec.ofNat 16 s.config.limbs

/-- CTRL: IE is bit 0, the rest reads 0 (R23). -/
def State.ctrlWord (s : State) : Word := 0#31 ++ BitVec.ofBool s.ie

/-- STATUS: ERRCODE [15:8], ACCERR 5, OVR 4, KEYREADY 3, ERR 2, DONE 1, BUSY 0; the rest reads 0 (R24). -/
def State.statusWord (s : State) : Word :=
  0#16 ++ s.status.errcode ++ 0#2 ++ BitVec.ofBool s.status.accerr ++ BitVec.ofBool s.status.ovr
    ++ BitVec.ofBool s.key.ready ++ BitVec.ofBool s.status.err ++ BitVec.ofBool s.status.done ++ BitVec.ofBool s.busy

/-- SEL: IDX is bits [4:0], the rest reads 0 (R26). -/
def State.selWord (s : State) : Word := 0#27 ++ s.sel

/-- KEYINFO: READY is bit 31, NBITLEN = bitlen(KEY.N) bits [15:0], the rest reads 0 (R28, log 16). -/
def State.keyInfoWord (s : State) : Word := BitVec.ofBool s.key.ready ++ 0#15 ++ BitVec.ofNat 16 (bitlen s.key.n)

/-! ## The interrupt line -/

/-- The IRQ output: STATUS.DONE AND CTRL.IE, level-sensitive, active high (R31, R99). -/
def State.irq (s : State) : Bool := s.status.done && s.ie

/-- What the platform's interrupt controller sees: its input and priority from `IRQ_ROUTE` while IRQ is high (R10, R99). -/
def State.irqDelivered (s : State) : Option IrqRoute := if s.irq then some s.config.irqRoute else none

end Sys2Proof.Machine
end

