-- ==== Sys2Proof/Machine/Operands.lean ====
section
/-! DEFINITION. The operand forms of the commands (30_encoding.md R50, R56; 10_state.md R17): a big register read as a
signed integer, a key-slot field, and the rounds immediate; and the canonical form a result is written in (R13). -/

namespace Sys2Proof.Machine

/-- The integer value of a big register: `S = 1 ? -MAG : MAG` (R17). A zero magnitude is 0 whatever its sign. -/
def BigReg.value (b : BigReg) : Int := if b.sign then -(b.mag : Int) else (b.mag : Int)

/-- The canonical register of an integer: sign bit 0 for zero and positive values (R13, R17). -/
def BigReg.ofInt (v : Int) : BigReg := { sign := decide (v < 0), mag := v.natAbs }

/-- Big register `i`, both fields (R16). -/
def State.reg (s : State) (i : Reg) : BigReg := s.br[i]

/-- `BR[i]` as an operand: the register's value as a signed integer (R13, R17, R70). -/
def State.val (s : State) (i : Reg) : Int := (s.reg i).value

/-- The key operand `KEY.NSQ` (R89, R90). -/
def State.keyNsq (s : State) : Int := (s.key.nsq : Int)

/-- The rounds immediate as an unsigned number (R56). -/
def roundsValue (k : Rounds) : Nat := k.val

end Sys2Proof.Machine
end

