-- ==== Sys2Proof/Machine/Ops.lean ====
section
/-! DEFINITION. The named operations the meanings and the bus share: register writes, issue, completion with its commit,
the report of an error (the block's exception entry, 60_exceptions.md R95, R100), the refusal of an access
(20_memory.md R41), reset (70_reset_and_hazards.md R110), and one draw of the witness source (00_scope.md R8). -/

namespace Sys2Proof.Machine

/-! ## Register writes -/

/-- Big register `i` replaced by `b`. -/
def State.setReg (s : State) (i : Reg) (b : BigReg) : State := { s with br := s.br.set i.val b i.isLt }

/-- `BR[i] <- v`, in canonical form (R13). -/
def State.writeInt (s : State) (i : Reg) (v : Int) : State := s.setReg i (BigReg.ofInt v)

/-- The destinations of a command, written in the order its rule lists them (R65). -/
def State.writeAll (s : State) : List (Reg × Int) → State
  | [] => s
  | (i, v) :: rest => (s.writeInt i v).writeAll rest

/-- The key slot replaced, when the command writes it (R88). -/
def State.setKey (s : State) : Option KeySlot → State
  | none => s
  | some k => { s with key := k }

/-! ## Issue (R62) -/

/-- A word accepted for issue: CMD and PEND take it; DONE, ERR and ERRCODE are cleared; nothing else changes, and
the word is not decoded (R62). -/
def State.issue (s : State) (w : Word) : State :=
  { s with cmd := w, pend := some w, status := s.status.atIssue }

/-! ## Completion (R64, R65, R68) -/

/-- What `Execute` answers (R13, R64): the destinations with their exact results, and the new key slot if the
command writes it, or an error. -/
inductive CmdOutcome where
  | result (writes : List (Reg × Int)) (newKey : Option KeySlot)
  | raise (e : CmdError)
  deriving DecidableEq, Repr

/-- The report of an error, the block's exception entry (R64, R95, R100): ERR, ERRCODE and DONE are written, the
engine is idle, CMD keeps the word, and no register and no key-slot field is written. -/
def State.raiseError (s : State) (e : CmdError) : State :=
  { s with status := s.status.atError e, pend := none }

/-- The commit of a result, all destinations at one instant, and the engine idle (R64, R65). -/
def State.commit (s : State) (writes : List (Reg × Int)) (newKey : Option KeySlot) : State :=
  { (s.writeAll writes).setKey newKey with status := s.status.atSuccess, pend := none }

/-- `v` fits a register of `width` magnitude bits: `abs(v) < 2^width` (R17, R68), said by its bit length (R12). -/
def fitsWidth (width : Nat) (v : Int) : Bool := decide (bitlen v ≤ width)

/-- Every result to be committed fits a register (R68); log 22 for the key slot's fields. -/
def resultsFit (width : Nat) (writes : List (Reg × Int)) (newKey : Option KeySlot) : Bool :=
  writes.all (fun p => fitsWidth width p.2) &&
    (match newKey with
    | none => true
    | some k => fitsWidth width k.n && fitsWidth width k.nsq && fitsWidth width k.g)

/-- The completion step of a command whose outcome is `o` (R64): commit, or the error; a result that does not fit
is `Overflow` and writes nothing (R68). -/
def State.complete (s : State) : CmdOutcome → State
  | .raise e => s.raiseError e
  | .result writes newKey =>
    if resultsFit s.config.width writes newKey then s.commit writes newKey else s.raiseError .overflow

/-- The return from a completed command (R101): the host writes STATUS, and each W1C bit written as 1 is cleared;
with DONE the interrupt line falls. -/
def State.acknowledge (s : State) (v : Word) : State := { s with status := s.status.writeOneToClear v }

/-! ## Refused and dropped accesses (R25, R41) -/

/-- A refused write changes nothing but ACCERR (R41). -/
def State.refuseWrite (s : State) : State := { s with status := s.status.setAccerr }

/-- A refused read returns 0x00000000 and sets ACCERR (R41). -/
def State.refuseRead (s : State) : State := { s with status := s.status.setAccerr, readData := 0x00000000#32 }

/-- A CMD write while the engine is busy is dropped and sets OVR (R25). -/
def State.dropCommand (s : State) : State := { s with status := s.status.setOvr }

/-! ## Reset (R110, R111) -/

/-- Reset: every piece of state takes its value of R34, whatever was in flight (R110, R111). The parameters stay,
and so does what the outside world has yet to do: the inputs and the witness source (log 15). -/
def State.hardReset (s : State) : State :=
  { State.resetWith s.config with source := s.source, inputs := s.inputs }

/-! ## Witness draws (R8) -/

/-- A raw answer as a witness for candidate `n`: itself if it lies in `[2, n-2]`, else folded into that range, so
that every draw is in range and every value in range can be drawn (R8; DESIGN CHOICE, log 5). -/
def witnessInRange (n raw : Nat) : Nat := if 2 ≤ raw ∧ raw + 2 ≤ n then raw else 2 + raw % (n - 3)

/-- `draw_witness(n)` (R13): the next listed answer, or a free value when none is left. -/
def WitnessSource.draw (w : WitnessSource) (n : Nat) : Nat × WitnessSource :=
  match w.queue with
  | raw :: rest => (witnessInRange n raw, { queue := rest, drawn := w.drawn + 1 })
  | [] => (witnessInRange n (Config.freeWitness w.drawn), { queue := [], drawn := w.drawn + 1 })

/-- The rounds of MRTEST (R82): one draw per round, in order; the first failing round ends the test. -/
def mrRounds : Nat → Nat → WitnessSource → Bool × WitnessSource
  | 0, _, w => (true, w)
  | k + 1, n, w =>
    if mrRound n (w.draw n).1 then mrRounds k n (w.draw n).2 else (false, (w.draw n).2)

/-! ## Serving the inputs -/

/-- The state with `rest` as what is still to happen. -/
def State.withInputs (s : State) (rest : List Input) : State := { s with inputs := rest }

/-- The state with the witness source after some draws. -/
def State.withSource (s : State) (w : WitnessSource) : State := { s with source := w }

end Sys2Proof.Machine
end

