-- ==== Sys2Proof/Machine/Bus.lean ====
section
/-! DEFINITION. The host's bus accesses (20_memory.md R35 to R44; 10_state.md R21 to R29): the address map, what a read
returns, what a write does, which accesses are refused, and the byte view of the register space. -/

namespace Sys2Proof.Machine

/-! ## The address map (R36) -/

/-- What stands at an aligned offset (R36). -/
inductive Location where
  | id | param | ctrl | status | cmd | sel | sign | keyInfo | regClr
  | limb (i : Nat)
  | unmapped
  deriving DecidableEq, Repr

/-- The address map, offsets from `BASE` (R36). -/
def locate (off : Nat) : Location :=
  if off = 0x000 then .id
  else if off = 0x004 then .param
  else if off = 0x008 then .ctrl
  else if off = 0x00C then .status
  else if off = 0x010 then .cmd
  else if off = 0x014 then .sel
  else if off = 0x018 then .sign
  else if off = 0x01C then .keyInfo
  else if off = 0x020 then .regClr
  else if 0x1000 ≤ off ∧ off < 0x3000 then .limb ((off - 0x1000) / 4)
  else .unmapped

/-- The size of the register space, 16 KiB (R35). -/
def spaceSize : Nat := 0x4000

/-! ## What SEL selects (R26) -/

/-- The register the window and SIGN address (R26). -/
inductive Selection where
  | big (i : Reg)
  | keyN | keyNsq | keyG
  | nothing
  deriving DecidableEq, Repr

/-- IDX 0 to 15 select `BR[IDX]`, 16 `KEY.N`, 17 `KEY.NSQ`, 18 `KEY.G`, 19 to 31 nothing (R26). -/
def selectionOf (idx : BitVec 5) : Selection :=
  if h : idx.toNat < 16 then .big ⟨idx.toNat, h⟩
  else if idx.toNat = 16 then .keyN
  else if idx.toNat = 17 then .keyNsq
  else if idx.toNat = 18 then .keyG
  else .nothing

/-- The magnitude the window shows (R39). -/
def State.selectedMag (s : State) : Option Nat :=
  match selectionOf s.sel with
  | .big i => some (s.reg i).mag
  | .keyN => some s.key.n
  | .keyNsq => some s.key.nsq
  | .keyG => some s.key.g
  | .nothing => none

/-- The sign SIGN shows: 0 for a key register (R27). -/
def State.selectedSign (s : State) : Option Bool :=
  match selectionOf s.sel with
  | .big i => some (s.reg i).sign
  | .keyN => some false
  | .keyNsq => some false
  | .keyG => some false
  | .nothing => none

/-! ## Reads -/

/-- A read of the window: refused while busy, beyond the register, or with nothing selected (R39, R41). -/
def State.readLimb (s : State) (i : Nat) : Option Word :=
  if s.busy ∨ s.config.limbs ≤ i then none else s.selectedMag.map fun m => limbOf m i

/-- A read of SIGN: refused while busy or with nothing selected (R27, R41). -/
def State.readSign (s : State) : Option Word :=
  if s.busy then none else s.selectedSign.map fun b => 0#31 ++ BitVec.ofBool b

/-- The word an aligned 32-bit read of a location returns, or `none` if the read is refused (R36, R41). Reads of
REGCLR return 0 and are never refused (R29, R41; log 20). -/
def State.peek (s : State) : Location → Option Word
  | .id => some idWord
  | .param => some s.paramWord
  | .ctrl => some s.ctrlWord
  | .status => some s.statusWord
  | .cmd => some s.cmd
  | .sel => some s.selWord
  | .sign => s.readSign
  | .keyInfo => some s.keyInfoWord
  | .regClr => some 0x00000000#32
  | .limb i => s.readLimb i
  | .unmapped => none

/-! ## Writes -/

/-- A write of CMD: issue while idle, dropped with OVR while busy (R25). -/
def State.writeCmd (s : State) (v : Word) : State := if s.busy then s.dropCommand else s.issue v

/-- A write of the window: one limb of a selected big register, all other bits and the sign unchanged; refused
otherwise (R39, R41). -/
def State.writeLimb (s : State) (i : Nat) (v : Word) : Option State :=
  if s.busy ∨ s.config.limbs ≤ i then none
  else
    match selectionOf s.sel with
    | .big r => some (s.setReg r { s.reg r with mag := withLimb (s.reg r).mag i v })
    | _ => none

/-- A write of SIGN: bit 0 into the sign of a selected big register, the magnitude unchanged; refused otherwise
(R27, R41). -/
def State.writeSign (s : State) (v : Word) : Option State :=
  if s.busy then none
  else
    match selectionOf s.sel with
    | .big r => some (s.setReg r { s.reg r with sign := v.getLsbD 0 })
    | _ => none

/-- A write of REGCLR: clear `BR[v[4:0]]`; refused while busy or for 16 to 31 (R29, R41). -/
def State.writeRegClr (s : State) (v : Word) : Option State :=
  if s.busy then none
  else
    match selectionOf (v.extractLsb' 0 5) with
    | .big r => some (s.setReg r BigReg.zero)
    | _ => none

/-- An aligned 32-bit write of a location, or `none` if the write is refused (R36, R41). Writes of ID, PARAM and
KEYINFO and of res0 bits are ignored (R41). -/
def State.poke (s : State) (v : Word) : Location → Option State
  | .id => some s
  | .param => some s
  | .ctrl => some { s with ie := v.getLsbD 0 }
  | .status => some (s.acknowledge v)
  | .cmd => some (s.writeCmd v)
  | .sel => some { s with sel := v.extractLsb' 0 5 }
  | .sign => s.writeSign v
  | .keyInfo => some s
  | .regClr => s.writeRegClr v
  | .limb i => s.writeLimb i v
  | .unmapped => none

/-! ## Serving an access -/

/-- A read at a location: its word on the bus port, or the refusal (R41). -/
def State.serveRead (s : State) (l : Location) : State :=
  match s.peek l with
  | some v => { s with readData := v }
  | none => s.refuseRead

/-- A write at a location, or the refusal (R41). -/
def State.serveWrite (s : State) (v : Word) (l : Location) : State :=
  match s.poke v l with
  | some t => t
  | none => s.refuseWrite

/-- An access that is not 32 bits wide or not 4-byte aligned is refused whole (R37, R41 cause 1). -/
def State.refuse (s : State) : BusOp → State
  | .read => s.refuseRead
  | .write _ => s.refuseWrite

/-- The only defined access: 32 bits, at an offset that is a multiple of 4 (R37). -/
def accessDefined (size : AccessSize) (off : Nat) : Bool := size == .w32 && off % 4 == 0

/-- One access at an offset of the register space (R37 to R41). -/
def State.serve (s : State) (size : AccessSize) (off : Nat) (op : BusOp) : State :=
  if accessDefined size off then
    match op with
    | .read => s.serveRead (locate off)
    | .write v => s.serveWrite v (locate off)
  else s.refuse op

/-- The access addresses the block: its bus address is in `BASE` to `BASE + 0x3FFF` (R35; log 8). -/
def addressesBlock (c : Config) (a : Access) : Bool := decide (c.base ≤ a.addr) && decide (a.addr < c.base + spaceSize)

/-- One host bus access (R42: at one instant, between engine steps). -/
def busAccess (a : Access) (s : State) : Host.Outcome State Fault Refusal :=
  if addressesBlock s.config a then .next (s.serve a.size (a.addr - s.config.base) a.op)
  else .fault (.outsideBlock a.addr)

/-! ## The byte view (R38) -/

/-- The byte at `BASE + off`: bits `[8k+7:8k]` of the little-endian word at the aligned offset, `k = off mod 4`;
`none` where that word's read would be refused (R38, R41). -/
def State.byteAt (s : State) (off : Nat) : Option Byte :=
  (s.peek (locate (off / 4 * 4))).map fun w => w.extractLsb' (8 * (off % 4)) 8

end Sys2Proof.Machine
end

