-- ==== Sys2Proof/WellFormed.lean ====
section
/-! DEFINITION. Which terms of `Instr` are commands (30_encoding.md R53, R59, R60). A register index and a rounds number
are in range by their types, so one check is left: EGCD's three destinations are pairwise different. -/

namespace Sys2Proof

/-- Three different destinations (R53). -/
def distinct3 (rd rdx rdy : Reg) : Bool := rd != rdx && rd != rdy && rdx != rdy

/-- A command the block accepts: every term but an EGCD with two equal destinations (R59). -/
def Instr.wellFormed : Instr → Bool
  | .modexp .. => true
  | .montmul .. => true
  | .gcd .. => true
  | .egcd rd rdx rdy _ _ => distinct3 rd rdx rdy
  | .modinv .. => true
  | .lcm .. => true
  | .mrtest .. => true
  | .mrwit .. => true
  | .loadkey .. => true
  | .hadd .. => true
  | .hscale .. => true

end Sys2Proof
end

