-- ==== Sys2Proof/Decode.lean ====
section
/-! DEFINITION. Decoding a command word (30_encoding.md R50 to R59), total on every word, and the encoder written from the
same tables. A word that is no command is `none`: the block reports `IllegalCommand` for it (R59). -/

namespace Sys2Proof

/-! ## The opcode map and the formats -/

/-- The opcode map: field OP, bits [5:0] (R57). -/
def Mnemonic.opcode : Mnemonic → BitVec 6
  | .modexp => 0x01#6
  | .montmul => 0x02#6
  | .gcd => 0x03#6
  | .egcd => 0x04#6
  | .modinv => 0x05#6
  | .lcm => 0x06#6
  | .mrtest => 0x07#6
  | .mrwit => 0x08#6
  | .loadkey => 0x09#6
  | .hadd => 0x0A#6
  | .hscale => 0x0B#6

/-- The format of each opcode (R57). -/
def Mnemonic.format : Mnemonic → Format
  | .modexp => .r4
  | .montmul => .r4
  | .gcd => .r3
  | .egcd => .e
  | .modinv => .r3
  | .lcm => .r3
  | .mrtest => .i
  | .mrwit => .r3
  | .loadkey => .k
  | .hadd => .r3
  | .hscale => .r3

/-- The defined opcodes, in the map's order (R57). -/
def Mnemonic.all : List Mnemonic :=
  [.modexp, .montmul, .gcd, .egcd, .modinv, .lcm, .mrtest, .mrwit, .loadkey, .hadd, .hscale]

/-- The fixed-bit mask of each format (R51 to R55). -/
def Format.mask : Format → Word
  | .r4 => 0xFFC0003F#32
  | .r3 => 0xFFFC003F#32
  | .e => 0xFC00003F#32
  | .i => 0xFFC0003F#32
  | .k => 0xFFFFC3FF#32

/-- The opcode a 6-bit field names; 0x00 and 0x0C to 0x3F name none (R57, R59). -/
def mnemonicOf (op : BitVec 6) : Option Mnemonic := Mnemonic.all.find? fun m => m.opcode == op

/-! ## Fields -/

/-- The opcode field, bits [5:0] (R50). -/
def opField (w : Word) : BitVec 6 := w.extractLsb' 0 6

/-- The 4-bit register field whose lowest bit is `lo` (R50). -/
def regField (w : Word) (lo : Nat) : Reg := (w.extractLsb' lo 4).toFin

/-- MRTEST's rounds immediate, `cmd[21:14]` (R54, R56). -/
def roundsField (w : Word) : Rounds := (w.extractLsb' 14 8).toFin

/-- A reserved bit of the format is 1: `(cmd AND mask AND NOT 0x3F) != 0` (R58). -/
def reservedBitSet (f : Format) (w : Word) : Bool := (w &&& f.mask &&& ~~~0x3F#32) != 0#32

/-! ## Decoding -/

/-- The command of a word whose opcode is `m` and whose reserved bits are 0 (R51 to R55): the fields, and EGCD's
rule that its three destinations differ (R58). -/
def operandsOf (m : Mnemonic) (w : Word) : Option Instr :=
  let rd := regField w 6
  let rs1 := regField w 10
  let rs2 := regField w 14
  let rs3 := regField w 18
  let rdx := regField w 18
  let rdy := regField w 22
  match m with
  | .modexp => some (.modexp rd rs1 rs2 rs3)
  | .montmul => some (.montmul rd rs1 rs2 rs3)
  | .gcd => some (.gcd rd rs1 rs2)
  | .egcd => if distinct3 rd rdx rdy then some (.egcd rd rdx rdy rs1 rs2) else none
  | .modinv => some (.modinv rd rs1 rs2)
  | .lcm => some (.lcm rd rs1 rs2)
  | .mrtest => some (.mrtest rd rs1 (roundsField w))
  | .mrwit => some (.mrwit rd rs1 rs2)
  | .loadkey => some (.loadkey rs1)
  | .hadd => some (.hadd rd rs1 rs2)
  | .hscale => some (.hscale rd rs1 rs2)

/-- Decoding of a command word, in the order of R58. `none` is `IllegalCommand` (R59). -/
def decode (w : Word) : Option Instr :=
  match mnemonicOf (opField w) with
  | none => none
  | some m => if reservedBitSet m.format w then none else operandsOf m w

/-! ## Encoding -/

/-- The word with fields OP, F0 to F4 of R50; bits [31:26] are zero in every format. -/
def packWord (op : BitVec 6) (f0 f1 f2 f3 f4 : BitVec 4) : Word :=
  0#6 ++ f4 ++ f3 ++ f2 ++ f1 ++ f0 ++ op

/-- A register index as its 4-bit field. -/
def regBits (r : Reg) : BitVec 4 := BitVec.ofFin r

/-- Bits [3:0] of the rounds immediate, field F2 (R50). -/
def roundsLow (k : Rounds) : BitVec 4 := BitVec.ofNat 4 k.val

/-- Bits [7:4] of the rounds immediate, field F3 (R50). -/
def roundsHigh (k : Rounds) : BitVec 4 := BitVec.ofNat 4 (k.val / 16)

/-- The command word of a command (R51 to R55). -/
def encode (i : Instr) : Word :=
  let op := i.mnemonic.opcode
  match i with
  | .modexp rd rs1 rs2 rs3 => packWord op (regBits rd) (regBits rs1) (regBits rs2) (regBits rs3) 0#4
  | .montmul rd rs1 rs2 rs3 => packWord op (regBits rd) (regBits rs1) (regBits rs2) (regBits rs3) 0#4
  | .gcd rd rs1 rs2 => packWord op (regBits rd) (regBits rs1) (regBits rs2) 0#4 0#4
  | .egcd rd rdx rdy rs1 rs2 => packWord op (regBits rd) (regBits rs1) (regBits rs2) (regBits rdx) (regBits rdy)
  | .modinv rd rs1 rs2 => packWord op (regBits rd) (regBits rs1) (regBits rs2) 0#4 0#4
  | .lcm rd rs1 rs2 => packWord op (regBits rd) (regBits rs1) (regBits rs2) 0#4 0#4
  | .mrtest rd rs1 k => packWord op (regBits rd) (regBits rs1) (roundsLow k) (roundsHigh k) 0#4
  | .mrwit rd rs1 rs2 => packWord op (regBits rd) (regBits rs1) (regBits rs2) 0#4 0#4
  | .loadkey rs1 => packWord op 0#4 (regBits rs1) 0#4 0#4 0#4
  | .hadd rd rs1 rs2 => packWord op (regBits rd) (regBits rs1) (regBits rs2) 0#4 0#4
  | .hscale rd rs1 rs2 => packWord op (regBits rd) (regBits rs1) (regBits rs2) 0#4 0#4

/-! ## The opcode table's numbering -/

/-- The command word whose bits are `w`, of which the table gives `nbits`; the bits above are 0. There is one
length only, 32 bits (R49), so a longer row names no word. -/
def tableWord (nbits w : Nat) : Option Word :=
  if nbits ≤ 32 then some (BitVec.ofNat 32 (w % 2 ^ nbits)) else none

/-- What the decoder reads from an instruction whose bits are `w`, numbered as spec/opcode_table.json numbers
them: bit 0 is the least significant bit of the command word (R11, R49). -/
def decodeTableWord (nbits w : Nat) : Option Instr :=
  match tableWord nbits w with
  | none => none
  | some x => decode x

end Sys2Proof
end

