-- ==== Sys2Proof/Machine/GcdFamily.lean ====
section
/-! DEFINITION. GCD, EGCD, MODINV and LCM (42_gcd_family.md R75 to R79). -/

namespace Sys2Proof.Machine

/-- `gcd(a, b)` of R12: of the magnitudes, with `gcd(0, 0) = 0`. -/
def igcd (a b : Int) : Int := ((a.natAbs.gcd b.natAbs : Nat) : Int)

/-- GCD's outcome (R75). -/
def gcdOutcome (rd : Reg) (a b : Int) : CmdOutcome := .result [(rd, igcd a b)] none

/-- GCD (R75): `rd <- gcd(rs1, rs2)`. -/
def execGcd (rd rs1 rs2 : Reg) (s : State) : Host.Outcome State Fault Refusal :=
  .next (s.complete (gcdOutcome rd (s.val rs1) (s.val rs2)))

/-- A Bézout coefficient with the sign of its operand moved to it (R77). -/
def signed (operand coeff : Int) : Int := if operand < 0 then -coeff else coeff

/-- EGCD's outcome (R77). Two equal destinations are `IllegalCommand` (R59): `decode` never gives such a term, and
a term made by hand ends the same way (log 25). -/
def egcdOutcome (rd rdx rdy : Reg) (a b : Int) : CmdOutcome :=
  if distinct3 rd rdx rdy then
    let c := egcdCore a.natAbs b.natAbs
    .result [(rd, c.1), (rdx, signed a c.2.1), (rdy, signed b c.2.2)] none
  else .raise .illegalCommand

/-- EGCD (R77): `(rd, rdx, rdy) <- (g, x, y)` with `rs1*x + rs2*y = g`. -/
def execEgcd (rd rdx rdy rs1 rs2 : Reg) (s : State) : Host.Outcome State Fault Refusal :=
  .next (s.complete (egcdOutcome rd rdx rdy (s.val rs1) (s.val rs2)))

/-- MODINV's outcome (R78): the modulus is checked first. -/
def modinvOutcome (rd : Reg) (a m : Int) : CmdOutcome :=
  if m ≤ 0 then .raise .invalidOperand
  else if igcd a m ≠ 1 then .raise .noModularInverse
  else .result [(rd, invMod a m)] none

/-- MODINV (R78): `rd <- rs1^-1 mod rs2`. -/
def execModinv (rd rs1 rs2 : Reg) (s : State) : Host.Outcome State Fault Refusal :=
  .next (s.complete (modinvOutcome rd (s.val rs1) (s.val rs2)))

/-- LCM's outcome (R79); a result that does not fit is `Overflow` at completion (R68). -/
def lcmOutcome (rd : Reg) (a b : Int) : CmdOutcome :=
  if a = 0 ∧ b = 0 then .raise .divisionByZero
  else .result [(rd, idiv ((a * b).natAbs : Nat) (igcd a b))] none

/-- LCM (R79): `rd <- abs(rs1 * rs2) div gcd(rs1, rs2)`. -/
def execLcm (rd rs1 rs2 : Reg) (s : State) : Host.Outcome State Fault Refusal :=
  .next (s.complete (lcmOutcome rd (s.val rs1) (s.val rs2)))

end Sys2Proof.Machine
end

