-- ==== Sys2Proof/Machine/Homomorphic.lean ====
section
/-! DEFINITION. The key slot's LOADKEY and the homomorphic commands HADD and HSCALE (44_homomorphic.md R87 to R91). -/

namespace Sys2Proof.Machine

/-- The key slot a modulus loads: `n`, `n²`, `n + 1`, ready (R88). -/
def KeySlot.ofModulus (n : Nat) : KeySlot := { n := n, nsq := n * n, g := n + 1, ready := true }

/-- LOADKEY's outcome (R88): a ready key is locked (R87), checked first; then `n < 2` or `n² ≥ 2^W` is `InvalidKey`. -/
def loadkeyOutcome (width : Nat) (ready : Bool) (n : Int) : CmdOutcome :=
  if ready then .raise .keyLocked
  else if n < 2 ∨ fitsWidth width (n * n) = false then .raise .invalidKey
  else .result [] (some (KeySlot.ofModulus n.toNat))

/-- LOADKEY (R88): the key slot takes the public key of modulus `rs1`. -/
def execLoadkey (rs1 : Reg) (s : State) : Host.Outcome State Fault Refusal :=
  .next (s.complete (loadkeyOutcome s.config.width s.key.ready (s.val rs1)))

/-- HADD's outcome (R89): no range check of the ciphertexts (R91). -/
def haddOutcome (rd : Reg) (ready : Bool) (c1 c2 nsq : Int) : CmdOutcome :=
  if ready then .result [(rd, imod (c1 * c2) nsq)] none else .raise .uninitializedKey

/-- HADD (R89): `rd <- rs1 * rs2 mod KEY.NSQ`. -/
def execHadd (rd rs1 rs2 : Reg) (s : State) : Host.Outcome State Fault Refusal :=
  .next (s.complete (haddOutcome rd s.key.ready (s.val rs1) (s.val rs2) s.keyNsq))

/-- HSCALE's outcome (R90): the key is checked before the constant. -/
def hscaleOutcome (rd : Reg) (ready : Bool) (c k nsq : Int) : CmdOutcome :=
  if ready then
    if k < 0 then .raise .invalidConstant else .result [(rd, powMod c k.toNat nsq)] none
  else .raise .uninitializedKey

/-- HSCALE (R90): `rd <- rs1 ^ rs2 mod KEY.NSQ`. -/
def execHscale (rd rs1 rs2 : Reg) (s : State) : Host.Outcome State Fault Refusal :=
  .next (s.complete (hscaleOutcome rd s.key.ready (s.val rs1) (s.val rs2) s.keyNsq))

end Sys2Proof.Machine
end

