-- ==== Sys2Proof/Machine/ModExp.lean ====
section
/-! DEFINITION. MODEXP and MONTMUL (41_modexp_montgomery.md R72 to R74). -/

namespace Sys2Proof.Machine

/-- MODEXP's outcome for base `b`, exponent `e`, modulus `m` (R72): the modulus is checked first. -/
def modexpOutcome (rd : Reg) (b e m : Int) : CmdOutcome :=
  if m ≤ 0 then .raise .invalidOperand
  else if e < 0 then .raise .invalidOperand
  else .result [(rd, powMod b e.toNat m)] none

/-- MODEXP (R72): `rd <- rs1 ^ rs2 mod rs3`. -/
def execModexp (rd rs1 rs2 rs3 : Reg) (s : State) : Host.Outcome State Fault Refusal :=
  .next (s.complete (modexpOutcome rd (s.val rs1) (s.val rs2) (s.val rs3)))

/-- MONTMUL's outcome for operands `a`, `b` and modulus `n` (R73). -/
def montmulOutcome (rd : Reg) (a b n : Int) : CmdOutcome :=
  if n ≤ 0 ∨ imod n 2 = 0 then .raise .invalidOperand
  else .result [(rd, montProduct a b n)] none

/-- MONTMUL (R73): `rd <- rs1 * rs2 * R^-1 mod rs3`. -/
def execMontmul (rd rs1 rs2 rs3 : Reg) (s : State) : Host.Outcome State Fault Refusal :=
  .next (s.complete (montmulOutcome rd (s.val rs1) (s.val rs2) (s.val rs3)))

end Sys2Proof.Machine
end

