-- ==== Sys2Proof/Machine/Primality.lean ====
section
/-! DEFINITION. MRTEST and MRWIT (43_primality.md R80 to R86). -/

namespace Sys2Proof.Machine

/-- MRTEST's verdict on candidate `n`, and the witness source after it (R82): a candidate the pre-checks decide
draws nothing. -/
def mrtestVerdict (n : Int) (rounds : Nat) (w : WitnessSource) : Bool × WitnessSource :=
  match mrPre n with
  | some v => (v, w)
  | none => mrRounds rounds n.toNat w

/-- MRTEST (R82): the verdict of up to `rounds` rounds with drawn witnesses, as 1 or 0 in `rd` (R84). -/
def execMrtest (rd rs1 : Reg) (rounds : Rounds) (s : State) : Host.Outcome State Fault Refusal :=
  .next ((s.withSource (mrtestVerdict (s.val rs1) (roundsValue rounds) s.source).2).complete
    (.result [(rd, verdict (mrtestVerdict (s.val rs1) (roundsValue rounds) s.source).1)] none))

/-- MRWIT's outcome for candidate `n` and witness `a` (R83): a decided candidate does not examine the witness. -/
def mrwitOutcome (rd : Reg) (n a : Int) : CmdOutcome :=
  match mrPre n with
  | some v => .result [(rd, verdict v)] none
  | none =>
    if a < 2 ∨ a > n - 2 then .raise .invalidOperand
    else .result [(rd, verdict (mrRound n.toNat a.toNat))] none

/-- MRWIT (R83): one round of candidate `rs1` with witness `rs2`, as 1 or 0 in `rd` (R84). -/
def execMrwit (rd rs1 rs2 : Reg) (s : State) : Host.Outcome State Fault Refusal :=
  .next (s.complete (mrwitOutcome rd (s.val rs1) (s.val rs2)))

end Sys2Proof.Machine
end

