-- ==== Sys2Proof/Machine/Dispatch.lean ====
section
/-! DEFINITION. One arm per constructor of `Instr`: the completion step of a decoded command (40_command_execution.md R64). -/

namespace Sys2Proof.Machine

/-- The completion step of the command `i` (R64). -/
def exec (i : Instr) (s : State) : Host.Outcome State Fault Refusal :=
  match i with
  | .modexp rd rs1 rs2 rs3 => Sys2Proof.Machine.execModexp rd rs1 rs2 rs3 s
  | .montmul rd rs1 rs2 rs3 => Sys2Proof.Machine.execMontmul rd rs1 rs2 rs3 s
  | .gcd rd rs1 rs2 => Sys2Proof.Machine.execGcd rd rs1 rs2 s
  | .egcd rd rdx rdy rs1 rs2 => Sys2Proof.Machine.execEgcd rd rdx rdy rs1 rs2 s
  | .modinv rd rs1 rs2 => Sys2Proof.Machine.execModinv rd rs1 rs2 s
  | .lcm rd rs1 rs2 => Sys2Proof.Machine.execLcm rd rs1 rs2 s
  | .mrtest rd rs1 rounds => Sys2Proof.Machine.execMrtest rd rs1 rounds s
  | .mrwit rd rs1 rs2 => Sys2Proof.Machine.execMrwit rd rs1 rs2 s
  | .loadkey rs1 => Sys2Proof.Machine.execLoadkey rs1 s
  | .hadd rd rs1 rs2 => Sys2Proof.Machine.execHadd rd rs1 rs2 s
  | .hscale rd rs1 rs2 => Sys2Proof.Machine.execHscale rd rs1 rs2 s

end Sys2Proof.Machine
end

