-- ==== Sys2Proof/Machine/Engine.lean ====
section
/-! DEFINITION. The engine's own step (40_command_execution.md R64; 60_exceptions.md R108; 70_reset_and_hazards.md R112). -/

namespace Sys2Proof.Machine

/-- `Execute(w)` at completion (R64): decode the word (R58), then the command; a word that is no command ends with
`IllegalCommand` and writes no register (R59). -/
def executeWord (w : Word) (s : State) : Host.Outcome State Fault Refusal :=
  match decode w with
  | none => .next (s.raiseError .illegalCommand)
  | some i => exec i s

/-- The engine: completion of the command in flight (R64); idle, it keeps all state (R108, R112; log 4). -/
def engineStep (s : State) : Host.Outcome State Fault Refusal :=
  match s.pend with
  | none => .next s
  | some w => executeWord w s

end Sys2Proof.Machine
end

