-- ==== Sys2Proof/Machine/Step.lean ====
section
/-! DEFINITION. One step of the block: the next thing that happens to it (20_memory.md R42, R44). -/

namespace Sys2Proof.Machine

/-- One step: the first input still to happen, served whole. With no input left the engine moves, so that no run
keeps a command in flight forever (R119; log 3). -/
def step (s : State) : Host.Outcome State Fault Refusal :=
  match s.inputs with
  | [] => engineStep s
  | .engine :: rest => engineStep (s.withInputs rest)
  | .access a :: rest => busAccess a (s.withInputs rest)
  | .reset :: rest => .next (s.withInputs rest).hardReset

/-- `s` with the instruction of bits `w` issued (R62) and the engine as the next to move, so that the very next step
is its completion (R64). The block fetches nothing (R47): a program reaches it as CMD writes (log 14). -/
def State.withFetchWord (s : State) (nbits w : Nat) : State :=
  (s.issue (BitVec.ofNat 32 (w % 2 ^ nbits))).withInputs (.engine :: s.inputs)

end Sys2Proof.Machine
end

