-- ==== Sys2Proof/Machine/Assembler.lean ====
section
/-! DEFINITION. The assembler's lines (30_encoding.md R60): what a line names, which lines an assembler refuses, and how a
command is written. -/

namespace Sys2Proof.Machine

/-- A line of assembler as written: register and rounds numbers not yet checked, destinations first (R60). -/
inductive AsmLine where
  | modexp (rd rs1 rs2 rs3 : Nat)
  | montmul (rd rs1 rs2 rs3 : Nat)
  | gcd (rd rs1 rs2 : Nat)
  | egcd (rd rdx rdy rs1 rs2 : Nat)
  | modinv (rd rs1 rs2 : Nat)
  | lcm (rd rs1 rs2 : Nat)
  | mrtest (rd rs1 rounds : Nat)
  | mrwit (rd rs1 rs2 : Nat)
  | loadkey (rs1 : Nat)
  | hadd (rd rs1 rs2 : Nat)
  | hscale (rd rs1 rs2 : Nat)
  deriving DecidableEq, Repr

/-- A register number, `r0` to `r15`, or a refusal (R60). -/
def asmReg (n : Nat) : Option Reg := if h : n < 16 then some ⟨n, h⟩ else none

/-- A rounds number, 0 to 255, or a refusal (R60). -/
def asmRounds (n : Nat) : Option Rounds := if h : n < 256 then some ⟨n, h⟩ else none

/-- A three-register line. -/
def asm3 (f : Reg → Reg → Reg → Instr) (a b c : Nat) : Option Instr :=
  match asmReg a, asmReg b, asmReg c with
  | some a, some b, some c => some (f a b c)
  | _, _, _ => none

/-- A four-register line. -/
def asm4 (f : Reg → Reg → Reg → Reg → Instr) (a b c d : Nat) : Option Instr :=
  match asmReg a, asmReg b, asmReg c, asmReg d with
  | some a, some b, some c, some d => some (f a b c d)
  | _, _, _, _ => none

/-- The command of a line; refused are a register outside `r0` to `r15`, a rounds value outside 0 to 255, and an
`egcd` with two equal destinations (R60). -/
def assemble : AsmLine → Option Instr
  | .modexp rd rs1 rs2 rs3 => asm4 .modexp rd rs1 rs2 rs3
  | .montmul rd rs1 rs2 rs3 => asm4 .montmul rd rs1 rs2 rs3
  | .gcd rd rs1 rs2 => asm3 .gcd rd rs1 rs2
  | .egcd rd rdx rdy rs1 rs2 =>
    match asmReg rd, asmReg rdx, asmReg rdy, asmReg rs1, asmReg rs2 with
    | some rd, some rdx, some rdy, some rs1, some rs2 =>
      if distinct3 rd rdx rdy then some (.egcd rd rdx rdy rs1 rs2) else none
    | _, _, _, _, _ => none
  | .modinv rd rs1 rs2 => asm3 .modinv rd rs1 rs2
  | .lcm rd rs1 rs2 => asm3 .lcm rd rs1 rs2
  | .mrtest rd rs1 rounds =>
    match asmReg rd, asmReg rs1, asmRounds rounds with
    | some rd, some rs1, some k => some (.mrtest rd rs1 k)
    | _, _, _ => none
  | .mrwit rd rs1 rs2 => asm3 .mrwit rd rs1 rs2
  | .loadkey rs1 => (asmReg rs1).map .loadkey
  | .hadd rd rs1 rs2 => asm3 .hadd rd rs1 rs2
  | .hscale rd rs1 rs2 => asm3 .hscale rd rs1 rs2

/-- A register's name (R14). -/
def regName (r : Reg) : String := "r" ++ toString r.val

/-- A mnemonic as the assembler writes it, lower case (R14, R60). -/
def Mnemonic.text : Mnemonic → String
  | .modexp => "modexp"
  | .montmul => "montmul"
  | .gcd => "gcd"
  | .egcd => "egcd"
  | .modinv => "modinv"
  | .lcm => "lcm"
  | .mrtest => "mrtest"
  | .mrwit => "mrwit"
  | .loadkey => "loadkey"
  | .hadd => "hadd"
  | .hscale => "hscale"

/-- The operands of a command as the assembler writes them (R60). -/
def asmOperands : Instr → List String
  | .modexp rd rs1 rs2 rs3 => [regName rd, regName rs1, regName rs2, regName rs3]
  | .montmul rd rs1 rs2 rs3 => [regName rd, regName rs1, regName rs2, regName rs3]
  | .gcd rd rs1 rs2 => [regName rd, regName rs1, regName rs2]
  | .egcd rd rdx rdy rs1 rs2 => [regName rd, regName rdx, regName rdy, regName rs1, regName rs2]
  | .modinv rd rs1 rs2 => [regName rd, regName rs1, regName rs2]
  | .lcm rd rs1 rs2 => [regName rd, regName rs1, regName rs2]
  | .mrtest rd rs1 rounds => [regName rd, regName rs1, "#" ++ toString rounds.val]
  | .mrwit rd rs1 rs2 => [regName rd, regName rs1, regName rs2]
  | .loadkey rs1 => [regName rs1]
  | .hadd rd rs1 rs2 => [regName rd, regName rs1, regName rs2]
  | .hscale rd rs1 rs2 => [regName rd, regName rs1, regName rs2]

/-- A command as the assembler writes it, `modexp r3, r0, r1, r2` (R14, R60). -/
def asmText (i : Instr) : String := Mnemonic.text i.mnemonic ++ " " ++ ", ".intercalate (asmOperands i)

end Sys2Proof.Machine
end

