-- ==== Sys2Proof/Machine/HostOps.lean ====
section
/-! DEFINITION. What a host program does with the block: the pseudo-operations of 30_encoding.md R61 as lists of inputs, what
a sequence of inputs gives back on the bus, and commands one after the other (44_homomorphic.md R92, R93). -/

namespace Sys2Proof.Machine

/-! ## Bus accesses (R13, R61) -/

/-- `W32 off, v`: an aligned 32-bit write at `BASE + off` (R61). -/
def w32 (c : Config) (off : Nat) (v : Word) : Input :=
  .access { addr := c.base + off, size := .w32, op := .write v }

/-- `R32 off`: an aligned 32-bit read at `BASE + off` (R61). -/
def r32 (c : Config) (off : Nat) : Input := .access { addr := c.base + off, size := .w32, op := .read }

/-! ## Pseudo-operations (R61) -/

/-- `issue word`: write the word to CMD (R61). -/
def issueOp (c : Config) (w : Word) : List Input := [w32 c 0x010 w]

/-- `wait`: poll STATUS until BUSY reads 0 (R61). The engine completes after `polls` reads that show BUSY = 1; the
number is not fixed (R119; log 23). -/
def waitOp (c : Config) (polls : Nat) : List Input :=
  List.replicate polls (r32 c 0x00C) ++ [.engine, r32 c 0x00C]

/-- `run word`: issue, wait, and a read of STATUS (R61). -/
def runOp (c : Config) (w : Word) (polls : Nat) : List Input := issueOp c w ++ waitOp c polls ++ [r32 c 0x00C]

/-- The limb writes of `setreg`: one for every limb of `mag` that is not zero (R61). -/
def limbWrites (c : Config) (mag : Nat) : List Input :=
  (List.range c.limbs).filterMap fun k =>
    if limbOf mag k = 0#32 then none else some (w32 c (0x1000 + 4 * k) (limbOf mag k))

/-- `setreg ri, v`: clear `ri`, select it, write the limbs that are not zero, and the sign if `v < 0` (R61). -/
def setregOp (c : Config) (i : Reg) (v : Int) : List Input :=
  [w32 c 0x020 (BitVec.ofNat 32 i.val), w32 c 0x014 (BitVec.ofNat 32 i.val)]
    ++ limbWrites c v.natAbs ++ (if v < 0 then [w32 c 0x018 1#32] else [])

/-- The reads of `getreg`: SIGN, then every limb (R61). -/
def valueReads (c : Config) : List Input :=
  r32 c 0x018 :: (List.range c.limbs).map fun k => r32 c (0x1000 + 4 * k)

/-- `getreg ri`: select `ri`, read its sign and limbs (R61). -/
def getregOp (c : Config) (i : Reg) : List Input := w32 c 0x014 (BitVec.ofNat 32 i.val) :: valueReads c

/-- `getkey j`: as `getreg` with SEL = 16 + j, for j = 0 (N), 1 (NSQ), 2 (G) (R61). -/
def getkeyOp (c : Config) (j : Fin 3) : List Input := w32 c 0x014 (BitVec.ofNat 32 (16 + j.val)) :: valueReads c

/-- `sum_k m_k * 2^(32k)` over the limbs read (R61). -/
def limbSum : List Word → Nat
  | [] => 0
  | m :: rest => m.toNat + 2 ^ 32 * limbSum rest

/-- The integer `getreg` makes of the words it read, the sign first (R61). -/
def hostInteger : List Word → Int
  | [] => 0
  | s :: limbs => if s.getLsbD 0 then -(limbSum limbs : Int) else (limbSum limbs : Int)

/-! ## Sequences -/

/-- Is the input a read? -/
def Input.isRead : Input → Bool
  | .access a => a.op == .read
  | .engine => false
  | .reset => false

/-- Serve a list of inputs, one step each, and collect what the reads return, in order (R44). -/
def feed : List Input → State → Host.Outcome (List Word × State) Fault Refusal
  | [], s => .next ([], s)
  | i :: rest, s =>
    match step (s.withInputs [i]) with
    | .fault r => .fault r
    | .refused r => .refused r
    | .next t =>
      match feed rest t with
      | .fault r => .fault r
      | .refused r => .refused r
      | .next (ws, u) => .next (if i.isRead then t.readData :: ws else ws, u)

/-- Commands one after the other, each completed before the next is issued (R92, R93, R106). -/
def execAll : List Instr → State → Host.Outcome State Fault Refusal
  | [], s => .next s
  | i :: rest, s =>
    match exec i (s.issue (encode i)) with
    | .fault r => .fault r
    | .refused r => .refused r
    | .next t => execAll rest t

end Sys2Proof.Machine
end

