-- ==== Sys2Proof/Safety.lean ====
section
/-! DEFINITION. The terms in which claims speak: the invariant of the block, a completed command's success, failure and
frame, and inputs that address the block. -/

namespace Sys2Proof.Machine

/-! ## The invariant -/

/-- Every big register holds a magnitude below `2^W` (10_state.md R17). -/
def State.InRange (s : State) : Prop := ∀ i : Reg, (s.reg i).mag < s.config.bound

/-- The key slot is absent and zero, or holds the public key of a modulus that fits (R19, R34, R87, R88). -/
def KeySlot.Inv (k : KeySlot) (bound : Nat) : Prop :=
  k = KeySlot.absent ∨ (k = KeySlot.ofModulus k.n ∧ 2 ≤ k.n ∧ k.n * k.n < bound)

/-- What is true of the block at every moment. -/
structure State.Inv (s : State) : Prop where
  /-- The parameters are those R5 and R6 allow. -/
  config_wf : s.config.wf = true
  /-- Magnitudes fit their registers (R17). -/
  in_range : s.InRange
  /-- The key slot's fields agree (R19, R87). -/
  key_inv : s.key.Inv s.config.bound
  /-- ERR is 1 exactly when ERRCODE is not 0x00 (R24, R96). -/
  err_iff : s.status.err = true ↔ s.status.errcode ≠ 0x00#8
  /-- ERRCODE ranges over the codes the block produces (R96). -/
  code_produced : s.status.errcode ∈ producedCodes
  /-- While a command is in flight DONE, ERR and ERRCODE are 0 (R62). -/
  busy_clear : s.busy = true → s.status.done = false ∧ s.status.err = false
  /-- The word in flight is the one CMD reads back (R25, R62). -/
  pend_is_cmd : ∀ w, s.pend = some w → s.cmd = w

/-! ## A completed command -/

/-- A command ended without an error (R64). -/
structure State.Succeeded (t : State) : Prop where
  done : t.status.done = true
  err : t.status.err = false
  errcode : t.status.errcode = 0x00#8
  idle : t.pend = none

/-- A command ended with error `e` (R64, R95). -/
structure State.Failed (t : State) (e : CmdError) : Prop where
  done : t.status.done = true
  err : t.status.err = true
  errcode : t.status.errcode = e.code
  idle : t.pend = none

/-- What a command leaves as it was, apart from its destination registers, the key slot and the witness source: the
other big registers, CTRL, SEL, CMD, OVR, ACCERR, the bus port, the parameters, the inputs (R62, R64, R65, R100). -/
structure State.Frame (s t : State) (dests : List Reg) : Prop where
  regs : ∀ r : Reg, r ∉ dests → t.reg r = s.reg r
  config : t.config = s.config
  ie : t.ie = s.ie
  ovr : t.status.ovr = s.status.ovr
  accerr : t.status.accerr = s.status.accerr
  cmd : t.cmd = s.cmd
  sel : t.sel = s.sel
  readData : t.readData = s.readData
  inputs : t.inputs = s.inputs

/-- The outcome is success, with `dests` the only registers that may have changed; the key slot and the witness
source are as before. -/
structure State.SucceedsInto (s t : State) (dests : List Reg) : Prop where
  succeeded : t.Succeeded
  frame : State.Frame s t dests
  key : t.key = s.key
  source : t.source = s.source

/-- The outcome is error `e`: no big register and no key-slot field is written (R65). -/
structure State.FailsWith (s t : State) (e : CmdError) : Prop where
  failed : t.Failed e
  frame : State.Frame s t []
  key : t.key = s.key
  source : t.source = s.source

/-- Register `i` holds `v` in canonical form (R13, R17). -/
def State.Holds (t : State) (i : Reg) (v : Int) : Prop :=
  (t.reg i).sign = decide (v < 0) ∧ (t.reg i).mag = v.natAbs

/-! ## Safe runs -/

/-- The input reaches the block: every access lies in `BASE` to `BASE + 0x3FFF` (R35). -/
def Input.addressed (c : Config) : Input → Bool
  | .access a => addressesBlock c a
  | .engine => true
  | .reset => true

/-- Every input still to happen reaches the block: then no step stops. -/
def State.inputsAddressed (s : State) : Prop := ∀ i ∈ s.inputs, i.addressed s.config = true

end Sys2Proof.Machine
end

