-- ==== Sys2Proof/Certificates/Slice0/Obligations.lean ====
section
/-! DEFINITION. The statements for the provers. The block has no memory (20_memory.md R35): its state is registers, so a
frame speaks of registers and STATUS bits (`State.Frame`), and of the key slot and the witness source beside it. -/

namespace Sys2Proof.Machine

/-! ## Terms of the statements, written from the rules -/

/-- Field `F` of a word as a number: four bits from `lo` (R50). -/
def fieldNat (w : Word) (lo : Nat) : Nat := w.toNat / 2 ^ lo % 16

/-- The illegal encodings of R59, by number: opcodes 0x00 and 0x0C to 0x3F; a 1 in a bit the format reserves; an EGCD
whose destinations are not pairwise different. -/
def IllegalWord (w : Word) : Prop :=
  w.toNat % 64 = 0x00 ∨ 0x0C ≤ w.toNat % 64 ∨ w.toNat / 2 ^ 26 ≠ 0
    ∨ (w.toNat % 64 ∈ [0x01, 0x02, 0x07] ∧ w.toNat / 2 ^ 22 ≠ 0)
    ∨ (w.toNat % 64 ∈ [0x03, 0x05, 0x06, 0x08, 0x0A, 0x0B] ∧ w.toNat / 2 ^ 18 ≠ 0)
    ∨ (w.toNat % 64 = 0x09 ∧ (fieldNat w 6 ≠ 0 ∨ w.toNat / 2 ^ 14 ≠ 0))
    ∨ (w.toNat % 64 = 0x04 ∧ (fieldNat w 6 = fieldNat w 18 ∨ fieldNat w 6 = fieldNat w 22 ∨ fieldNat w 18 = fieldNat w 22))

/-- The operands of a line of assembler are ones an assembler accepts (R60). -/
def AsmLineOk : AsmLine → Prop
  | .modexp rd rs1 rs2 rs3 => rd < 16 ∧ rs1 < 16 ∧ rs2 < 16 ∧ rs3 < 16
  | .montmul rd rs1 rs2 rs3 => rd < 16 ∧ rs1 < 16 ∧ rs2 < 16 ∧ rs3 < 16
  | .gcd rd rs1 rs2 => rd < 16 ∧ rs1 < 16 ∧ rs2 < 16
  | .egcd rd rdx rdy rs1 rs2 =>
    (rd < 16 ∧ rdx < 16 ∧ rdy < 16 ∧ rs1 < 16 ∧ rs2 < 16) ∧ rd ≠ rdx ∧ rd ≠ rdy ∧ rdx ≠ rdy
  | .modinv rd rs1 rs2 => rd < 16 ∧ rs1 < 16 ∧ rs2 < 16
  | .lcm rd rs1 rs2 => rd < 16 ∧ rs1 < 16 ∧ rs2 < 16
  | .mrtest rd rs1 rounds => rd < 16 ∧ rs1 < 16 ∧ rounds ≤ 255
  | .mrwit rd rs1 rs2 => rd < 16 ∧ rs1 < 16 ∧ rs2 < 16
  | .loadkey rs1 => rs1 < 16
  | .hadd rd rs1 rs2 => rd < 16 ∧ rs1 < 16 ∧ rs2 < 16
  | .hscale rd rs1 rs2 => rd < 16 ∧ rs1 < 16 ∧ rs2 < 16

/-- The line an assembler writes for a command (R60). -/
def asmLineOf : Instr → AsmLine
  | .modexp rd rs1 rs2 rs3 => .modexp rd rs1 rs2 rs3
  | .montmul rd rs1 rs2 rs3 => .montmul rd rs1 rs2 rs3
  | .gcd rd rs1 rs2 => .gcd rd rs1 rs2
  | .egcd rd rdx rdy rs1 rs2 => .egcd rd rdx rdy rs1 rs2
  | .modinv rd rs1 rs2 => .modinv rd rs1 rs2
  | .lcm rd rs1 rs2 => .lcm rd rs1 rs2
  | .mrtest rd rs1 rounds => .mrtest rd rs1 rounds
  | .mrwit rd rs1 rs2 => .mrwit rd rs1 rs2
  | .loadkey rs1 => .loadkey rs1
  | .hadd rd rs1 rs2 => .hadd rd rs1 rs2
  | .hscale rd rs1 rs2 => .hscale rd rs1 rs2

/-- An offset of the window (R36). -/
def inWindow (off : Nat) : Prop := 0x1000 ≤ off ∧ off ≤ 0x2FFF

/-- The access writes. -/
def BusOp.isWrite (op : BusOp) : Prop := ∃ v, op = .write v

/-- The seven causes of refusal of R41, in its order. -/
def RefusalCause (s : State) (size : AccessSize) (off : Nat) (op : BusOp) : Prop :=
  (size ≠ .w32 ∨ off % 4 ≠ 0)
    ∨ (0x024 ≤ off ∧ off ≤ 0x0FFF ∨ 0x3000 ≤ off ∧ off ≤ 0x3FFF)
    ∨ (inWindow off ∧ s.config.limbs ≤ (off - 0x1000) / 4)
    ∨ ((inWindow off ∨ off = 0x018) ∧ 19 ≤ s.sel.toNat)
    ∨ ((inWindow off ∨ off = 0x018) ∧ op.isWrite ∧ 16 ≤ s.sel.toNat ∧ s.sel.toNat ≤ 18)
    ∨ (s.pend ≠ none ∧ (inWindow off ∨ off = 0x018 ∨ off = 0x020 ∧ op.isWrite))
    ∨ (off = 0x020 ∧ ∃ v, op = .write v ∧ 16 ≤ v.toNat % 32)

/-- What a refused write leaves: ACCERR is 1, nothing else changes (R41). -/
def afterRefusedWrite (s : State) : State := { s with status := { s.status with accerr := true } }

/-- What a refused read leaves: it returns 0 and sets ACCERR (R41). -/
def afterRefusedRead (s : State) : State :=
  { s with status := { s.status with accerr := true }, readData := 0x00000000#32 }

/-- A run of the loop of R76 from the pairs `(r0, r1)`, `(s0, s1)`, `(t0, t1)` to its answer. -/
inductive EuclidRun : Int → Int → Int → Int → Int → Int → Int × Int × Int → Prop
  | stop (r0 s0 s1 t0 t1 : Int) : EuclidRun r0 0 s0 s1 t0 t1 (r0, s0, t0)
  | turn (r0 r1 s0 s1 t0 t1 q : Int) (answer : Int × Int × Int) (h : r1 ≠ 0) (hq : q = r0.fdiv r1)
      (rest : EuclidRun r1 (r0 - q * r1) s1 (s0 - q * s1) t1 (t0 - q * t1) answer) :
    EuclidRun r0 r1 s0 s1 t0 t1 answer

/-- `R` of R73 for modulus `n`: `2^(32*L)`, `L = max(1, ceil(bitlen(n) / 32))`. -/
def montgomeryR (n : Int) : Int := 2 ^ (32 * max 1 ((Nat.size n.toNat + 31) / 32))

/-- Candidate `n` passes the round with witness `a` (R81): with `n - 1 = d * 2^r` and `d` odd, `a^d` is 1 or one of
`a^d, a^(2d), ..., a^(2^(r-1) d)` is `n - 1`, modulo `n`. -/
def PassesRound (n a : Nat) : Prop :=
  ∃ d r, n - 1 = d * 2 ^ r ∧ d % 2 = 1 ∧ (a ^ d % n = 1 ∨ ∃ j < r, a ^ (d * 2 ^ j) % n = n - 1)

/-- `as` are the next draws for candidate `n`, in order, and `w'` is the source after them (R8, R13). -/
inductive Draws (n : Nat) : WitnessSource → List Nat → WitnessSource → Prop
  | none (w : WitnessSource) : Draws n w [] w
  | more (w w' : WitnessSource) (as : List Nat) (rest : Draws n (w.draw n).2 as w') :
    Draws n w ((w.draw n).1 :: as) w'

/-- The verdict of the pre-checks (R80), where they decide. -/
def PreDecided (n : Int) (v : Int) : Prop :=
  (n < 2 ∧ v = 0) ∨ ((n = 2 ∨ n = 3) ∧ v = 1) ∨ (2 < n ∧ n % 2 = 0 ∧ v = 0)

/-- The error codes a decoded command can report (R98), 0x00 for none; EGCD's `Overflow` is "in principle" only (R96)
and never taken (R77). -/
def codesOf : Mnemonic → List (BitVec 8)
  | .modexp => [0x00#8, 0x02#8]
  | .montmul => [0x00#8, 0x02#8]
  | .gcd => [0x00#8]
  | .egcd => [0x00#8]
  | .modinv => [0x00#8, 0x02#8, 0x10#8]
  | .lcm => [0x00#8, 0x11#8, 0x03#8]
  | .mrtest => [0x00#8]
  | .mrwit => [0x00#8, 0x02#8]
  | .loadkey => [0x00#8, 0x04#8, 0x05#8]
  | .hadd => [0x00#8, 0x13#8]
  | .hscale => [0x00#8, 0x13#8, 0x12#8]

/-- `c` is the encryption of `m` with `r` under the public key `n` (R92): `g^m * r^n mod n²`, `g = n + 1`. -/
def IsEncryption (n m r : Nat) (c : Int) : Prop := c = (((n : Int) + 1) ^ m * (r : Int) ^ n).fmod ((n : Int) * n)

/-- A generated key (R94, §3): `n = p*q` for different primes, `lambda = lcm(p-1, q-1)`, `lambda * mu = 1 mod n`. -/
structure PaillierKey (p q n lambda mu : Nat) : Prop where
  p_prime : p.Prime
  q_prime : q.Prime
  ne : p ≠ q
  n_eq : n = p * q
  lambda_eq : lambda = Nat.lcm (p - 1) (q - 1)
  mu_inv : lambda * mu % n = 1

/-- The host's last step of decryption (R93): `L(u) = (u - 1) / n` is exact and `(L(u) * mu) mod n` is `m`. -/
def DecryptsTo (n mu : Nat) (u : Int) (m : Nat) : Prop := (u - 1) % n = 0 ∧ (u - 1) / n * mu % n = (m : Int)

/-- The key slot of `s` is ready and holds the modulus `n`. -/
def State.HasKey (s : State) (n : Nat) : Prop := s.key.ready = true ∧ s.key.n = n

end Sys2Proof.Machine

open Sys2Proof Sys2Proof.Machine

/-! ## Encoding -/

/-- The example words of the command rules and the illegal words of 95_test_vectors.md L2.1. -/
def Obligations.SpecExampleWordsDecode : Prop :=
  decode 0x000840C1#32 = some (.modexp 3 0 1 2) ∧ decode 0x000840C2#32 = some (.montmul 3 0 1 2) ∧
  decode 0x00004083#32 = some (.gcd 2 0 1) ∧ decode 0x010C4084#32 = some (.egcd 2 3 4 0 1) ∧
  decode 0x00004085#32 = some (.modinv 2 0 1) ∧ decode 0x00004086#32 = some (.lcm 2 0 1) ∧
  decode 0x00028087#32 = some (.mrtest 2 0 10) ∧ decode 0x00004088#32 = some (.mrwit 2 0 1) ∧
  decode 0x00000009#32 = some (.loadkey 0) ∧ decode 0x0000408A#32 = some (.hadd 2 0 1) ∧
  decode 0x0000408B#32 = some (.hscale 2 0 1) ∧ decode 0x00000000#32 = none ∧ decode 0x0000000C#32 = none ∧
  decode 0x004840C1#32 = none ∧ decode 0x00000049#32 = none ∧ decode 0x01084084#32 = none

/-- Decode and encode agree on every command, with every operand at every value. -/
def Obligations.DecodeAfterEncodeIsIdentity : Prop :=
  ∀ i : Instr, i.wellFormed = true → decode (encode i) = some i

/-- A word that decodes is the word of its command: each command has one word, and no bit of it is ignored. -/
def Obligations.EncodeAfterDecodeIsIdentity : Prop :=
  ∀ (w : Word) (i : Instr), decode w = some i → encode i = w ∧ i.wellFormed = true

/-- The words of R51 to R55 as sums of shifted fields. -/
def Obligations.EncodedWordIsTheSumOfItsFields : Prop :=
  ∀ rd rs1 rs2 rs3 rdx rdy : Reg, ∀ k : Rounds,
    (encode (.modexp rd rs1 rs2 rs3)).toNat = 0x01 + rd * 2 ^ 6 + rs1 * 2 ^ 10 + rs2 * 2 ^ 14 + rs3 * 2 ^ 18 ∧
    (encode (.montmul rd rs1 rs2 rs3)).toNat = 0x02 + rd * 2 ^ 6 + rs1 * 2 ^ 10 + rs2 * 2 ^ 14 + rs3 * 2 ^ 18 ∧
    (encode (.gcd rd rs1 rs2)).toNat = 0x03 + rd * 2 ^ 6 + rs1 * 2 ^ 10 + rs2 * 2 ^ 14 ∧
    (encode (.egcd rd rdx rdy rs1 rs2)).toNat =
      0x04 + rd * 2 ^ 6 + rs1 * 2 ^ 10 + rs2 * 2 ^ 14 + rdx * 2 ^ 18 + rdy * 2 ^ 22 ∧
    (encode (.modinv rd rs1 rs2)).toNat = 0x05 + rd * 2 ^ 6 + rs1 * 2 ^ 10 + rs2 * 2 ^ 14 ∧
    (encode (.lcm rd rs1 rs2)).toNat = 0x06 + rd * 2 ^ 6 + rs1 * 2 ^ 10 + rs2 * 2 ^ 14 ∧
    (encode (.mrtest rd rs1 k)).toNat = 0x07 + rd * 2 ^ 6 + rs1 * 2 ^ 10 + k * 2 ^ 14 ∧
    (encode (.mrwit rd rs1 rs2)).toNat = 0x08 + rd * 2 ^ 6 + rs1 * 2 ^ 10 + rs2 * 2 ^ 14 ∧
    (encode (.loadkey rs1)).toNat = 0x09 + rs1 * 2 ^ 10 ∧
    (encode (.hadd rd rs1 rs2)).toNat = 0x0A + rd * 2 ^ 6 + rs1 * 2 ^ 10 + rs2 * 2 ^ 14 ∧
    (encode (.hscale rd rs1 rs2)).toNat = 0x0B + rd * 2 ^ 6 + rs1 * 2 ^ 10 + rs2 * 2 ^ 14

/-- R59: the illegal words are exactly the listed ones; in flight, each ends with `IllegalCommand`, code 0x01, and no
register is written. -/
def Obligations.IllegalWordsEndWithIllegalCommand : Prop :=
  (∀ w : Word, decode w = none ↔ IllegalWord w) ∧
  ∀ (s : State) (w : Word), s.pend = some w → IllegalWord w →
    ∃ t, engineStep s = .next t ∧ State.FailsWith s t .illegalCommand ∧ t.status.errcode = 0x01#8

/-- R60: the assembler refuses exactly the lines with a register outside `r0` to `r15`, a rounds value outside 0 to 255
or, for `egcd`, two equal destinations; what it makes of any other line is that line's command. -/
def Obligations.AssemblerRefusesOnlyBadOperands : Prop :=
  (∀ l : AsmLine, assemble l = none ↔ ¬AsmLineOk l) ∧
  (∀ (l : AsmLine) (i : Instr), assemble l = some i → i.wellFormed = true ∧ asmLineOf i = l)

/-! ## Issue, completion, steps -/

/-- A step runs the decoded command in flight: when the engine is the next to move, by an input or because no input is
left (the model's choice, log 3), the step is `exec` of that command at the state with the input taken off. -/
def Obligations.StepRunsTheCommandInFlight : Prop :=
  ∀ (s : State) (w : Word) (i : Instr), s.pend = some w → decode w = some i →
    (s.inputs = [] → step s = exec i s) ∧
    (∀ rest, s.inputs = .engine :: rest → step s = exec i (s.withInputs rest))

/-- R62: what the issuing write does, and what it leaves; an illegal word is issued like any other and fails at
completion. -/
def Obligations.CmdWriteWhileIdleIssues : Prop :=
  ∀ (s : State) (w : Word), s.pend = none →
    let t := s.serve .w32 0x010 (.write w)
    t.cmd = w ∧ t.pend = some w ∧ t.busy = true ∧
      t.status = { done := false, err := false, ovr := s.status.ovr, accerr := s.status.accerr, errcode := 0x00#8 } ∧
      t.ie = s.ie ∧ t.sel = s.sel ∧ t.br = s.br ∧ t.key = s.key ∧ t.irq = false ∧
      t.config = s.config ∧ t.readData = s.readData ∧ t.source = s.source ∧ t.inputs = s.inputs ∧
      (decode w = none → ∃ u, engineStep t = .next u ∧ u.status.err = true ∧ u.status.errcode = 0x01#8)

/-- R25: a write of CMD issues while idle and is dropped with OVR while busy; a read returns the last word accepted;
and nothing but a 32-bit write at CMD's offset starts a command. -/
def Obligations.OnlyACmdWriteStartsACommand : Prop :=
  (∀ (s : State) (w : Word), s.pend = none →
    (s.serve .w32 0x010 (.write w)).pend = some w ∧ (s.serve .w32 0x010 (.write w)).cmd = w) ∧
  (∀ (s : State) (w : Word), s.pend ≠ none →
    s.serve .w32 0x010 (.write w) = { s with status := { s.status with ovr := true } }) ∧
  (∀ s : State, s.serve .w32 0x010 .read = { s with readData := s.cmd }) ∧
  State.reset.cmd = 0x00000000#32 ∧
  ∀ s t : State, step s = .next t →
    (s.pend = none → ∀ w, t.pend = some w →
      s.inputs.head? = some (.access { addr := s.config.base + 0x010, size := .w32, op := .write w }) ∧ t.cmd = w) ∧
    (t.cmd ≠ s.cmd → t.pend = some t.cmd ∨ s.inputs.head? = some .reset)

/-- R64, R65, R100: every command completes; it changes no register but its destinations, no key field unless it is
LOADKEY, no witness draw unless it is MRTEST; an error writes no register and no key field. -/
def Obligations.EveryCommandCompletesWithinItsFrame : Prop :=
  ∀ (i : Instr) (s : State), ∃ t, exec i s = .next t ∧ t.pend = none ∧ t.status.done = true ∧
    State.Frame s t i.dests ∧
    ((t.status.err = false ∧ t.status.errcode = 0x00#8) ∨
      (t.status.err = true ∧ t.status.errcode ≠ 0x00#8 ∧ t.br = s.br ∧ t.key = s.key)) ∧
    (i.mnemonic ≠ .loadkey → t.key = s.key) ∧ (i.mnemonic ≠ .mrtest → t.source = s.source)

/-- R98: the errors each command can report, and no other, in every state the invariant allows (R68: with operands
below `2^W` only LCM reaches `Overflow`; EGCD's is listed by R98 and never taken, R77). -/
def Obligations.EachCommandReportsOnlyItsErrors : Prop :=
  ∀ (i : Instr) (s t : State), i.wellFormed = true → s.Inv → exec i s = .next t → t.status.errcode ∈ codesOf i.mnemonic

/-- R71: but for MRTEST, the outcome is a function of the command and the operand values; MRTEST's also of the draws.
Values, not register contents: negative zero is 0 to every command (R17). -/
def Obligations.OutcomeDependsOnOperandValuesOnly : Prop :=
  ∀ (i : Instr) (s s' t t' : State), exec i s = .next t → exec i s' = .next t' →
    s.config.limbs = s'.config.limbs → s.key = s'.key → (∀ r ∈ i.sources, s.val r = s'.val r) →
    (i.mnemonic = .mrtest → s.source = s'.source) →
    t.status.err = t'.status.err ∧ t.status.errcode = t'.status.errcode ∧ t.key = t'.key ∧
      (t.status.err = false → ∀ r ∈ i.dests, t.reg r = t'.reg r)

/-! ## MODEXP, MONTMUL -/

/-- R72: `(b^e) mod m`, exact, in `[0, m)`; `InvalidOperand` for `m ≤ 0` or `e < 0`. -/
def Obligations.ModexpWritesTheExactPower : Prop :=
  ∀ (rd rs1 rs2 rs3 : Reg) (s : State), s.InRange →
    (0 < s.val rs3 → 0 ≤ s.val rs2 → ∃ t, exec (.modexp rd rs1 rs2 rs3) s = .next t ∧ State.SucceedsInto s t [rd] ∧
      t.Holds rd ((s.val rs1 ^ (s.val rs2).toNat).fmod (s.val rs3)) ∧ 0 ≤ t.val rd ∧ t.val rd < s.val rs3) ∧
    (s.val rs3 ≤ 0 ∨ s.val rs2 < 0 →
      ∃ t, exec (.modexp rd rs1 rs2 rs3) s = .next t ∧ State.FailsWith s t .invalidOperand)

/-- R73: `(a * b * Rinv) mod N` for the inverse `Rinv` of `R` in `[0, N)`, which exists; `InvalidOperand` for `N ≤ 0` or
even `N`. -/
def Obligations.MontmulWritesTheMontgomeryProduct : Prop :=
  ∀ (rd rs1 rs2 rs3 : Reg) (s : State), s.InRange →
    (0 < s.val rs3 → s.val rs3 % 2 = 1 →
      ∃ t rinv, exec (.montmul rd rs1 rs2 rs3) s = .next t ∧ State.SucceedsInto s t [rd] ∧
        0 ≤ rinv ∧ rinv < s.val rs3 ∧ (montgomeryR (s.val rs3) * rinv).fmod (s.val rs3) = (1 : Int).fmod (s.val rs3) ∧
        t.Holds rd ((s.val rs1 * s.val rs2 * rinv).fmod (s.val rs3))) ∧
    (s.val rs3 ≤ 0 ∨ s.val rs3 % 2 = 0 →
      ∃ t, exec (.montmul rd rs1 rs2 rs3) s = .next t ∧ State.FailsWith s t .invalidOperand)

/-- R73's derived identity: `montmul(montmul(a, b, N), R² mod N, N) = a*b mod N`. -/
def Obligations.TwoMontmulsGiveTheProduct : Prop :=
  ∀ (rT rd rs1 rs2 rR2 rN : Reg) (s : State), s.InRange → rT ≠ rR2 → rT ≠ rN →
    0 < s.val rN → s.val rN % 2 = 1 →
    s.val rR2 = (montgomeryR (s.val rN) * montgomeryR (s.val rN)).fmod (s.val rN) →
    ∃ t, execAll [.montmul rT rs1 rs2 rN, .montmul rd rT rR2 rN] s = .next t ∧ t.Succeeded ∧
      t.Holds rd ((s.val rs1 * s.val rs2).fmod (s.val rN))

/-! ## GCD, EGCD, MODINV, LCM -/

/-- R75: the non-negative gcd of the magnitudes, on every pair of operands. -/
def Obligations.GcdWritesTheGcd : Prop :=
  ∀ (rd rs1 rs2 : Reg) (s : State), s.InRange →
    ∃ t, exec (.gcd rd rs1 rs2) s = .next t ∧ State.SucceedsInto s t [rd] ∧
      t.Holds rd (Int.gcd (s.val rs1) (s.val rs2))

/-- R76, R77: EGCD writes the gcd and the coefficients of the iteration of R76 with the signs moved to them; they are
Bézout coefficients of bounded size, so `Overflow` is never taken. Equal destinations are `IllegalCommand` (R59;
the meaning's own check for a term made by hand is the model's, log 25). -/
def Obligations.EgcdWritesBezoutCoefficients : Prop :=
  ∀ (rd rdx rdy rs1 rs2 : Reg) (s : State), s.config.wf = true → s.InRange →
    (rd ≠ rdx → rd ≠ rdy → rdx ≠ rdy →
      ∃ t g x0 y0 x y, exec (.egcd rd rdx rdy rs1 rs2) s = .next t ∧ State.SucceedsInto s t [rd, rdx, rdy] ∧
        EuclidRun |s.val rs1| |s.val rs2| 1 0 0 1 (g, x0, y0) ∧
        x = (if s.val rs1 < 0 then -x0 else x0) ∧ y = (if s.val rs2 < 0 then -y0 else y0) ∧
        g = Int.gcd (s.val rs1) (s.val rs2) ∧ s.val rs1 * x + s.val rs2 * y = g ∧
        |x| ≤ max 1 |s.val rs2| ∧ |y| ≤ max 1 |s.val rs1| ∧
        t.Holds rd g ∧ t.Holds rdx x ∧ t.Holds rdy y) ∧
    (rd = rdx ∨ rd = rdy ∨ rdx = rdy →
      ∃ t, exec (.egcd rd rdx rdy rs1 rs2) s = .next t ∧ State.FailsWith s t .illegalCommand)

/-- R78: the inverse in `[0, m)`; `InvalidOperand` for `m ≤ 0`, checked first; `NoModularInverseError` when
`gcd(a, m) ≠ 1`. -/
def Obligations.ModinvWritesTheInverse : Prop :=
  ∀ (rd rs1 rs2 : Reg) (s : State), s.InRange →
    (0 < s.val rs2 → Int.gcd (s.val rs1) (s.val rs2) = 1 →
      ∃ t x, exec (.modinv rd rs1 rs2) s = .next t ∧ State.SucceedsInto s t [rd] ∧ t.Holds rd x ∧
        0 ≤ x ∧ x < s.val rs2 ∧ (s.val rs1 * x).fmod (s.val rs2) = (1 : Int).fmod (s.val rs2)) ∧
    (s.val rs2 ≤ 0 → ∃ t, exec (.modinv rd rs1 rs2) s = .next t ∧ State.FailsWith s t .invalidOperand) ∧
    (0 < s.val rs2 → Int.gcd (s.val rs1) (s.val rs2) ≠ 1 →
      ∃ t, exec (.modinv rd rs1 rs2) s = .next t ∧ State.FailsWith s t .noModularInverse)

/-- R79, R68: `abs(a*b) div gcd(a, b)` where it is below `2^W`; `Overflow` where it is not; `DivisionByZeroError` when
both operands are 0. -/
def Obligations.LcmWritesTheLcmOrOverflows : Prop :=
  ∀ (rd rs1 rs2 : Reg) (s : State),
    (¬(s.val rs1 = 0 ∧ s.val rs2 = 0) → Int.lcm (s.val rs1) (s.val rs2) < 2 ^ (32 * s.config.limbs) →
      ∃ t, exec (.lcm rd rs1 rs2) s = .next t ∧ State.SucceedsInto s t [rd] ∧
        t.Holds rd (|s.val rs1 * s.val rs2| / Int.gcd (s.val rs1) (s.val rs2)) ∧
        t.Holds rd (Int.lcm (s.val rs1) (s.val rs2))) ∧
    (¬(s.val rs1 = 0 ∧ s.val rs2 = 0) → 2 ^ (32 * s.config.limbs) ≤ Int.lcm (s.val rs1) (s.val rs2) →
      ∃ t, exec (.lcm rd rs1 rs2) s = .next t ∧ State.FailsWith s t .overflow) ∧
    (s.val rs1 = 0 → s.val rs2 = 0 →
      ∃ t, exec (.lcm rd rs1 rs2) s = .next t ∧ State.FailsWith s t .divisionByZero)

/-! ## MRTEST, MRWIT -/

/-- R8: every draw for a candidate `n ≥ 5` lies in `[2, n-2]`, and a listed answer in that range is the one drawn (the
list and the folding of other answers are the model's, log 5). -/
def Obligations.DrawsAreWitnessesInRange : Prop :=
  ∀ (w : WitnessSource) (n : Nat), 5 ≤ n →
    2 ≤ (w.draw n).1 ∧ (w.draw n).1 ≤ n - 2 ∧
    ∀ raw rest, w.queue = raw :: rest → 2 ≤ raw → raw ≤ n - 2 →
      w.draw n = (raw, { queue := rest, drawn := w.drawn + 1 })

/-- R82, R84: MRTEST's verdict. A decided candidate draws nothing. Otherwise the draws `as` are one per round reached:
all passed, and the verdict is 1, if every one of the `rounds` rounds was reached; or the last one failed, and the
verdict is 0. -/
def Obligations.MrtestDrawsUntilAWitnessFails : Prop :=
  ∀ (rd rs1 : Reg) (k : Rounds) (s : State), s.config.wf = true →
    (∀ v, PreDecided (s.val rs1) v → ∃ t, exec (.mrtest rd rs1 k) s = .next t ∧ State.SucceedsInto s t [rd] ∧
      t.Holds rd v) ∧
    (∀ n : Nat, s.val rs1 = n → 5 ≤ n → n % 2 = 1 →
      ∃ t as, exec (.mrtest rd rs1 k) s = .next t ∧ t.Succeeded ∧ State.Frame s t [rd] ∧ t.key = s.key ∧
        Draws n s.source as t.source ∧ as.length ≤ k.val ∧
        ((as.length = k.val ∧ (∀ a ∈ as, PassesRound n a) ∧ t.Holds rd 1) ∨
          (∃ before a, as = before ++ [a] ∧ (∀ b ∈ before, PassesRound n b) ∧ ¬PassesRound n a ∧ t.Holds rd 0)))

/-- R83, R84: MRWIT's verdict: a decided candidate does not examine the witness; otherwise `InvalidOperand` outside
`[2, n-2]`, and 1 exactly when the round passes. -/
def Obligations.MrwitWritesTheRoundsVerdict : Prop :=
  ∀ (rd rs1 rs2 : Reg) (s : State), s.config.wf = true →
    (∀ v, PreDecided (s.val rs1) v → ∃ t, exec (.mrwit rd rs1 rs2) s = .next t ∧ State.SucceedsInto s t [rd] ∧
      t.Holds rd v) ∧
    (5 ≤ s.val rs1 → s.val rs1 % 2 = 1 → s.val rs2 < 2 ∨ s.val rs1 - 2 < s.val rs2 →
      ∃ t, exec (.mrwit rd rs1 rs2) s = .next t ∧ State.FailsWith s t .invalidOperand) ∧
    (∀ n a : Nat, s.val rs1 = n → s.val rs2 = a → 5 ≤ n → n % 2 = 1 → 2 ≤ a → a ≤ n - 2 →
      ∃ t, exec (.mrwit rd rs1 rs2) s = .next t ∧ State.SucceedsInto s t [rd] ∧
        (PassesRound n a → t.Holds rd 1) ∧ (¬PassesRound n a → t.Holds rd 0))

/-- R85 (1) and (2): on a prime candidate MRTEST answers 1 for every draw, and so does MRWIT for every witness in
range; an answer 0 proves the candidate not prime. -/
def Obligations.PrimesPassEveryRound : Prop :=
  (∀ (rd rs1 : Reg) (k : Rounds) (s : State) (p : Nat), s.config.wf = true → s.val rs1 = p → p.Prime →
    ∃ t, exec (.mrtest rd rs1 k) s = .next t ∧ t.Holds rd 1) ∧
  (∀ (rd rs1 rs2 : Reg) (s : State) (p : Nat), s.config.wf = true → s.val rs1 = p → p.Prime →
    2 ≤ s.val rs2 → s.val rs2 ≤ p - 2 → ∃ t, exec (.mrwit rd rs1 rs2) s = .next t ∧ t.Holds rd 1) ∧
  (∀ (rd rs1 : Reg) (k : Rounds) (s t : State), s.config.wf = true → exec (.mrtest rd rs1 k) s = .next t →
    t.Holds rd 0 → ¬ ∃ p : Nat, p.Prime ∧ s.val rs1 = p) ∧
  (∀ (rd rs1 rs2 : Reg) (s t : State), s.config.wf = true → exec (.mrwit rd rs1 rs2) s = .next t → t.Succeeded →
    t.Holds rd 0 → ¬ ∃ p : Nat, p.Prime ∧ s.val rs1 = p)

/-- R83's derived law: the MRTEST verdict is the AND of the MRWIT verdicts for the same witnesses. Here the witness
source lists exactly `rounds` answers in `[2, n-2]`, and `r2` holds each in turn. -/
def Obligations.MrtestIsTheAndOfMrwits : Prop :=
  ∀ (rd rs1 rs2 : Reg) (k : Rounds) (s t : State) (n : Nat), s.config.wf = true → rs1 ≠ rs2 →
    s.val rs1 = n → 5 ≤ n → n % 2 = 1 → s.source.queue.length = k.val →
    (∀ a ∈ s.source.queue, 2 ≤ a ∧ a ≤ n - 2) → exec (.mrtest rd rs1 k) s = .next t →
    (t.Holds rd 1 ↔ ∀ a ∈ s.source.queue, ∃ u,
      exec (.mrwit rd rs1 rs2) (s.writeInt rs2 (a : Int)) = .next u ∧ u.Holds rd 1)

/-! ## LOADKEY, HADD, HSCALE -/

/-- R88: LOADKEY commits the four key fields together; `KeyLocked` is checked first, then `InvalidKey`. -/
def Obligations.LoadkeyLoadsThePublicKey : Prop :=
  ∀ (rs1 : Reg) (s : State),
    (s.key.ready = false → 2 ≤ s.val rs1 → s.val rs1 * s.val rs1 < 2 ^ (32 * s.config.limbs) →
      ∃ t, exec (.loadkey rs1) s = .next t ∧ t.Succeeded ∧ State.Frame s t [] ∧ t.source = s.source ∧
        (t.key.n : Int) = s.val rs1 ∧ (t.key.nsq : Int) = s.val rs1 * s.val rs1 ∧ (t.key.g : Int) = s.val rs1 + 1 ∧
        t.key.ready = true) ∧
    (s.key.ready = true → ∃ t, exec (.loadkey rs1) s = .next t ∧ State.FailsWith s t .keyLocked) ∧
    (s.key.ready = false → s.val rs1 < 2 ∨ 2 ^ (32 * s.config.limbs) ≤ s.val rs1 * s.val rs1 →
      ∃ t, exec (.loadkey rs1) s = .next t ∧ State.FailsWith s t .invalidKey)

/-- R89, R91: `(c1 * c2) mod n²` on every pair of operands; `UninitializedKeyError` on an absent key. -/
def Obligations.HaddMultipliesCiphertexts : Prop :=
  ∀ (rd rs1 rs2 : Reg) (s : State), s.key.Inv s.config.bound →
    (s.key.ready = true → ∃ t, exec (.hadd rd rs1 rs2) s = .next t ∧ State.SucceedsInto s t [rd] ∧
      t.Holds rd ((s.val rs1 * s.val rs2).fmod s.key.nsq) ∧ 0 ≤ t.val rd ∧ t.val rd < s.key.nsq) ∧
    (s.key.ready = false → ∃ t, exec (.hadd rd rs1 rs2) s = .next t ∧ State.FailsWith s t .uninitializedKey)

/-- R90: `(c^k) mod n²` for `k ≥ 0`; `UninitializedKeyError` is checked first, then `InvalidConstantError`. -/
def Obligations.HscaleRaisesCiphertexts : Prop :=
  ∀ (rd rs1 rs2 : Reg) (s : State), s.key.Inv s.config.bound →
    (s.key.ready = true → 0 ≤ s.val rs2 → ∃ t, exec (.hscale rd rs1 rs2) s = .next t ∧ State.SucceedsInto s t [rd] ∧
      t.Holds rd ((s.val rs1 ^ (s.val rs2).toNat).fmod s.key.nsq) ∧ 0 ≤ t.val rd ∧ t.val rd < s.key.nsq) ∧
    (s.key.ready = false → ∃ t, exec (.hscale rd rs1 rs2) s = .next t ∧ State.FailsWith s t .uninitializedKey) ∧
    (s.key.ready = true → s.val rs2 < 0 →
      ∃ t, exec (.hscale rd rs1 rs2) s = .next t ∧ State.FailsWith s t .invalidConstant)

/-- R87: a ready key changes only by reset; an absent key becomes ready only by the completion of a LOADKEY, which
succeeds; LOADKEY on a ready key and HADD and HSCALE on an absent key fail. -/
def Obligations.KeySlotHasTwoStates : Prop :=
  (∀ s t : State, step s = .next t → s.key.ready = true →
    t.key = s.key ∨ (s.inputs.head? = some .reset ∧ t.key = KeySlot.absent)) ∧
  (∀ s t : State, step s = .next t → s.key.ready = false → t.key ≠ s.key →
    (s.inputs.head? = some .reset ∧ t.key = KeySlot.absent) ∨
      ∃ w rs1, s.pend = some w ∧ decode w = some (.loadkey rs1) ∧ t.Succeeded ∧ t.key.ready = true ∧
        2 ≤ s.val rs1 ∧ (t.key.n : Int) = s.val rs1) ∧
  (∀ (rd rs1 rs2 : Reg) (s : State), s.key.ready = false →
    (∃ t, exec (.hadd rd rs1 rs2) s = .next t ∧ State.FailsWith s t .uninitializedKey) ∧
    (∃ t, exec (.hscale rd rs1 rs2) s = .next t ∧ State.FailsWith s t .uninitializedKey)) ∧
  (∀ (rs1 : Reg) (s : State), s.key.ready = true →
    ∃ t, exec (.loadkey rs1) s = .next t ∧ State.FailsWith s t .keyLocked)

/-! ## Compositions of commands -/

/-- R92: the commands of a host's `encrypt` compute `gcd(r, n)` and `c = (g^m mod n²) * (r^n mod n²) mod n²`. -/
def Obligations.EncryptCompositionComputesTheCiphertext : Prop :=
  ∀ (rT rR rN rG rM rA rB rC : Reg) (s : State), [rT, rR, rN, rG, rM, rA, rB, rC].Nodup → s.Inv →
    s.key.ready = true → s.val rN = s.key.n → s.val rG = s.key.g → 0 ≤ s.val rM →
    ∃ t, execAll [.gcd rT rR rN, .hscale rA rG rM, .hscale rB rR rN, .hadd rC rA rB] s = .next t ∧ t.Succeeded ∧
      t.Holds rT (Int.gcd (s.val rR) (s.val rN)) ∧
      t.Holds rC (((((s.key.n : Int) + 1) ^ (s.val rM).toNat).fmod s.key.nsq
        * ((s.val rR ^ s.key.n).fmod s.key.nsq)).fmod s.key.nsq) ∧
      (∀ r, r ∉ [rT, rA, rB, rC] → t.reg r = s.reg r) ∧ t.key = s.key

/-- R94, round trip: what the commands of R92 encrypt, the commands of R93 decrypt. -/
def Obligations.PaillierRoundTrip : Prop :=
  ∀ (p q n lambda mu m r : Nat) (rM rR rN rG rLam rNsq rA rB rC rU : Reg) (s : State),
    PaillierKey p q n lambda mu → s.Inv → s.HasKey n → m < n → Nat.Coprime r n →
    [rM, rR, rN, rG, rLam, rNsq, rA, rB, rC, rU].Nodup →
    s.val rM = m → s.val rR = r → s.val rN = n → s.val rG = (n : Int) + 1 → s.val rLam = lambda →
    s.val rNsq = (n : Int) * n →
    ∃ t u, execAll [.hscale rA rG rM, .hscale rB rR rN, .hadd rC rA rB, .modexp rU rC rLam rNsq] s = .next t ∧
      t.Succeeded ∧ t.Holds rU u ∧ DecryptsTo n mu u m

/-- R94, homomorphic addition: HADD of two encryptions decrypts to the sum modulo `n`. -/
def Obligations.PaillierAdditionLaw : Prop :=
  ∀ (p q n lambda mu a b ra rb : Nat) (rA rB rC rLam rNsq rU : Reg) (s : State),
    PaillierKey p q n lambda mu → s.Inv → s.HasKey n → Nat.Coprime ra n → Nat.Coprime rb n →
    [rA, rB, rC, rLam, rNsq, rU].Nodup →
    IsEncryption n a ra (s.val rA) → IsEncryption n b rb (s.val rB) → s.val rLam = lambda →
    s.val rNsq = (n : Int) * n →
    ∃ t u, execAll [.hadd rC rA rB, .modexp rU rC rLam rNsq] s = .next t ∧ t.Succeeded ∧ t.Holds rU u ∧
      DecryptsTo n mu u ((a + b) % n)

/-- R94, homomorphic scaling: HSCALE of an encryption by `k ≥ 0` decrypts to the product modulo `n`. -/
def Obligations.PaillierScalingLaw : Prop :=
  ∀ (p q n lambda mu a k ra : Nat) (rA rK rC rLam rNsq rU : Reg) (s : State),
    PaillierKey p q n lambda mu → s.Inv → s.HasKey n → Nat.Coprime ra n →
    [rA, rK, rC, rLam, rNsq, rU].Nodup →
    IsEncryption n a ra (s.val rA) → s.val rK = k → s.val rLam = lambda → s.val rNsq = (n : Int) * n →
    ∃ t u, execAll [.hscale rC rA rK, .modexp rU rC rLam rNsq] s = .next t ∧ t.Succeeded ∧ t.Holds rU u ∧
      DecryptsTo n mu u (a * k % n)

/-! ## The bus -/

/-- R41: the refused accesses are exactly those with one of the seven causes, and each does exactly what R41 says;
no other access sets ACCERR; writes of read-only registers and of res0 bits are ignored; every access that reaches the
block completes. -/
def Obligations.AccessesAreRefusedExactlyForTheListedCauses : Prop :=
  (∀ (s : State) (size : AccessSize) (off : Nat) (op : BusOp), off < 0x4000 →
    (RefusalCause s size off op →
      (∀ v, op = .write v → s.serve size off op = afterRefusedWrite s) ∧
      (op = .read → s.serve size off op = afterRefusedRead s)) ∧
    (¬RefusalCause s size off op →
      (op = .read → ∃ v, s.serve size off op = { s with readData := v }) ∧
      (∀ v, op = .write v → off = 0x000 ∨ off = 0x004 ∨ off = 0x01C → s.serve size off op = s) ∧
      (∀ v, op = .write v → off ≠ 0x00C → (s.serve size off op).status.accerr = s.status.accerr))) ∧
  (∀ s : State, s.serve .w32 0x020 .read = { s with readData := 0x00000000#32 }) ∧
  (∀ (s : State) (v v' : Word),
    (v.toNat % 2 = v'.toNat % 2 →
      s.serve .w32 0x008 (.write v) = s.serve .w32 0x008 (.write v') ∧
      s.serve .w32 0x018 (.write v) = s.serve .w32 0x018 (.write v')) ∧
    (v.toNat % 32 = v'.toNat % 32 →
      s.serve .w32 0x014 (.write v) = s.serve .w32 0x014 (.write v') ∧
      s.serve .w32 0x020 (.write v) = s.serve .w32 0x020 (.write v')) ∧
    (v.toNat / 2 % 2 = v'.toNat / 2 % 2 → v.toNat / 16 % 4 = v'.toNat / 16 % 4 →
      s.serve .w32 0x00C (.write v) = s.serve .w32 0x00C (.write v'))) ∧
  (∀ (s : State) (a : Access), s.config.base ≤ a.addr → a.addr < s.config.base + 0x4000 →
    ∃ t, busAccess a s = .next t)

/-- R43: a read of a defined register has no side effect: it changes the bus port only, and repeated it gives the same. -/
def Obligations.ServedReadsHaveNoSideEffect : Prop :=
  ∀ (s : State) (size : AccessSize) (off : Nat), off < 0x4000 → ¬RefusalCause s size off .read →
    ∃ v, s.serve size off .read = { s with readData := v } ∧
      (s.serve size off .read).serve size off .read = s.serve size off .read

/-- R40: while busy, the window, SIGN and REGCLR writes are refused, a CMD write sets OVR only, the other registers are
served as ever, and no access observes or changes a big register, the key slot or the command in flight. -/
def Obligations.BusyEngineShieldsItsRegisters : Prop :=
  ∀ s : State, s.pend ≠ none →
    (∀ i, i ≤ 2047 → s.serve .w32 (0x1000 + 4 * i) .read = afterRefusedRead s ∧
      ∀ v, s.serve .w32 (0x1000 + 4 * i) (.write v) = afterRefusedWrite s) ∧
    (s.serve .w32 0x018 .read = afterRefusedRead s ∧
      ∀ v, s.serve .w32 0x018 (.write v) = afterRefusedWrite s ∧ s.serve .w32 0x020 (.write v) = afterRefusedWrite s ∧
        s.serve .w32 0x010 (.write v) = { s with status := { s.status with ovr := true } }) ∧
    (s.serve .w32 0x000 .read = { s with readData := 0x4D455850#32 } ∧
      s.serve .w32 0x004 .read = { s with readData := s.paramWord } ∧
      s.serve .w32 0x008 .read = { s with readData := s.ctrlWord } ∧
      s.serve .w32 0x00C .read = { s with readData := s.statusWord } ∧
      s.serve .w32 0x010 .read = { s with readData := s.cmd } ∧
      s.serve .w32 0x014 .read = { s with readData := s.selWord } ∧
      s.serve .w32 0x01C .read = { s with readData := s.keyInfoWord }) ∧
    (∀ v : Word, s.serve .w32 0x008 (.write v) = { s with ie := v.getLsbD 0 } ∧
      s.serve .w32 0x00C (.write v) = s.acknowledge v ∧
      (s.serve .w32 0x014 (.write v)).sel.toNat = v.toNat % 32) ∧
    (∀ size off op, off < 0x4000 →
      (s.serve size off op).br = s.br ∧ (s.serve size off op).key = s.key ∧
      (s.serve size off op).pend = s.pend ∧ (s.serve size off op).cmd = s.cmd ∧
      ∀ br, ({ s with br := br } : State).serve size off op = { s.serve size off op with br := br })

/-- R39: the window, limb by limb. A read returns bits `[32i+31:32i]` of the selected magnitude; a write replaces
exactly those bits of a selected big register; every other window access is refused. -/
def Obligations.WindowReadsAndWritesOneLimb : Prop :=
  ∀ (s : State) (i : Nat), i ≤ 2047 →
    (s.pend = none → i < s.config.limbs →
      (∀ r : Reg, s.sel.toNat = r.val →
        (s.serve .w32 (0x1000 + 4 * i) .read).readData.toNat = (s.reg r).mag / 2 ^ (32 * i) % 2 ^ 32 ∧
        ∀ v : Word, ∃ b : BigReg, s.serve .w32 (0x1000 + 4 * i) (.write v) = s.setReg r b ∧ b.sign = (s.reg r).sign ∧
          ∀ j, b.mag.testBit j =
            if 32 * i ≤ j ∧ j < 32 * i + 32 then v.getLsbD (j - 32 * i) else (s.reg r).mag.testBit j) ∧
      (s.sel.toNat = 16 →
        (s.serve .w32 (0x1000 + 4 * i) .read).readData.toNat = s.key.n / 2 ^ (32 * i) % 2 ^ 32) ∧
      (s.sel.toNat = 17 →
        (s.serve .w32 (0x1000 + 4 * i) .read).readData.toNat = s.key.nsq / 2 ^ (32 * i) % 2 ^ 32) ∧
      (s.sel.toNat = 18 →
        (s.serve .w32 (0x1000 + 4 * i) .read).readData.toNat = s.key.g / 2 ^ (32 * i) % 2 ^ 32)) ∧
    (s.pend ≠ none ∨ s.config.limbs ≤ i ∨ 19 ≤ s.sel.toNat →
      s.serve .w32 (0x1000 + 4 * i) .read = afterRefusedRead s) ∧
    (s.pend ≠ none ∨ s.config.limbs ≤ i ∨ 16 ≤ s.sel.toNat →
      ∀ v, s.serve .w32 (0x1000 + 4 * i) (.write v) = afterRefusedWrite s)

/-- R38: the byte view is little-endian, and the window's bytes, in rising address order, are the little-endian byte
string of the selected magnitude. -/
def Obligations.WindowBytesAreLittleEndian : Prop :=
  (∀ (s : State) (off k : Nat) (w : Word), off % 4 = 0 → k < 4 → s.peek (locate off) = some w →
    ∃ b, s.byteAt (off + k) = some b ∧ b.toNat = w.toNat / 2 ^ (8 * k) % 2 ^ 8) ∧
  ∀ (s : State) (r : Reg) (j : Nat), s.config.limbs ≤ 2048 → s.pend = none → s.sel.toNat = r.val →
    j < 4 * s.config.limbs →
    ∃ b, s.byteAt (0x1000 + j) = some b ∧ b.toNat = (s.reg r).mag / 256 ^ j % 256

/-- R27: SIGN shows and sets the sign of the selected register. -/
def Obligations.SignRegisterShowsTheSelectedSign : Prop :=
  ∀ s : State,
    (s.pend = none →
      (∀ r : Reg, s.sel.toNat = r.val →
        s.serve .w32 0x018 .read = { s with readData := if (s.reg r).sign then 0x00000001#32 else 0x00000000#32 } ∧
        ∀ v : Word, s.serve .w32 0x018 (.write v) = s.setReg r { sign := v.getLsbD 0, mag := (s.reg r).mag }) ∧
      (16 ≤ s.sel.toNat → s.sel.toNat ≤ 18 → s.serve .w32 0x018 .read = { s with readData := 0x00000000#32 })) ∧
    (16 ≤ s.sel.toNat → ∀ v, s.serve .w32 0x018 (.write v) = afterRefusedWrite s) ∧
    (19 ≤ s.sel.toNat → s.serve .w32 0x018 .read = afterRefusedRead s) ∧
    (s.pend ≠ none → s.serve .w32 0x018 .read = afterRefusedRead s ∧
      ∀ v, s.serve .w32 0x018 (.write v) = afterRefusedWrite s)

/-- R29: REGCLR clears the register its low five bits name; other numbers and a busy engine refuse; reads return 0. -/
def Obligations.RegclrClearsOneRegister : Prop :=
  ∀ (s : State) (v : Word),
    (s.pend = none → ∀ r : Reg, v.toNat % 32 = r.val →
      s.serve .w32 0x020 (.write v) = s.setReg r { sign := false, mag := 0 }) ∧
    (16 ≤ v.toNat % 32 ∨ s.pend ≠ none → s.serve .w32 0x020 (.write v) = afterRefusedWrite s) ∧
    s.serve .w32 0x020 .read = { s with readData := 0x00000000#32 }

/-- R24: STATUS, field by field; what writing it does, idle or busy; what issue and completion do to its fields; a
dropped CMD write sets OVR and every access with a cause of refusal sets ACCERR, and neither touches another field. -/
def Obligations.StatusFieldsAndWriteOneToClear : Prop :=
  (∀ s : State, s.statusWord.toNat =
    (if s.pend = none then 0 else 1) + (if s.status.done then 2 else 0) + (if s.status.err then 4 else 0)
      + (if s.key.ready then 8 else 0) + (if s.status.ovr then 16 else 0) + (if s.status.accerr then 32 else 0)
      + 256 * s.status.errcode.toNat) ∧
  (∀ s : State, s.serve .w32 0x00C .read = { s with readData := s.statusWord }) ∧
  (∀ (s : State) (v : Word), s.serve .w32 0x00C (.write v) =
    { s with status := { s.status with
      done := if v.toNat / 2 % 2 = 1 then false else s.status.done
      ovr := if v.toNat / 16 % 2 = 1 then false else s.status.ovr
      accerr := if v.toNat / 32 % 2 = 1 then false else s.status.accerr } }) ∧
  (∀ (s : State) (w : Word), s.pend = none →
    let t := s.serve .w32 0x010 (.write w)
    t.pend ≠ none ∧ t.status = { s.status with done := false, err := false, errcode := 0x00#8 }) ∧
  (∀ (s : State) (w : Word), s.pend = some w →
    ∃ t, engineStep s = .next t ∧ t.pend = none ∧ t.status.done = true ∧
      (t.status.err = false ∧ t.status.errcode = 0x00#8 ∨ t.status.err = true ∧ t.status.errcode ≠ 0x00#8) ∧
      t.status.ovr = s.status.ovr ∧ t.status.accerr = s.status.accerr) ∧
  (∀ (s : State) (w : Word), s.pend ≠ none → (s.serve .w32 0x010 (.write w)).status = { s.status with ovr := true }) ∧
  (∀ (s : State) (size : AccessSize) (off : Nat) (op : BusOp), off < 0x4000 → RefusalCause s size off op →
    (s.serve size off op).status = { s.status with accerr := true }) ∧
  State.reset.statusWord = 0x00000000#32

/-- R21, R22, R23, R26: ID, PARAM, CTRL and SEL, whether the engine is idle or busy. -/
def Obligations.IdParamCtrlSelFields : Prop :=
  ∀ (s : State) (v : Word),
    (s.serve .w32 0x000 .read).readData = 0x4D455850#32 ∧ s.serve .w32 0x000 (.write v) = s ∧
    (s.config.wf = true → (s.serve .w32 0x004 .read).readData.toNat = s.config.limbs + 16 * 2 ^ 16 + 1 * 2 ^ 24) ∧
    s.serve .w32 0x004 (.write v) = s ∧
    (s.serve .w32 0x008 .read).readData.toNat = (if s.ie then 1 else 0) ∧
    s.serve .w32 0x008 (.write v) = { s with ie := decide (v.toNat % 2 = 1) } ∧
    (s.serve .w32 0x014 .read).readData.toNat = s.sel.toNat ∧
    s.serve .w32 0x014 (.write v) = { s with sel := BitVec.ofNat 5 v.toNat } ∧
    s.irq = (s.status.done && s.ie) ∧ State.reset.ctrlWord = 0x00000000#32 ∧ State.reset.selWord = 0x00000000#32 ∧
    State.reset.paramWord = 0x01100080#32

/-- R28: KEYINFO in every state the invariant allows: NBITLEN is the bit length of `KEY.N`, at most `W/2`, 0 while
absent; READY is bit 31. -/
def Obligations.KeyinfoShowsTheModulusLength : Prop :=
  ∀ s : State, s.Inv →
    (s.serve .w32 0x01C .read).readData.toNat = Nat.size s.key.n + (if s.key.ready then 2 ^ 31 else 0) ∧
    Nat.size s.key.n ≤ 16 * s.config.limbs ∧ (s.key.ready = false → Nat.size s.key.n = 0) ∧
    (∀ v, s.serve .w32 0x01C (.write v) = s) ∧ State.reset.keyInfoWord = 0x00000000#32

/-! ## Host pseudo-operations -/

/-- R61, R117: `setreg ri, v` leaves `v` in `ri`, in canonical form and with no stale limb, and changes nothing else but
SEL. -/
def Obligations.SetregLeavesTheValue : Prop :=
  ∀ (s : State) (i : Reg) (v : Int), s.config.wf = true → s.pend = none → v.natAbs < s.config.bound →
    ∃ t, feed (setregOp s.config i v) s = .next ([], t) ∧ t.Holds i v ∧ t.sel.toNat = i.val ∧
      (∀ r, r ≠ i → t.reg r = s.reg r) ∧ t.config = s.config ∧ t.key = s.key ∧ t.ie = s.ie ∧ t.status = s.status ∧
      t.cmd = s.cmd ∧ t.pend = none ∧ t.readData = s.readData ∧ t.source = s.source

/-- R61: `getreg ri` gives the host the register's value, `getkey j` the key field's; neither changes anything but SEL
and the bus port. -/
def Obligations.GetregGivesTheValue : Prop :=
  ∀ s : State, s.config.wf = true → s.pend = none →
    (∀ i : Reg, s.InRange → ∃ ws t, feed (getregOp s.config i) s = .next (ws, t) ∧ hostInteger ws = s.val i ∧
      t.br = s.br ∧ t.key = s.key ∧ t.status = s.status ∧ t.cmd = s.cmd ∧ t.ie = s.ie ∧ t.pend = none) ∧
    (∀ j : Fin 3, s.key.Inv s.config.bound → ∃ ws t, feed (getkeyOp s.config j) s = .next (ws, t) ∧
      hostInteger ws = ([s.key.n, s.key.nsq, s.key.g][j.val]'j.isLt : Nat) ∧
      t.br = s.br ∧ t.key = s.key ∧ t.status = s.status ∧ t.cmd = s.cmd ∧ t.ie = s.ie ∧ t.pend = none)

/-- R61, R115: `run word` issues the word, polls while STATUS shows BUSY, and then reads the STATUS of the completed
command twice. The number of polls is the model's parameter (log 23). -/
def Obligations.RunReadsTheCompletedStatus : Prop :=
  ∀ (s : State) (w : Word) (polls : Nat), s.pend = none →
    ∃ u t, engineStep (s.issue w) = .next u ∧
      feed (runOp s.config w polls) s =
        .next (List.replicate polls (s.issue w).statusWord ++ [u.statusWord, u.statusWord], t) ∧
      (s.issue w).statusWord.toNat % 2 = 1 ∧ u.statusWord.toNat % 2 = 0 ∧ u.statusWord.toNat / 2 % 2 = 1 ∧
      t.br = u.br ∧ t.key = u.key ∧ t.status = u.status ∧ t.pend = none

/-- R44: a list of inputs placed in State is served one after the other, first thing first: the steps of the machine
lead to the state that serving them one by one gives. -/
def Obligations.InputsAreServedInOrder : Prop :=
  ∀ (l rest : List Input) (s t : State) (ws : List Word), feed l s = .next (ws, t) →
    Host.Core.run core l.length (s.withInputs (l ++ rest)) = .next (t.withInputs rest)

/-! ## Registers, interrupt, reset -/

/-- R18: a big register changes only by the completion of a command that names it as a destination, by an idle host's
write of the window, SIGN or REGCLR, or by reset. -/
def Obligations.RegistersChangeOnlyByCommandHostOrReset : Prop :=
  ∀ (s t : State) (r : Reg), step s = .next t → t.reg r ≠ s.reg r →
    (∃ w i, s.pend = some w ∧ decode w = some i ∧ r ∈ i.dests ∧ t.Succeeded) ∨
    (s.pend = none ∧ ∃ off v, s.inputs.head? = some (.access { addr := s.config.base + off, size := .w32, op := .write v }) ∧
      (inWindow off ∨ off = 0x018 ∨ off = 0x020)) ∨
    s.inputs.head? = some .reset

/-- R31, R99: IRQ is DONE AND IE, and the platform sees it by IRQ_ROUTE; every completion, and nothing else, sets DONE;
writing 1 to DONE or issuing the next command lowers it; clearing IE masks it and keeps DONE; ACCERR and OVR never drive it. -/
def Obligations.IrqFollowsCompletion : Prop :=
  (∀ s : State, s.irq = (s.status.done && s.ie)) ∧
  (∀ s : State, s.irqDelivered = if s.irq then some s.config.irqRoute else none) ∧
  (∀ (s : State) (w : Word), s.pend = some w → ∃ t, engineStep s = .next t ∧ t.status.done = true ∧ t.irq = s.ie) ∧
  (∀ s t : State, step s = .next t → s.status.done = false → t.status.done = true → s.pend ≠ none ∧ t.pend = none) ∧
  (∀ (s : State) (v : Word), v.toNat / 2 % 2 = 1 → (s.serve .w32 0x00C (.write v)).irq = false) ∧
  (∀ (s : State) (w : Word), s.pend = none → (s.serve .w32 0x010 (.write w)).irq = false) ∧
  (∀ (s : State) (v : Word), v.toNat % 2 = 0 →
    (s.serve .w32 0x008 (.write v)).irq = false ∧ (s.serve .w32 0x008 (.write v)).status.done = s.status.done) ∧
  (∀ (s : State) (size : AccessSize) (off : Nat) (op : BusOp), off < 0x4000 → RefusalCause s size off op →
    (s.serve size off op).irq = s.irq) ∧
  (∀ (s : State) (w : Word), s.pend ≠ none → (s.serve .w32 0x010 (.write w)).irq = s.irq)

/-- R34, R110, R111: a reset, whatever is in flight, leaves every piece of state at its reset value. That it keeps the
parameters, the inputs and the witness source is the model's (log 15), so this statement is a derived one. -/
def Obligations.ResetGivesEveryResetValue : Prop :=
  (∀ (s : State) (rest : List Input), s.inputs = .reset :: rest →
    ∃ t, step s = .next t ∧ (∀ r : Reg, t.reg r = { sign := false, mag := 0 }) ∧
      t.key = { n := 0, nsq := 0, g := 0, ready := false } ∧ t.ctrlWord = 0x00000000#32 ∧
      t.statusWord = 0x00000000#32 ∧ t.cmd = 0x00000000#32 ∧ t.selWord = 0x00000000#32 ∧
      t.keyInfoWord = 0x00000000#32 ∧ t.pend = none ∧ t.irq = false ∧ t.config = s.config ∧
      t.paramWord = s.paramWord ∧ (t.serve .w32 0x000 .read).readData = 0x4D455850#32 ∧
      t.inputs = rest ∧ t.source = s.source) ∧
  ((∀ r : Reg, State.reset.reg r = { sign := false, mag := 0 }) ∧
    State.reset.key = { n := 0, nsq := 0, g := 0, ready := false } ∧ State.reset.ctrlWord = 0x00000000#32 ∧
    State.reset.statusWord = 0x00000000#32 ∧ State.reset.cmd = 0x00000000#32 ∧ State.reset.selWord = 0x00000000#32 ∧
    State.reset.keyInfoWord = 0x00000000#32 ∧ State.reset.pend = none ∧ State.reset.irq = false ∧
    State.reset.paramWord = 0x01100080#32)

/-! ## Invariants and whole runs -/

/-- The invariant holds after reset, for every configuration R5 and R6 allow. -/
def Obligations.ResetSatisfiesTheInvariant : Prop :=
  State.reset.Inv ∧ ∀ c : Config, c.wf = true → (State.resetWith c).Inv

/-- Every step keeps the invariant: magnitudes below `2^W`, a coherent key slot, ERR and ERRCODE agreeing, ERRCODE a
produced code, DONE and ERR clear while busy, CMD the word in flight. -/
def Obligations.EveryStepKeepsTheInvariant : Prop :=
  ∀ s t : State, s.Inv → step s = .next t → t.Inv

/-- No step stops while the inputs address the block, and the rest of them still do; a step that stops is an access to
an address outside the block (log 8). -/
def Obligations.NoStepStopsInsideTheBlock : Prop :=
  (∀ s : State, s.inputsAddressed → ∃ t, step s = .next t ∧ t.inputsAddressed ∧ t.config = s.config ∧
    t.inputs = s.inputs.tail) ∧
  (∀ s : State, (∀ t, step s ≠ .next t) →
    ∃ a rest, s.inputs = .access a :: rest ∧ (a.addr < s.config.base ∨ s.config.base + 0x4000 ≤ a.addr) ∧
      step s = .fault (.outsideBlock a.addr))

/-- R119: a command in flight does not stay in flight: within one step more than the inputs still to come, the block has
been idle (that the engine moves when no input is left is the model's form of weak fairness, log 3). -/
def Obligations.CommandsInFlightComplete : Prop :=
  ∀ s : State, s.inputsAddressed → s.pend ≠ none →
    ∃ k t, 1 ≤ k ∧ k ≤ s.inputs.length + 1 ∧ Host.Core.run core k s = .next t ∧ t.pend = none
end

