-- ==== Sys2Proof/Laws/Arith.lean ====
section
/-! SUPPORT. The arithmetic of the commands computes what the rules say: one lemma per function. -/

namespace Sys2Proof.Machine

/-! ## Floored division and bit length (R12) -/

theorem imod_eq_emod {a b : Int} (h : 0 ≤ b) : imod a b = a % b := Int.fmod_eq_emod_of_nonneg a h

theorem idiv_eq_ediv {a b : Int} (h : 0 ≤ b) : idiv a b = a / b := Int.fdiv_eq_ediv_of_nonneg a h

theorem imod_nonneg (a : Int) {b : Int} (h : 0 < b) : 0 ≤ imod a b := by
  rw [imod_eq_emod h.le]; exact Int.emod_nonneg a h.ne'

theorem imod_lt (a : Int) {b : Int} (h : 0 < b) : imod a b < b := by
  rw [imod_eq_emod h.le]; exact Int.emod_lt_of_pos a h

theorem imod_modEq (a : Int) {b : Int} (h : 0 ≤ b) : imod a b ≡ a [ZMOD b] := by
  rw [imod_eq_emod h]; exact Int.mod_modEq a b

/-- `bitlen` counts the bits: `bitlen a ≤ k` exactly when `abs(a) < 2^k`. -/
theorem bitlen_le_iff (a : Int) (k : Nat) : bitlen a ≤ k ↔ a.natAbs < 2 ^ k := by
  unfold bitlen
  split
  · next h => simp [h]
  · next h =>
    have : a.natAbs ≠ 0 := by simpa using h
    rw [← Nat.log2_lt this]; omega

theorem fitsWidth_iff (w : Nat) (v : Int) : fitsWidth w v = true ↔ v.natAbs < 2 ^ w := by
  simp [fitsWidth, bitlen_le_iff]

theorem fitsWidth_false_iff (w : Nat) (v : Int) : fitsWidth w v = false ↔ 2 ^ w ≤ v.natAbs := by
  rw [← not_iff_not, Bool.not_eq_false, fitsWidth_iff]; omega

/-! ## Modular power -/

theorem powLoop_modEq (fuel b e m acc : Nat) (h : e < 2 ^ fuel) :
    powLoop fuel b e m acc ≡ acc * b ^ e [MOD m] := by
  induction fuel generalizing b e acc with
  | zero =>
    have : e = 0 := by simpa using h
    subst this; simp [powLoop, Nat.ModEq]
  | succ fuel ih =>
    unfold powLoop
    split
    · next he => subst he; simp [Nat.ModEq]
    · next he =>
      have hlt : e / 2 < 2 ^ fuel := by
        rw [Nat.div_lt_iff_lt_mul (by norm_num)]; rw [pow_succ] at h; omega
      refine (ih _ _ _ hlt).trans ?_
      have hb : (b * b % m) ^ (e / 2) ≡ (b * b) ^ (e / 2) [MOD m] := (Nat.mod_modEq _ _).pow _
      split
      · next ho =>
        have : b ^ e = b * (b * b) ^ (e / 2) := by
          conv_lhs => rw [← Nat.div_add_mod e 2, ho]
          rw [pow_succ, pow_mul, ← pow_two]; ring
        rw [this, ← mul_assoc]
        exact (Nat.mod_modEq _ _).mul hb
      · next ho =>
        have : b ^ e = (b * b) ^ (e / 2) := by
          conv_lhs => rw [← Nat.div_add_mod e 2, show e % 2 = 0 by omega]
          rw [add_zero, pow_mul, ← pow_two]
        rw [this]
        exact (Nat.ModEq.refl _).mul hb

theorem powLoop_lt (fuel b e m acc : Nat) (hm : 0 < m) (ha : acc < m) : powLoop fuel b e m acc < m := by
  induction fuel generalizing b e acc with
  | zero => simpa [powLoop]
  | succ fuel ih =>
    unfold powLoop
    split
    · exact ha
    · refine ih _ _ _ ?_
      split
      · exact Nat.mod_lt _ hm
      · exact ha

/-- Square and multiply gives the exact power's residue. -/
theorem natPowMod_eq (b e m : Nat) (hm : 0 < m) : natPowMod b e m = b ^ e % m := by
  have hf : e < 2 ^ bitlen (e : Int) := by
    have := (bitlen_le_iff (e : Int) (bitlen e)).1 le_rfl
    simpa using this
  have h1 : natPowMod b e m < m := powLoop_lt _ _ _ _ _ hm (Nat.mod_lt _ hm)
  have h2 : natPowMod b e m ≡ b ^ e [MOD m] := by
    refine (powLoop_modEq _ _ _ _ _ hf).trans ?_
    simpa using (Nat.mod_modEq 1 m).mul ((Nat.mod_modEq b m).pow e)
  rw [← Nat.mod_eq_of_lt h1]; exact h2

/-- `powMod` is `(b^e) mod m`, exactly (R72). -/
theorem powMod_eq (b : Int) (e : Nat) {m : Int} (hm : 0 < m) : powMod b e m = imod (b ^ e) m := by
  obtain ⟨k, rfl⟩ := Int.eq_ofNat_of_zero_le hm.le
  have hk : 0 < k := by exact_mod_cast hm
  have hb := imod_nonneg b hm
  unfold powMod
  rw [Int.toNat_natCast, natPowMod_eq _ _ _ hk, imod_eq_emod (a := b ^ e) hm.le]
  push_cast
  rw [Int.toNat_of_nonneg hb]
  exact (imod_modEq b hm.le).pow e

/-! ## Extended Euclid (R76) -/

/-- The loop keeps the Bézout relation and the gcd of its pair. -/
theorem egcdLoop_spec (a b : Int) : ∀ (fuel : Nat) (r0 r1 s0 s1 t0 t1 : Int),
    0 ≤ r0 → 0 ≤ r1 → r1 < fuel → r0 = a * s0 + b * t0 → r1 = a * s1 + b * t1 →
    (egcdLoop fuel r0 r1 s0 s1 t0 t1).1 = (Int.gcd r0 r1 : Int) ∧
    a * (egcdLoop fuel r0 r1 s0 s1 t0 t1).2.1 + b * (egcdLoop fuel r0 r1 s0 s1 t0 t1).2.2
      = (egcdLoop fuel r0 r1 s0 s1 t0 t1).1 := by
  intro fuel
  induction fuel with
  | zero => intro r0 r1 _ _ _ _ _ h1 h2; omega
  | succ fuel ih =>
    intro r0 r1 s0 s1 t0 t1 h0 h1 hf e0 e1
    unfold egcdLoop
    split
    · next h => subst h; exact ⟨by simp [abs_of_nonneg h0], e0.symm⟩
    · next h =>
      have hpos : 0 < r1 := by omega
      have hq : r0 - idiv r0 r1 * r1 = r0 % r1 := by
        rw [idiv_eq_ediv h1]; have := Int.emod_add_mul_ediv r0 r1; linarith [mul_comm (r0 / r1) r1]
      have hlt := Int.emod_lt_of_pos r0 hpos
      have hnn := Int.emod_nonneg r0 hpos.ne'
      have := ih r1 (r0 - idiv r0 r1 * r1) s1 (s0 - idiv r0 r1 * s1) t1 (t0 - idiv r0 r1 * t1) h1
        (by rw [hq]; exact hnn) (by rw [hq]; push_cast at hf; omega) e1
        (by rw [e0, e1]; ring)
      refine ⟨this.1.trans ?_, this.2⟩
      rw [hq, Int.gcd_comm r1, Int.gcd_emod]

/-- `EgcdCore`: the gcd, with Bézout coefficients for it (R76). -/
theorem egcdCore_spec (a b : Nat) :
    (egcdCore a b).1 = (a.gcd b : Nat) ∧ (a : Int) * (egcdCore a b).2.1 + b * (egcdCore a b).2.2 = (a.gcd b : Nat) := by
  have := egcdLoop_spec a b (b + 1) a b 1 0 0 1 (by simp) (by simp) (by simp) (by ring) (by ring)
  unfold egcdCore
  have h1 : (Int.gcd (a : Int) b) = a.gcd b := by simp
  rw [h1] at this
  exact ⟨this.1, this.2.trans this.1⟩

/-- Opposite signs add up in magnitude. -/
theorem abs_sub_of_opposite {x y q : Int} (hxy : x * y ≤ 0) (hq : 0 ≤ q) : |x - q * y| = |x| + q * |y| := by
  have h : x * (q * y) ≤ 0 := by nlinarith
  rw [← abs_of_nonneg hq, ← abs_mul, abs_of_nonneg hq]
  rcases le_total 0 x with hx | hx <;> rcases le_total 0 (q * y) with hy | hy
  · have : x = 0 ∨ q * y = 0 := by
      rcases eq_or_lt_of_le hx with e | e
      · exact .inl e.symm
      · exact .inr (le_antisymm (by by_contra hc; push Not at hc; nlinarith) hy)
    rcases this with e | e <;> simp [e]
  · rw [abs_of_nonneg hx, abs_of_nonpos hy, abs_of_nonneg (by linarith)]; ring
  · rw [abs_of_nonpos hx, abs_of_nonneg hy, abs_of_nonpos (by linarith)]; ring
  · have : x = 0 ∨ q * y = 0 := by
      rcases eq_or_lt_of_le hx with e | e
      · exact .inl e
      · exact .inr (le_antisymm hy (by by_contra hc; push Not at hc; nlinarith))
    rcases this with e | e <;> simp [e]

/-- The coefficients of the loop stay small (R77, 93 I2): the pairs alternate in sign and
`r0*|t1| + r1*|t0|` is `A`, `r0*|s1| + r1*|s0|` is `B` at every turn. -/
theorem egcdLoop_bound (A B : Int) : ∀ (fuel : Nat) (r0 r1 s0 s1 t0 t1 : Int),
    0 ≤ r0 → 0 ≤ r1 → s0 * s1 ≤ 0 → t0 * t1 ≤ 0 →
    r0 * |t1| + r1 * |t0| = A → r0 * |s1| + r1 * |s0| = B →
    |s0| ≤ max 1 B → |t0| ≤ max 1 A → (r0 = 0 → |s1| ≤ 1 ∧ |t1| ≤ 1) →
    |(egcdLoop fuel r0 r1 s0 s1 t0 t1).2.1| ≤ max 1 B ∧ |(egcdLoop fuel r0 r1 s0 s1 t0 t1).2.2| ≤ max 1 A := by
  intro fuel
  induction fuel with
  | zero => intro r0 r1 s0 s1 t0 t1 _ _ _ _ _ _ hs ht _; exact ⟨hs, ht⟩
  | succ fuel ih =>
    intro r0 r1 s0 s1 t0 t1 h0 h1 hss htt hA hB hs ht hz
    unfold egcdLoop
    split
    · exact ⟨hs, ht⟩
    · next h =>
      have hpos : 0 < r1 := by omega
      have hqe : idiv r0 r1 = r0 / r1 := idiv_eq_ediv h1
      have hq0 : 0 ≤ idiv r0 r1 := by rw [hqe]; exact Int.ediv_nonneg h0 h1
      have hq : r0 - idiv r0 r1 * r1 = r0 % r1 := by
        rw [hqe]; have := Int.emod_add_mul_ediv r0 r1; linarith [mul_comm (r0 / r1) r1]
      have hnn := Int.emod_nonneg r0 hpos.ne'
      have small : ∀ c d C : Int, 0 ≤ r0 → r0 * |c| + r1 * |d| = C → (r0 = 0 → |c| ≤ 1) → |c| ≤ max 1 C := by
        intro c d C _ e hc
        rcases eq_or_lt_of_le h0 with z | z
        · exact le_max_of_le_left (hc z.symm)
        · refine le_max_of_le_right ?_
          have : |c| ≤ r0 * |c| := le_mul_of_one_le_left (abs_nonneg c) z
          have : 0 ≤ r1 * |d| := mul_nonneg h1 (abs_nonneg d)
          linarith
      have opp : ∀ x y : Int, x * y ≤ 0 → y * (x - idiv r0 r1 * y) ≤ 0 := by
        intro x y hxy; nlinarith [mul_nonneg hq0 (mul_self_nonneg y)]
      refine ih r1 _ s1 _ t1 _ h1 (by rw [hq]; exact hnn) (opp _ _ hss) (opp _ _ htt) ?_ ?_
        (small s1 s0 B h0 hB fun z => (hz z).1) (small t1 t0 A h0 hA fun z => (hz z).2) (fun z => absurd z h)
      · rw [abs_sub_of_opposite htt hq0, ← hA]; ring
      · rw [abs_sub_of_opposite hss hq0, ← hB]; ring

/-- The coefficients of `EgcdCore(A, B)`: `|x0| ≤ max(1, B)` and `|y0| ≤ max(1, A)` (R77). -/
theorem egcdCore_bound (a b : Nat) :
    |(egcdCore a b).2.1| ≤ max 1 (b : Int) ∧ |(egcdCore a b).2.2| ≤ max 1 (a : Int) := by
  unfold egcdCore
  exact egcdLoop_bound a b _ _ _ _ _ _ _ (by simp) (by simp) (by simp) (by simp) (by simp) (by simp) (by simp) (by simp)
    (by simp)

/-! ## Modular inverse (R78) and Montgomery (R73) -/

theorem igcd_eq (a b : Int) : igcd a b = (Int.gcd a b : Int) := rfl

/-- `invMod a m` lies in `[0, m)`. -/
theorem invMod_range (a : Int) {m : Int} (hm : 0 < m) : 0 ≤ invMod a m ∧ invMod a m < m :=
  ⟨imod_nonneg _ hm, imod_lt _ hm⟩

/-- `invMod a m` is an inverse of `a` modulo `m` when `gcd(a, m) = 1`. -/
theorem invMod_modEq (a : Int) {m : Int} (hm : 0 < m) (h : Int.gcd a m = 1) : a * invMod a m ≡ 1 [ZMOD m] := by
  have hx := (egcdCore_spec (imod a m).toNat m.toNat).2
  have hg : (imod a m).toNat.gcd m.toNat = 1 := by
    have h1 : Int.gcd (imod a m) m = 1 := by rw [imod_eq_emod hm.le, Int.gcd_emod]; exact h
    have h2 : (imod a m).natAbs = (imod a m).toNat := by have := imod_nonneg a hm; omega
    have h3 : m.natAbs = m.toNat := by omega
    rwa [Int.gcd, h2, h3] at h1
  rw [hg, Int.toNat_of_nonneg (imod_nonneg a hm), Int.toNat_of_nonneg hm.le] at hx
  have h2 : imod a m * (egcdCore (imod a m).toNat m.toNat).2.1 ≡ 1 [ZMOD m] := by
    rw [Int.modEq_iff_dvd]; exact ⟨(egcdCore (imod a m).toNat m.toNat).2.2, by push_cast at hx; linarith⟩
  exact ((imod_modEq a hm.le).symm.mul (imod_modEq _ hm.le)).trans h2

/-- Any `x` in `[0, m)` with `(a*x) mod m = 1 mod m` is `invMod a m`: the inverse is unique (R73, R78). -/
theorem eq_invMod {a x m : Int} (hm : 0 < m) (h : Int.gcd a m = 1) (h0 : 0 ≤ x) (hlt : x < m)
    (hx : a * x ≡ 1 [ZMOD m]) : x = invMod a m := by
  have hi := invMod_modEq a hm h
  have hr := invMod_range a hm
  have : x ≡ invMod a m [ZMOD m] := by
    calc x = 1 * x := (one_mul x).symm
      _ ≡ a * invMod a m * x [ZMOD m] := hi.symm.mul_right x
      _ = invMod a m * (a * x) := by ring
      _ ≡ invMod a m * 1 [ZMOD m] := hx.mul_left _
      _ = invMod a m := mul_one _
  rw [← Int.emod_eq_of_lt h0 hlt, ← Int.emod_eq_of_lt hr.1 hr.2]; exact this

/-- `R` is coprime to an odd modulus. -/
theorem gcd_montR {n : Int} (hodd : n % 2 = 1) : Int.gcd (montR n) n = 1 := by
  have h2 : IsCoprime (2 : Int) n := ⟨-(n / 2), 1, by have := Int.emod_add_mul_ediv n 2; linarith⟩
  exact Int.isCoprime_iff_gcd_eq_one.1 (h2.pow_left (m := 32 * montLimbs n))

/-- The Montgomery product is the residue whose product with `R` is `a*b` (R73). -/
theorem montProduct_spec (a b : Int) {n : Int} (hn : 0 < n) (hodd : n % 2 = 1) :
    0 ≤ montProduct a b n ∧ montProduct a b n < n ∧ montProduct a b n * montR n ≡ a * b [ZMOD n] := by
  refine ⟨imod_nonneg _ hn, imod_lt _ hn, ?_⟩
  have hi := invMod_modEq (montR n) hn (gcd_montR hodd)
  calc montProduct a b n * montR n ≡ a * b * invMod (montR n) n * montR n [ZMOD n] :=
        (imod_modEq _ hn.le).mul_right _
    _ = a * b * (montR n * invMod (montR n) n) := by ring
    _ ≡ a * b * 1 [ZMOD n] := hi.mul_left _
    _ = a * b := mul_one _

/-! ## Miller–Rabin (R81) -/

theorem oddPart_spec (fuel d r : Nat) (hd : 0 < d) (hf : d < 2 ^ fuel) :
    d * 2 ^ r = (oddPart fuel d r).1 * 2 ^ (oddPart fuel d r).2 ∧ (oddPart fuel d r).1 % 2 = 1 := by
  induction fuel generalizing d r with
  | zero => simp at hf; omega
  | succ fuel ih =>
    unfold oddPart
    split
    · next he =>
      have := ih (d / 2) (r + 1) (by omega) (by rw [pow_succ] at hf; omega)
      refine ⟨?_, this.2⟩
      rw [← this.1, pow_succ]
      have : d = d / 2 * 2 := by omega
      conv_lhs => rw [this]
      ring
    · next ho => exact ⟨rfl, by omega⟩

/-- `mrDecompose n` is the pair of R81. -/
theorem mrDecompose_spec {n : Nat} (hn : 2 ≤ n) :
    n - 1 = (mrDecompose n).1 * 2 ^ (mrDecompose n).2 ∧ (mrDecompose n).1 % 2 = 1 := by
  have hf : n - 1 < 2 ^ bitlen ((n - 1 : Nat) : Int) := by
    have := (bitlen_le_iff ((n - 1 : Nat) : Int) _).1 le_rfl
    simpa using this
  have := oddPart_spec (bitlen ((n - 1 : Nat) : Int)) (n - 1) 0 (by omega) hf
  simpa [mrDecompose] using this

/-- The pair with `n - 1 = d * 2^r` and `d` odd is unique (R81). -/
theorem odd_mul_two_pow_unique {d d' r r' : Nat} (h : d * 2 ^ r = d' * 2 ^ r') (hd : d % 2 = 1) (hd' : d' % 2 = 1) :
    d = d' ∧ r = r' := by
  rcases lt_trichotomy r r' with hr | hr | hr
  · obtain ⟨k, rfl⟩ := Nat.exists_eq_add_of_lt hr
    have : d = d' * 2 ^ k * 2 := by
      have h2 : 0 < 2 ^ r := by positivity
      apply Nat.eq_of_mul_eq_mul_right h2; rw [h]; ring
    omega
  · subst hr; exact ⟨Nat.eq_of_mul_eq_mul_right (by positivity) h, rfl⟩
  · obtain ⟨k, rfl⟩ := Nat.exists_eq_add_of_lt hr
    have : d' = d * 2 ^ k * 2 := by
      have h2 : 0 < 2 ^ r' := by positivity
      apply Nat.eq_of_mul_eq_mul_right h2; rw [← h]; ring
    omega

theorem mrSquares_iff (k x n : Nat) : mrSquares k x n = true ↔ ∃ j, 1 ≤ j ∧ j ≤ k ∧ x ^ 2 ^ j % n = n - 1 := by
  induction k generalizing x with
  | zero => simp [mrSquares]
  | succ k ih =>
    unfold mrSquares
    have hsq : ∀ j, (x * x % n) ^ 2 ^ j % n = x ^ 2 ^ (j + 1) % n := by
      intro j
      rw [← Nat.pow_mod, ← pow_two, ← pow_mul, ← pow_succ']
    split
    · next h =>
      refine iff_of_true rfl ⟨1, le_rfl, by omega, ?_⟩
      simpa [pow_two] using h
    · next h =>
      rw [ih]
      constructor
      · rintro ⟨j, h1, h2, h3⟩; exact ⟨j + 1, by omega, by omega, by rw [← hsq]; exact h3⟩
      · rintro ⟨j, h1, h2, h3⟩
        rcases Nat.exists_eq_add_of_le h1 with ⟨i, rfl⟩
        rcases Nat.eq_zero_or_pos i with rfl | hi
        · exact absurd (by simpa [pow_two] using h3) h
        · exact ⟨i, hi, by omega, by rw [hsq, add_comm i 1]; exact h3⟩

/-- One round passes exactly when `a^d` is 1 or some `a^(d*2^j)`, `j < r`, is `n - 1` modulo `n` (R81). -/
theorem mrRound_iff {n d r : Nat} (a : Nat) (hn : 3 ≤ n) (hodd : n % 2 = 1) (h : n - 1 = d * 2 ^ r) (hd : d % 2 = 1) :
    mrRound n a = true ↔ a ^ d % n = 1 ∨ ∃ j < r, a ^ (d * 2 ^ j) % n = n - 1 := by
  have hs := mrDecompose_spec (n := n) (by omega)
  have hu := odd_mul_two_pow_unique (hs.1.symm.trans h) hs.2 hd
  have hr : 1 ≤ r := by
    rcases Nat.eq_zero_or_pos r with rfl | hr
    · simp at h; omega
    · exact hr
  have hx : natPowMod a d n = a ^ d % n := natPowMod_eq a d n (by omega)
  have hp : ∀ j, (a ^ d % n) ^ 2 ^ j % n = a ^ (d * 2 ^ j) % n := by
    intro j; rw [← Nat.pow_mod, ← pow_mul]
  unfold mrRound
  simp only [hu.1, hu.2, hx]
  split
  · next hc =>
    refine iff_of_true rfl (hc.imp id fun e => ⟨0, hr, by simpa using e⟩)
  · next hc =>
    rw [mrSquares_iff]
    constructor
    · rintro ⟨j, h1, h2, h3⟩; exact .inr ⟨j, by omega, by rw [← hp]; exact h3⟩
    · rintro (e | ⟨j, h1, h2⟩)
      · exact absurd (.inl e) hc
      · rcases Nat.eq_zero_or_pos j with rfl | hj
        · exact absurd (.inr (by simpa using h2)) hc
        · exact ⟨j, hj, by omega, by rw [hp]; exact h2⟩

/-! ## Limbs (R38, R39) -/

theorem limbOf_toNat (mag i : Nat) : (limbOf mag i).toNat = mag / 2 ^ (32 * i) % 2 ^ 32 := by simp [limbOf]

/-- A written limb reads back. -/
theorem limbOf_withLimb_self (mag i : Nat) (v : Word) : limbOf (withLimb mag i v) i = v := by
  apply BitVec.eq_of_toNat_eq
  rw [limbOf_toNat, withLimb, mul_add, mul_one, pow_add]
  have hp : 0 < 2 ^ (32 * i) := by positivity
  generalize 2 ^ (32 * i) = p at *
  have hv := v.isLt
  have : mag / (p * 2 ^ 32) * (p * 2 ^ 32) + v.toNat * p + mag % p
      = (mag / (p * 2 ^ 32) * 2 ^ 32 + v.toNat) * p + mag % p := by ring
  rw [this, Nat.add_comm, Nat.add_mul_div_right _ _ hp, Nat.div_eq_of_lt (Nat.mod_lt _ hp), Nat.zero_add,
    Nat.add_comm, Nat.add_mul_mod_self_right, Nat.mod_eq_of_lt (by omega)]

/-- A number of `q`-blocks below `c`, with a remainder below `q`, stays below `q * c`. -/
theorem block_lt {q c hi lo : Nat} (h : hi < c) (hlo : lo < q) : hi * q + lo < q * c := by
  calc hi * q + lo < hi * q + q := by omega
    _ = q * (hi + 1) := by ring
    _ ≤ q * c := Nat.mul_le_mul_left q h

/-- A limb write keeps the magnitude below `2^(32*L)` (R17). -/
theorem withLimb_lt {mag i L : Nat} (v : Word) (hi : i < L) (h : mag < 2 ^ (32 * L)) : withLimb mag i v < 2 ^ (32 * L) := by
  have hp : 0 < 2 ^ (32 * i) := by positivity
  have hq : 2 ^ (32 * (i + 1)) = 2 ^ (32 * i) * 2 ^ 32 := by rw [mul_add, mul_one, pow_add]
  have hL : 2 ^ (32 * L) = 2 ^ (32 * (i + 1)) * 2 ^ (32 * (L - (i + 1))) := by
    rw [← pow_add, show 32 * (i + 1) + 32 * (L - (i + 1)) = 32 * L by omega]
  have hlow : v.toNat * 2 ^ (32 * i) + mag % 2 ^ (32 * i) < 2 ^ (32 * (i + 1)) := by
    rw [hq]; exact block_lt v.isLt (Nat.mod_lt mag hp)
  rw [hL] at h ⊢
  unfold withLimb
  rw [add_assoc]
  exact block_lt (Nat.div_lt_of_lt_mul h) hlow

end Sys2Proof.Machine
end

