-- ==== Sys2Proof/Laws/State.lean ====
section
/-! SUPPORT. One lemma per field per update of State, true by unfolding, so that no later proof unfolds a record update;
and the register file's read-after-write laws. -/

namespace Sys2Proof.Machine

/-! ## `State.setReg` -/

@[simp] theorem State.setReg_config (s : State) (i : Reg) (b : BigReg) : (s.setReg i b).config = s.config := rfl
@[simp] theorem State.setReg_br (s : State) (i : Reg) (b : BigReg) : (s.setReg i b).br = s.br.set i.val b i.isLt := rfl
@[simp] theorem State.setReg_key (s : State) (i : Reg) (b : BigReg) : (s.setReg i b).key = s.key := rfl
@[simp] theorem State.setReg_ie (s : State) (i : Reg) (b : BigReg) : (s.setReg i b).ie = s.ie := rfl
@[simp] theorem State.setReg_status (s : State) (i : Reg) (b : BigReg) : (s.setReg i b).status = s.status := rfl
@[simp] theorem State.setReg_cmd (s : State) (i : Reg) (b : BigReg) : (s.setReg i b).cmd = s.cmd := rfl
@[simp] theorem State.setReg_sel (s : State) (i : Reg) (b : BigReg) : (s.setReg i b).sel = s.sel := rfl
@[simp] theorem State.setReg_pend (s : State) (i : Reg) (b : BigReg) : (s.setReg i b).pend = s.pend := rfl
@[simp] theorem State.setReg_readData (s : State) (i : Reg) (b : BigReg) : (s.setReg i b).readData = s.readData := rfl
@[simp] theorem State.setReg_source (s : State) (i : Reg) (b : BigReg) : (s.setReg i b).source = s.source := rfl
@[simp] theorem State.setReg_inputs (s : State) (i : Reg) (b : BigReg) : (s.setReg i b).inputs = s.inputs := rfl

/-! ## `State.issue` -/

@[simp] theorem State.issue_config (s : State) (w : Word) : (s.issue w).config = s.config := rfl
@[simp] theorem State.issue_br (s : State) (w : Word) : (s.issue w).br = s.br := rfl
@[simp] theorem State.issue_key (s : State) (w : Word) : (s.issue w).key = s.key := rfl
@[simp] theorem State.issue_ie (s : State) (w : Word) : (s.issue w).ie = s.ie := rfl
@[simp] theorem State.issue_status (s : State) (w : Word) : (s.issue w).status = s.status.atIssue := rfl
@[simp] theorem State.issue_cmd (s : State) (w : Word) : (s.issue w).cmd = w := rfl
@[simp] theorem State.issue_sel (s : State) (w : Word) : (s.issue w).sel = s.sel := rfl
@[simp] theorem State.issue_pend (s : State) (w : Word) : (s.issue w).pend = some w := rfl
@[simp] theorem State.issue_readData (s : State) (w : Word) : (s.issue w).readData = s.readData := rfl
@[simp] theorem State.issue_source (s : State) (w : Word) : (s.issue w).source = s.source := rfl
@[simp] theorem State.issue_inputs (s : State) (w : Word) : (s.issue w).inputs = s.inputs := rfl

/-! ## `State.raiseError` -/

@[simp] theorem State.raiseError_config (s : State) (e : CmdError) : (s.raiseError e).config = s.config := rfl
@[simp] theorem State.raiseError_br (s : State) (e : CmdError) : (s.raiseError e).br = s.br := rfl
@[simp] theorem State.raiseError_key (s : State) (e : CmdError) : (s.raiseError e).key = s.key := rfl
@[simp] theorem State.raiseError_ie (s : State) (e : CmdError) : (s.raiseError e).ie = s.ie := rfl
@[simp] theorem State.raiseError_status (s : State) (e : CmdError) : (s.raiseError e).status = s.status.atError e := rfl
@[simp] theorem State.raiseError_cmd (s : State) (e : CmdError) : (s.raiseError e).cmd = s.cmd := rfl
@[simp] theorem State.raiseError_sel (s : State) (e : CmdError) : (s.raiseError e).sel = s.sel := rfl
@[simp] theorem State.raiseError_pend (s : State) (e : CmdError) : (s.raiseError e).pend = none := rfl
@[simp] theorem State.raiseError_readData (s : State) (e : CmdError) : (s.raiseError e).readData = s.readData := rfl
@[simp] theorem State.raiseError_source (s : State) (e : CmdError) : (s.raiseError e).source = s.source := rfl
@[simp] theorem State.raiseError_inputs (s : State) (e : CmdError) : (s.raiseError e).inputs = s.inputs := rfl

/-! ## `State.acknowledge` -/

@[simp] theorem State.acknowledge_config (s : State) (v : Word) : (s.acknowledge v).config = s.config := rfl
@[simp] theorem State.acknowledge_br (s : State) (v : Word) : (s.acknowledge v).br = s.br := rfl
@[simp] theorem State.acknowledge_key (s : State) (v : Word) : (s.acknowledge v).key = s.key := rfl
@[simp] theorem State.acknowledge_ie (s : State) (v : Word) : (s.acknowledge v).ie = s.ie := rfl
@[simp] theorem State.acknowledge_status (s : State) (v : Word) : (s.acknowledge v).status = s.status.writeOneToClear v := rfl
@[simp] theorem State.acknowledge_cmd (s : State) (v : Word) : (s.acknowledge v).cmd = s.cmd := rfl
@[simp] theorem State.acknowledge_sel (s : State) (v : Word) : (s.acknowledge v).sel = s.sel := rfl
@[simp] theorem State.acknowledge_pend (s : State) (v : Word) : (s.acknowledge v).pend = s.pend := rfl
@[simp] theorem State.acknowledge_readData (s : State) (v : Word) : (s.acknowledge v).readData = s.readData := rfl
@[simp] theorem State.acknowledge_source (s : State) (v : Word) : (s.acknowledge v).source = s.source := rfl
@[simp] theorem State.acknowledge_inputs (s : State) (v : Word) : (s.acknowledge v).inputs = s.inputs := rfl

/-! ## `State.refuseWrite` -/

@[simp] theorem State.refuseWrite_config (s : State) : (s.refuseWrite).config = s.config := rfl
@[simp] theorem State.refuseWrite_br (s : State) : (s.refuseWrite).br = s.br := rfl
@[simp] theorem State.refuseWrite_key (s : State) : (s.refuseWrite).key = s.key := rfl
@[simp] theorem State.refuseWrite_ie (s : State) : (s.refuseWrite).ie = s.ie := rfl
@[simp] theorem State.refuseWrite_status (s : State) : (s.refuseWrite).status = s.status.setAccerr := rfl
@[simp] theorem State.refuseWrite_cmd (s : State) : (s.refuseWrite).cmd = s.cmd := rfl
@[simp] theorem State.refuseWrite_sel (s : State) : (s.refuseWrite).sel = s.sel := rfl
@[simp] theorem State.refuseWrite_pend (s : State) : (s.refuseWrite).pend = s.pend := rfl
@[simp] theorem State.refuseWrite_readData (s : State) : (s.refuseWrite).readData = s.readData := rfl
@[simp] theorem State.refuseWrite_source (s : State) : (s.refuseWrite).source = s.source := rfl
@[simp] theorem State.refuseWrite_inputs (s : State) : (s.refuseWrite).inputs = s.inputs := rfl

/-! ## `State.refuseRead` -/

@[simp] theorem State.refuseRead_config (s : State) : (s.refuseRead).config = s.config := rfl
@[simp] theorem State.refuseRead_br (s : State) : (s.refuseRead).br = s.br := rfl
@[simp] theorem State.refuseRead_key (s : State) : (s.refuseRead).key = s.key := rfl
@[simp] theorem State.refuseRead_ie (s : State) : (s.refuseRead).ie = s.ie := rfl
@[simp] theorem State.refuseRead_status (s : State) : (s.refuseRead).status = s.status.setAccerr := rfl
@[simp] theorem State.refuseRead_cmd (s : State) : (s.refuseRead).cmd = s.cmd := rfl
@[simp] theorem State.refuseRead_sel (s : State) : (s.refuseRead).sel = s.sel := rfl
@[simp] theorem State.refuseRead_pend (s : State) : (s.refuseRead).pend = s.pend := rfl
@[simp] theorem State.refuseRead_readData (s : State) : (s.refuseRead).readData = 0#32 := rfl
@[simp] theorem State.refuseRead_source (s : State) : (s.refuseRead).source = s.source := rfl
@[simp] theorem State.refuseRead_inputs (s : State) : (s.refuseRead).inputs = s.inputs := rfl

/-! ## `State.dropCommand` -/

@[simp] theorem State.dropCommand_config (s : State) : (s.dropCommand).config = s.config := rfl
@[simp] theorem State.dropCommand_br (s : State) : (s.dropCommand).br = s.br := rfl
@[simp] theorem State.dropCommand_key (s : State) : (s.dropCommand).key = s.key := rfl
@[simp] theorem State.dropCommand_ie (s : State) : (s.dropCommand).ie = s.ie := rfl
@[simp] theorem State.dropCommand_status (s : State) : (s.dropCommand).status = s.status.setOvr := rfl
@[simp] theorem State.dropCommand_cmd (s : State) : (s.dropCommand).cmd = s.cmd := rfl
@[simp] theorem State.dropCommand_sel (s : State) : (s.dropCommand).sel = s.sel := rfl
@[simp] theorem State.dropCommand_pend (s : State) : (s.dropCommand).pend = s.pend := rfl
@[simp] theorem State.dropCommand_readData (s : State) : (s.dropCommand).readData = s.readData := rfl
@[simp] theorem State.dropCommand_source (s : State) : (s.dropCommand).source = s.source := rfl
@[simp] theorem State.dropCommand_inputs (s : State) : (s.dropCommand).inputs = s.inputs := rfl

/-! ## `State.withInputs` -/

@[simp] theorem State.withInputs_config (s : State) (l : List Input) : (s.withInputs l).config = s.config := rfl
@[simp] theorem State.withInputs_br (s : State) (l : List Input) : (s.withInputs l).br = s.br := rfl
@[simp] theorem State.withInputs_key (s : State) (l : List Input) : (s.withInputs l).key = s.key := rfl
@[simp] theorem State.withInputs_ie (s : State) (l : List Input) : (s.withInputs l).ie = s.ie := rfl
@[simp] theorem State.withInputs_status (s : State) (l : List Input) : (s.withInputs l).status = s.status := rfl
@[simp] theorem State.withInputs_cmd (s : State) (l : List Input) : (s.withInputs l).cmd = s.cmd := rfl
@[simp] theorem State.withInputs_sel (s : State) (l : List Input) : (s.withInputs l).sel = s.sel := rfl
@[simp] theorem State.withInputs_pend (s : State) (l : List Input) : (s.withInputs l).pend = s.pend := rfl
@[simp] theorem State.withInputs_readData (s : State) (l : List Input) : (s.withInputs l).readData = s.readData := rfl
@[simp] theorem State.withInputs_source (s : State) (l : List Input) : (s.withInputs l).source = s.source := rfl
@[simp] theorem State.withInputs_inputs (s : State) (l : List Input) : (s.withInputs l).inputs = l := rfl

/-! ## `State.withSource` -/

@[simp] theorem State.withSource_config (s : State) (w : WitnessSource) : (s.withSource w).config = s.config := rfl
@[simp] theorem State.withSource_br (s : State) (w : WitnessSource) : (s.withSource w).br = s.br := rfl
@[simp] theorem State.withSource_key (s : State) (w : WitnessSource) : (s.withSource w).key = s.key := rfl
@[simp] theorem State.withSource_ie (s : State) (w : WitnessSource) : (s.withSource w).ie = s.ie := rfl
@[simp] theorem State.withSource_status (s : State) (w : WitnessSource) : (s.withSource w).status = s.status := rfl
@[simp] theorem State.withSource_cmd (s : State) (w : WitnessSource) : (s.withSource w).cmd = s.cmd := rfl
@[simp] theorem State.withSource_sel (s : State) (w : WitnessSource) : (s.withSource w).sel = s.sel := rfl
@[simp] theorem State.withSource_pend (s : State) (w : WitnessSource) : (s.withSource w).pend = s.pend := rfl
@[simp] theorem State.withSource_readData (s : State) (w : WitnessSource) : (s.withSource w).readData = s.readData := rfl
@[simp] theorem State.withSource_source (s : State) (w : WitnessSource) : (s.withSource w).source = w := rfl
@[simp] theorem State.withSource_inputs (s : State) (w : WitnessSource) : (s.withSource w).inputs = s.inputs := rfl

/-! ## `State.hardReset` -/

@[simp] theorem State.hardReset_config (s : State) : (s.hardReset).config = s.config := rfl
@[simp] theorem State.hardReset_br (s : State) : (s.hardReset).br = Vector.replicate 16 BigReg.zero := rfl
@[simp] theorem State.hardReset_key (s : State) : (s.hardReset).key = KeySlot.absent := rfl
@[simp] theorem State.hardReset_ie (s : State) : (s.hardReset).ie = false := rfl
@[simp] theorem State.hardReset_status (s : State) : (s.hardReset).status = Status.zero := rfl
@[simp] theorem State.hardReset_cmd (s : State) : (s.hardReset).cmd = 0#32 := rfl
@[simp] theorem State.hardReset_sel (s : State) : (s.hardReset).sel = 0#5 := rfl
@[simp] theorem State.hardReset_pend (s : State) : (s.hardReset).pend = none := rfl
@[simp] theorem State.hardReset_readData (s : State) : (s.hardReset).readData = 0#32 := rfl
@[simp] theorem State.hardReset_source (s : State) : (s.hardReset).source = s.source := rfl
@[simp] theorem State.hardReset_inputs (s : State) : (s.hardReset).inputs = s.inputs := rfl

/-! ## `Status.atIssue` -/

@[simp] theorem Status.atIssue_done (t : Status) : (t.atIssue).done = false := rfl
@[simp] theorem Status.atIssue_err (t : Status) : (t.atIssue).err = false := rfl
@[simp] theorem Status.atIssue_ovr (t : Status) : (t.atIssue).ovr = t.ovr := rfl
@[simp] theorem Status.atIssue_accerr (t : Status) : (t.atIssue).accerr = t.accerr := rfl
@[simp] theorem Status.atIssue_errcode (t : Status) : (t.atIssue).errcode = 0x00#8 := rfl

/-! ## `Status.atSuccess` -/

@[simp] theorem Status.atSuccess_done (t : Status) : (t.atSuccess).done = true := rfl
@[simp] theorem Status.atSuccess_err (t : Status) : (t.atSuccess).err = false := rfl
@[simp] theorem Status.atSuccess_ovr (t : Status) : (t.atSuccess).ovr = t.ovr := rfl
@[simp] theorem Status.atSuccess_accerr (t : Status) : (t.atSuccess).accerr = t.accerr := rfl
@[simp] theorem Status.atSuccess_errcode (t : Status) : (t.atSuccess).errcode = 0x00#8 := rfl

/-! ## `Status.atError` -/

@[simp] theorem Status.atError_done (t : Status) (e : CmdError) : (t.atError e).done = true := rfl
@[simp] theorem Status.atError_err (t : Status) (e : CmdError) : (t.atError e).err = true := rfl
@[simp] theorem Status.atError_ovr (t : Status) (e : CmdError) : (t.atError e).ovr = t.ovr := rfl
@[simp] theorem Status.atError_accerr (t : Status) (e : CmdError) : (t.atError e).accerr = t.accerr := rfl
@[simp] theorem Status.atError_errcode (t : Status) (e : CmdError) : (t.atError e).errcode = e.code := rfl

/-! ## `Status.setOvr` -/

@[simp] theorem Status.setOvr_done (t : Status) : (t.setOvr).done = t.done := rfl
@[simp] theorem Status.setOvr_err (t : Status) : (t.setOvr).err = t.err := rfl
@[simp] theorem Status.setOvr_ovr (t : Status) : (t.setOvr).ovr = true := rfl
@[simp] theorem Status.setOvr_accerr (t : Status) : (t.setOvr).accerr = t.accerr := rfl
@[simp] theorem Status.setOvr_errcode (t : Status) : (t.setOvr).errcode = t.errcode := rfl

/-! ## `Status.setAccerr` -/

@[simp] theorem Status.setAccerr_done (t : Status) : (t.setAccerr).done = t.done := rfl
@[simp] theorem Status.setAccerr_err (t : Status) : (t.setAccerr).err = t.err := rfl
@[simp] theorem Status.setAccerr_ovr (t : Status) : (t.setAccerr).ovr = t.ovr := rfl
@[simp] theorem Status.setAccerr_accerr (t : Status) : (t.setAccerr).accerr = true := rfl
@[simp] theorem Status.setAccerr_errcode (t : Status) : (t.setAccerr).errcode = t.errcode := rfl

/-! ## `Status.writeOneToClear` -/

@[simp] theorem Status.writeOneToClear_done (t : Status) (v : Word) : (t.writeOneToClear v).done = (t.done && !v.getLsbD 1) := rfl
@[simp] theorem Status.writeOneToClear_err (t : Status) (v : Word) : (t.writeOneToClear v).err = t.err := rfl
@[simp] theorem Status.writeOneToClear_ovr (t : Status) (v : Word) : (t.writeOneToClear v).ovr = (t.ovr && !v.getLsbD 4) := rfl
@[simp] theorem Status.writeOneToClear_accerr (t : Status) (v : Word) : (t.writeOneToClear v).accerr = (t.accerr && !v.getLsbD 5) := rfl
@[simp] theorem Status.writeOneToClear_errcode (t : Status) (v : Word) : (t.writeOneToClear v).errcode = t.errcode := rfl

/-! ## Registers -/

/-- A register reads back what was written to it, and every other one as before. -/
theorem State.reg_setReg (s : State) (i j : Reg) (b : BigReg) :
    (s.setReg i b).reg j = if j = i then b else s.reg j := by
  by_cases h : j = i
  · subst h; simp [State.reg]
  · have : i.val ≠ j.val := fun e => h (Fin.ext e.symm)
    simp [State.reg, h, this]

@[simp] theorem State.reg_setReg_self (s : State) (i : Reg) (b : BigReg) : (s.setReg i b).reg i = b := by
  simp [State.reg_setReg]

theorem State.reg_setReg_ne (s : State) {i j : Reg} (h : j ≠ i) (b : BigReg) : (s.setReg i b).reg j = s.reg j := by
  simp [State.reg_setReg, h]

/-- Two states with the same register file read the same registers. -/
theorem State.reg_eq_of_br_eq {s t : State} (h : t.br = s.br) (i : Reg) : t.reg i = s.reg i := by
  simp [State.reg, h]

@[simp] theorem State.reg_issue (s : State) (w : Word) (j : Reg) : (s.issue w).reg j = s.reg j := rfl
@[simp] theorem State.val_issue (s : State) (w : Word) (j : Reg) : (s.issue w).val j = s.val j := rfl
@[simp] theorem State.reg_raiseError (s : State) (e : CmdError) (j : Reg) : (s.raiseError e).reg j = s.reg j := rfl
@[simp] theorem State.val_raiseError (s : State) (e : CmdError) (j : Reg) : (s.raiseError e).val j = s.val j := rfl
@[simp] theorem State.reg_acknowledge (s : State) (v : Word) (j : Reg) : (s.acknowledge v).reg j = s.reg j := rfl
@[simp] theorem State.val_acknowledge (s : State) (v : Word) (j : Reg) : (s.acknowledge v).val j = s.val j := rfl
@[simp] theorem State.reg_refuseWrite (s : State) (j : Reg) : (s.refuseWrite).reg j = s.reg j := rfl
@[simp] theorem State.val_refuseWrite (s : State) (j : Reg) : (s.refuseWrite).val j = s.val j := rfl
@[simp] theorem State.reg_refuseRead (s : State) (j : Reg) : (s.refuseRead).reg j = s.reg j := rfl
@[simp] theorem State.val_refuseRead (s : State) (j : Reg) : (s.refuseRead).val j = s.val j := rfl
@[simp] theorem State.reg_dropCommand (s : State) (j : Reg) : (s.dropCommand).reg j = s.reg j := rfl
@[simp] theorem State.val_dropCommand (s : State) (j : Reg) : (s.dropCommand).val j = s.val j := rfl
@[simp] theorem State.reg_withInputs (s : State) (l : List Input) (j : Reg) : (s.withInputs l).reg j = s.reg j := rfl
@[simp] theorem State.val_withInputs (s : State) (l : List Input) (j : Reg) : (s.withInputs l).val j = s.val j := rfl
@[simp] theorem State.reg_withSource (s : State) (w : WitnessSource) (j : Reg) : (s.withSource w).reg j = s.reg j := rfl
@[simp] theorem State.val_withSource (s : State) (w : WitnessSource) (j : Reg) : (s.withSource w).val j = s.val j := rfl

/-- After reset every big register is zero (R34). -/
@[simp] theorem State.reg_hardReset (s : State) (j : Reg) : s.hardReset.reg j = BigReg.zero := by
  simp [State.reg]

@[simp] theorem State.reg_resetWith (c : Config) (j : Reg) : (State.resetWith c).reg j = BigReg.zero := by
  simp [State.reg, State.resetWith]

/-! ## Canonical registers -/

@[simp] theorem BigReg.value_zero : BigReg.zero.value = 0 := rfl

/-- A canonical register has the value it was made from (R13). -/
@[simp] theorem BigReg.value_ofInt (v : Int) : (BigReg.ofInt v).value = v := by
  unfold BigReg.ofInt BigReg.value
  by_cases h : v < 0 <;> simp only [h, decide_true, decide_false, if_true, if_false, Bool.false_eq_true] <;> omega

@[simp] theorem BigReg.mag_ofInt (v : Int) : (BigReg.ofInt v).mag = v.natAbs := rfl

@[simp] theorem BigReg.sign_ofInt (v : Int) : (BigReg.ofInt v).sign = decide (v < 0) := rfl

/-- The magnitude of a register's value is its magnitude field (R17). -/
@[simp] theorem BigReg.natAbs_value (b : BigReg) : b.value.natAbs = b.mag := by
  unfold BigReg.value; split <;> simp

/-- A register of an in-range state has a value of magnitude below `2^W` (R17). -/
theorem State.InRange.natAbs_val_lt {s : State} (h : s.InRange) (i : Reg) : (s.val i).natAbs < s.config.bound := by
  simpa [State.val] using h i

end Sys2Proof.Machine
end

