-- ==== Sys2Proof/Laws/Bus.lean ====
section
/-! SUPPORT. What a bus access can do, said once. -/

namespace Sys2Proof.Machine

/-- A register content that a host write can leave in `BR[r]`: cleared (REGCLR), another sign (SIGN), or another
limb below `L_W` (the window). -/
inductive HostWritten (L : Nat) (old : BigReg) : BigReg → Prop
  | cleared : HostWritten L old BigReg.zero
  | sign (b : Bool) : HostWritten L old { old with sign := b }
  | limb (i : Nat) (v : Word) (h : i < L) : HostWritten L old { old with mag := withLimb old.mag i v }

/-- Everything a served access can do to the state (R36 to R43). -/
inductive Served (s : State) : State → Prop
  /-- A read of a defined register: only the bus port changes (R43). -/
  | read (v : Word) : Served s { s with readData := v }
  | refusedRead : Served s s.refuseRead
  | refusedWrite : Served s s.refuseWrite
  /-- A write of a read-only register (R41). -/
  | ignored : Served s s
  | ctrl (b : Bool) : Served s { s with ie := b }
  | status (v : Word) : Served s (s.acknowledge v)
  | sel (x : BitVec 5) : Served s { s with sel := x }
  | dropped (h : s.busy = true) : Served s s.dropCommand
  | issued (w : Word) (h : s.busy = false) : Served s (s.issue w)
  | register (r : Reg) (b : BigReg) (h : s.busy = false) (hb : HostWritten s.config.limbs (s.reg r) b) :
    Served s (s.setReg r b)

theorem State.served_serveRead (s : State) (l : Location) : Served s (s.serveRead l) := by
  unfold State.serveRead
  split
  · exact .read _
  · exact .refusedRead

theorem State.served_writeLimb {s t : State} {i : Nat} {v : Word} (h : s.writeLimb i v = some t) : Served s t := by
  unfold State.writeLimb at h
  split at h
  · cases h
  · next hb =>
    push Not at hb
    split at h
    · cases h; exact .register _ _ (by simpa using hb.1) (.limb i v hb.2)
    · cases h

theorem State.served_writeSign {s t : State} {v : Word} (h : s.writeSign v = some t) : Served s t := by
  unfold State.writeSign at h
  split at h
  · cases h
  · next hb =>
    split at h
    · cases h; exact .register _ _ (by simpa using hb) (.sign _)
    · cases h

theorem State.served_writeRegClr {s t : State} {v : Word} (h : s.writeRegClr v = some t) : Served s t := by
  unfold State.writeRegClr at h
  split at h
  · cases h
  · next hb =>
    split at h
    · cases h; exact .register _ _ (by simpa using hb) .cleared
    · cases h

theorem State.served_poke {s t : State} {v : Word} {l : Location} (h : s.poke v l = some t) : Served s t := by
  cases l <;> simp only [State.poke, Option.some.injEq, reduceCtorEq] at h
  case sign => exact State.served_writeSign h
  case regClr => exact State.served_writeRegClr h
  case limb i => exact State.served_writeLimb h
  case cmd =>
    subst h; unfold State.writeCmd
    split
    · next hb => exact .dropped hb
    · next hb => exact .issued _ (by simpa using hb)
  all_goals subst h
  · exact .ignored
  · exact .ignored
  · exact .ctrl _
  · exact .status _
  · exact .sel _
  · exact .ignored

theorem State.served_serveWrite (s : State) (v : Word) (l : Location) : Served s (s.serveWrite v l) := by
  unfold State.serveWrite
  split
  · next t h => exact State.served_poke h
  · exact .refusedWrite

/-- Every access at an offset of the register space does one of the things `Served` lists (R37 to R43). -/
theorem State.served_serve (s : State) (size : AccessSize) (off : Nat) (op : BusOp) : Served s (s.serve size off op) := by
  unfold State.serve
  split
  · cases op with
    | read => exact s.served_serveRead _
    | write v => exact s.served_serveWrite v _
  · cases op with
    | read => exact .refusedRead
    | write v => exact .refusedWrite

/-- A register content a host write leaves fits if the old one did (R17). -/
theorem HostWritten.mag_lt {c : Config} {old b : BigReg} (h : HostWritten c.limbs old b) (ho : old.mag < c.bound) :
    b.mag < c.bound := by
  cases h with
  | cleared => exact Nat.two_pow_pos _
  | sign b => exact ho
  | limb i v hi => exact withLimb_lt v hi ho

/-! ## The address map and the selection (R26, R36) -/

/-- Every offset of the window shows a limb (R36, R39). -/
theorem locate_window {off : Nat} (lo : 0x1000 ≤ off) (hi : off < 0x3000) : locate off = .limb ((off - 0x1000) / 4) := by
  have low : ∀ k < 0x1000, off ≠ k := fun k hk => by omega
  simp [locate, low, lo, hi]

theorem locate_limb {i : Nat} (h : i ≤ 2047) : locate (0x1000 + 4 * i) = .limb i := by
  rw [locate_window (by omega) (by omega), Nat.add_sub_cancel_left, Nat.mul_div_cancel_left i (by decide)]

/-- Only the window shows limbs. -/
theorem window_of_locate {off i : Nat} (h : locate off = .limb i) : 0x1000 ≤ off ∧ off < 0x3000 := by
  unfold locate at h
  split_ifs at h
  assumption

theorem eq_of_locate_sign {off : Nat} (h : locate off = .sign) : off = 0x018 := by
  unfold locate at h
  split_ifs at h
  assumption

theorem eq_of_locate_regClr {off : Nat} (h : locate off = .regClr) : off = 0x020 := by
  unfold locate at h
  split_ifs at h
  assumption

theorem selectionOf_big {x : BitVec 5} {r : Reg} (h : x.toNat = r.val) : selectionOf x = .big r := by
  unfold selectionOf
  rw [dif_pos (by omega)]
  congr 1
  exact Fin.ext h

/-- IDX selects a big register, a key field, or nothing (R26). -/
theorem selectionOf_cases (x : BitVec 5) :
    (∃ r : Reg, x.toNat = r.val ∧ selectionOf x = .big r) ∨
      (16 ≤ x.toNat ∧ x.toNat ≤ 18 ∧ (selectionOf x = .keyN ∨ selectionOf x = .keyNsq ∨ selectionOf x = .keyG)) ∨
      (19 ≤ x.toNat ∧ selectionOf x = .nothing) := by
  by_cases h : x.toNat < 16
  · exact .inl ⟨⟨x.toNat, h⟩, rfl, selectionOf_big rfl⟩
  · unfold selectionOf
    rw [dif_neg h]
    split
    · exact .inr (.inl ⟨by omega, by omega, .inl rfl⟩)
    · split
      · exact .inr (.inl ⟨by omega, by omega, .inr (.inl rfl)⟩)
      · split
        · exact .inr (.inl ⟨by omega, by omega, .inr (.inr rfl)⟩)
        · exact .inr (.inr ⟨by omega, rfl⟩)

theorem State.busy_iff (s : State) : s.busy = true ↔ s.pend ≠ none := by
  simp [State.busy, Option.isSome_iff_ne_none]

/-! ## When a window or SIGN access or a REGCLR write is refused (R39, R41) -/

theorem State.readLimb_eq_none_iff (s : State) (i : Nat) :
    s.readLimb i = none ↔ s.pend ≠ none ∨ s.config.limbs ≤ i ∨ 19 ≤ s.sel.toNat := by
  unfold State.readLimb
  simp only [State.busy_iff]
  by_cases hp : s.pend = none <;> by_cases hl : s.config.limbs ≤ i <;> simp only [hp, hl, ne_eq, not_true_eq_false,
    not_false_eq_true, or_true, true_or, if_true, false_or, if_false, or_false]
  rcases selectionOf_cases s.sel with ⟨r, h1, h2⟩ | ⟨h1, h3, h2 | h2 | h2⟩ | ⟨h1, h2⟩ <;>
    simp [State.selectedMag, h2] <;> omega

theorem State.readSign_eq_none_iff (s : State) : s.readSign = none ↔ s.pend ≠ none ∨ 19 ≤ s.sel.toNat := by
  unfold State.readSign
  simp only [State.busy_iff]
  by_cases hp : s.pend = none <;> simp only [hp, ne_eq, not_true_eq_false, not_false_eq_true, true_or, if_true, false_or,
    if_false]
  rcases selectionOf_cases s.sel with ⟨r, h1, h2⟩ | ⟨h1, h3, h2 | h2 | h2⟩ | ⟨h1, h2⟩ <;>
    simp [State.selectedSign, h2] <;> omega

theorem State.writeLimb_eq_none_iff (s : State) (i : Nat) (v : Word) :
    s.writeLimb i v = none ↔ s.pend ≠ none ∨ s.config.limbs ≤ i ∨ 16 ≤ s.sel.toNat := by
  unfold State.writeLimb
  simp only [State.busy_iff]
  by_cases hp : s.pend = none <;> by_cases hl : s.config.limbs ≤ i <;> simp only [hp, hl, ne_eq, not_true_eq_false,
    not_false_eq_true, or_true, true_or, if_true, false_or, if_false, or_false]
  rcases selectionOf_cases s.sel with ⟨r, h1, h2⟩ | ⟨h1, h3, h2 | h2 | h2⟩ | ⟨h1, h2⟩ <;> simp [h2] <;> omega

theorem State.writeSign_eq_none_iff (s : State) (v : Word) :
    s.writeSign v = none ↔ s.pend ≠ none ∨ 16 ≤ s.sel.toNat := by
  unfold State.writeSign
  simp only [State.busy_iff]
  by_cases hp : s.pend = none <;> simp only [hp, ne_eq, not_true_eq_false, not_false_eq_true, true_or, if_true, false_or,
    if_false]
  rcases selectionOf_cases s.sel with ⟨r, h1, h2⟩ | ⟨h1, h3, h2 | h2 | h2⟩ | ⟨h1, h2⟩ <;> simp [h2] <;> omega

end Sys2Proof.Machine
end

