-- ==== Sys2Proof/Laws/Decode.lean ====
section
/-! SUPPORT. The fields of a packed command word read back, its reserved bits are zero, and it is the sum of its fields
(30_encoding.md R50 to R58). -/

namespace Sys2Proof

/-! ## Fields of a packed word (R50) -/

@[simp] theorem opField_packWord (op : BitVec 6) (f0 f1 f2 f3 f4 : BitVec 4) :
    opField (packWord op f0 f1 f2 f3 f4) = op := by
  unfold opField packWord
  ext i hi
  simp only [BitVec.getElem_extractLsb', BitVec.getLsbD_append, BitVec.getLsbD_ofNat]
  interval_cases i <;> simp

theorem regField_packWord (op : BitVec 6) (f0 f1 f2 f3 f4 : BitVec 4) :
    regField (packWord op f0 f1 f2 f3 f4) 6 = f0.toFin ∧ regField (packWord op f0 f1 f2 f3 f4) 10 = f1.toFin ∧
      regField (packWord op f0 f1 f2 f3 f4) 14 = f2.toFin ∧ regField (packWord op f0 f1 f2 f3 f4) 18 = f3.toFin ∧
      regField (packWord op f0 f1 f2 f3 f4) 22 = f4.toFin := by
  unfold packWord regField
  refine ⟨?_, ?_, ?_, ?_, ?_⟩ <;> congr 1 <;> ext i hi <;>
    simp only [BitVec.getElem_extractLsb', BitVec.getLsbD_append] <;>
    interval_cases i <;> simp [BitVec.getLsbD_eq_getElem]

theorem roundsField_packWord (op : BitVec 6) (f0 f1 f2 f3 f4 : BitVec 4) :
    roundsField (packWord op f0 f1 f2 f3 f4) = (f3 ++ f2).toFin := by
  unfold packWord roundsField
  congr 1
  ext i hi
  simp only [← BitVec.getLsbD_eq_getElem, BitVec.getLsbD_extractLsb', BitVec.getLsbD_append]
  interval_cases i <;> simp [BitVec.getLsbD_eq_getElem]

/-- The two halves of the rounds immediate make it up again (R56). -/
theorem roundsHigh_append_roundsLow (k : Rounds) : (roundsHigh k ++ roundsLow k).toFin = k := by
  apply Fin.ext
  have := k.isLt
  show (roundsHigh k ++ roundsLow k).toNat = k.val
  rw [BitVec.toNat_append, ← Nat.shiftLeft_add_eq_or_of_lt (roundsLow k).isLt]
  simp only [roundsHigh, roundsLow, BitVec.toNat_ofNat, Nat.shiftLeft_eq]
  omega

/-- A packed word is the sum of its shifted fields. -/
theorem packWord_toNat (op : BitVec 6) (f0 f1 f2 f3 f4 : BitVec 4) :
    (packWord op f0 f1 f2 f3 f4).toNat = op.toNat + f0.toNat * 2 ^ 6 + f1.toNat * 2 ^ 10 + f2.toNat * 2 ^ 14
      + f3.toNat * 2 ^ 18 + f4.toNat * 2 ^ 22 := by
  unfold packWord
  simp only [BitVec.toNat_append, BitVec.toNat_ofNat, Nat.zero_mod, Nat.zero_shiftLeft, Nat.zero_or]
  rw [← Nat.shiftLeft_add_eq_or_of_lt f3.isLt, ← Nat.shiftLeft_add_eq_or_of_lt f2.isLt,
    ← Nat.shiftLeft_add_eq_or_of_lt f1.isLt, ← Nat.shiftLeft_add_eq_or_of_lt f0.isLt,
    ← Nat.shiftLeft_add_eq_or_of_lt op.isLt]
  simp only [Nat.shiftLeft_eq]
  ring

/-! ## Reserved bits (R51 to R55) -/

theorem reservedBitSet_packWord_r4 (op : BitVec 6) (f0 f1 f2 f3 : BitVec 4) :
    reservedBitSet .r4 (packWord op f0 f1 f2 f3 0#4) = false := by
  unfold packWord reservedBitSet Format.mask
  simp only [bne_eq_false_iff_eq]
  ext i hi
  simp only [BitVec.getElem_and, BitVec.getElem_not, BitVec.getElem_append]
  interval_cases i <;> simp

theorem reservedBitSet_packWord_i (op : BitVec 6) (f0 f1 f2 f3 : BitVec 4) :
    reservedBitSet .i (packWord op f0 f1 f2 f3 0#4) = false := reservedBitSet_packWord_r4 op f0 f1 f2 f3

theorem reservedBitSet_packWord_r3 (op : BitVec 6) (f0 f1 f2 : BitVec 4) :
    reservedBitSet .r3 (packWord op f0 f1 f2 0#4 0#4) = false := by
  unfold packWord reservedBitSet Format.mask
  simp only [bne_eq_false_iff_eq]
  ext i hi
  simp only [BitVec.getElem_and, BitVec.getElem_not, BitVec.getElem_append]
  interval_cases i <;> simp

theorem reservedBitSet_packWord_e (op : BitVec 6) (f0 f1 f2 f3 f4 : BitVec 4) :
    reservedBitSet .e (packWord op f0 f1 f2 f3 f4) = false := by
  unfold packWord reservedBitSet Format.mask
  simp only [bne_eq_false_iff_eq]
  ext i hi
  simp only [BitVec.getElem_and, BitVec.getElem_not, BitVec.getElem_append]
  interval_cases i <;> simp

theorem reservedBitSet_packWord_k (op : BitVec 6) (f1 : BitVec 4) :
    reservedBitSet .k (packWord op 0#4 f1 0#4 0#4 0#4) = false := by
  unfold packWord reservedBitSet Format.mask
  simp only [bne_eq_false_iff_eq]
  ext i hi
  simp only [BitVec.getElem_and, BitVec.getElem_not, BitVec.getElem_append]
  interval_cases i <;> simp

/-- The opcode map names each mnemonic once (R57). -/
@[simp] theorem mnemonicOf_opcode (m : Mnemonic) : mnemonicOf m.opcode = some m := by cases m <;> decide

end Sys2Proof
end

