-- ==== Sys2Proof/Laws/Ops.lean ====
section
/-! SUPPORT. What completion can do: one lemma each for an error, for a result that fits, for a result that does not, and
one inversion lemma over all outcomes. -/

namespace Sys2Proof.Machine

/-! ## Writing the destinations -/

theorem State.writeAll_eq_withBr (s : State) (ws : List (Reg × Int)) :
    ∃ br, s.writeAll ws = { s with br := br } := by
  induction ws generalizing s with
  | nil => exact ⟨s.br, rfl⟩
  | cons p rest ih => obtain ⟨br, h⟩ := ih (s.writeInt p.1 p.2); exact ⟨br, by rw [State.writeAll, h]; rfl⟩

/-- Registers that no entry names keep their value (R65). -/
theorem State.reg_writeAll_of_notMem (s : State) (ws : List (Reg × Int)) (r : Reg) (h : r ∉ ws.map Prod.fst) :
    (s.writeAll ws).reg r = s.reg r := by
  induction ws generalizing s with
  | nil => rfl
  | cons p rest ih =>
    simp only [List.map_cons, List.mem_cons, not_or] at h
    rw [State.writeAll, ih _ h.2]
    exact State.reg_setReg_ne s h.1 _

/-- With pairwise different destinations every entry is written in canonical form (R13, R65). -/
theorem State.reg_writeAll_of_mem (s : State) (ws : List (Reg × Int)) (hn : (ws.map Prod.fst).Nodup) {r : Reg} {v : Int}
    (h : (r, v) ∈ ws) : (s.writeAll ws).reg r = BigReg.ofInt v := by
  induction ws generalizing s with
  | nil => simp at h
  | cons p rest ih =>
    simp only [List.map_cons, List.nodup_cons] at hn
    rw [State.writeAll]
    rcases List.mem_cons.1 h with e | e
    · subst e
      rw [State.reg_writeAll_of_notMem _ _ _ hn.1]
      exact State.reg_setReg_self s _ _
    · exact ih _ hn.2 e

/-- Every register after the writes is as before or holds a written value. -/
theorem State.reg_writeAll_cases (s : State) (ws : List (Reg × Int)) (r : Reg) :
    (s.writeAll ws).reg r = s.reg r ∨ ∃ p ∈ ws, p.1 = r ∧ (s.writeAll ws).reg r = BigReg.ofInt p.2 := by
  induction ws generalizing s with
  | nil => exact .inl rfl
  | cons p rest ih =>
    rw [State.writeAll]
    rcases ih (s.writeInt p.1 p.2) with h | ⟨q, hq, e, h⟩
    · by_cases hr : r = p.1
      · refine .inr ⟨p, by simp, hr.symm, h.trans ?_⟩
        subst hr; exact State.reg_setReg_self s _ _
      · exact .inl (h.trans (State.reg_setReg_ne s hr _))
    · exact .inr ⟨q, by simp [hq], e, h⟩

/-! ## The commit -/

theorem State.reg_commit (s : State) (ws : List (Reg × Int)) (k : Option KeySlot) (r : Reg) :
    (s.commit ws k).reg r = (s.writeAll ws).reg r := by
  cases k <;> rfl

theorem State.commit_key (s : State) (ws : List (Reg × Int)) (k : Option KeySlot) :
    (s.commit ws k).key = k.getD s.key := by
  obtain ⟨br, h⟩ := s.writeAll_eq_withBr ws
  cases k <;> simp [State.commit, State.setKey, h]

theorem State.commit_succeeded (s : State) (ws : List (Reg × Int)) (k : Option KeySlot) : (s.commit ws k).Succeeded :=
  ⟨rfl, rfl, rfl, rfl⟩

theorem State.commit_source (s : State) (ws : List (Reg × Int)) (k : Option KeySlot) : (s.commit ws k).source = s.source := by
  obtain ⟨br, h⟩ := s.writeAll_eq_withBr ws
  cases k <;> simp [State.commit, State.setKey, h]

theorem State.commit_frame (s : State) (ws : List (Reg × Int)) (k : Option KeySlot) :
    State.Frame s (s.commit ws k) (ws.map Prod.fst) := by
  obtain ⟨br, h⟩ := s.writeAll_eq_withBr ws
  refine ⟨fun r hr => ?_, ?_, ?_, ?_, ?_, ?_, ?_, ?_, ?_⟩
  · rw [State.reg_commit]; exact s.reg_writeAll_of_notMem ws r hr
  all_goals cases k <;> simp [State.commit, State.setKey, h, Status.atSuccess]

/-! ## Completion (R64) -/

/-- An error writes STATUS and nothing else (R64, R65). -/
theorem State.complete_raise (s : State) (e : CmdError) : State.FailsWith s (s.complete (.raise e)) e :=
  ⟨⟨rfl, rfl, rfl, rfl⟩, ⟨fun _ _ => rfl, rfl, rfl, rfl, rfl, rfl, rfl, rfl, rfl⟩, rfl, rfl⟩

/-- One result that fits is written to its register, and nothing else changes (R64, R65). -/
theorem State.complete_one (s : State) (rd : Reg) (v : Int) (h : v.natAbs < s.config.bound) :
    State.SucceedsInto s (s.complete (.result [(rd, v)] none)) [rd] ∧
      (s.complete (.result [(rd, v)] none)).reg rd = BigReg.ofInt v := by
  have hf : resultsFit s.config.width [(rd, v)] none = true := by
    simpa [resultsFit, fitsWidth_iff, Config.bound] using h
  simp only [State.complete, hf, if_true]
  refine ⟨⟨s.commit_succeeded _ _, by simpa using s.commit_frame [(rd, v)] none, s.commit_key _ none, s.commit_source _ _⟩, ?_⟩
  rw [State.reg_commit]
  exact s.reg_writeAll_of_mem _ (by simp) (by simp)

/-- One result that does not fit is `Overflow` (R68). -/
theorem State.complete_one_overflow (s : State) (rd : Reg) (v : Int) (h : s.config.bound ≤ v.natAbs) :
    State.FailsWith s (s.complete (.result [(rd, v)] none)) .overflow := by
  have hf : resultsFit s.config.width [(rd, v)] none = false := by
    simpa [resultsFit, fitsWidth_false_iff, Config.bound] using h
  simp only [State.complete, hf]
  exact s.complete_raise .overflow

/-- Everything completion can do: an error with no register and no key field written, or the commit of results
that all fit (R64, R65, R68). -/
theorem State.complete_cases (s : State) (o : CmdOutcome) :
    (∃ e, s.complete o = s.raiseError e) ∨
      ∃ ws k, o = .result ws k ∧ resultsFit s.config.width ws k = true ∧ s.complete o = s.commit ws k := by
  cases o with
  | raise e => exact .inl ⟨e, rfl⟩
  | result ws k =>
    by_cases h : resultsFit s.config.width ws k = true
    · exact .inr ⟨ws, k, rfl, h, by simp [State.complete, h]⟩
    · exact .inl ⟨.overflow, by simp [State.complete, h]⟩

/-- Results that fit have magnitudes below `2^W`. -/
theorem resultsFit_regs {w : Nat} {ws : List (Reg × Int)} {k : Option KeySlot} (h : resultsFit w ws k = true)
    {p : Reg × Int} (hp : p ∈ ws) : p.2.natAbs < 2 ^ w := by
  simp only [resultsFit, Bool.and_eq_true, List.all_eq_true] at h
  exact (fitsWidth_iff _ _).1 (h.1 p hp)

end Sys2Proof.Machine
end

