-- ==== Sys2Proof/Laws/Exec.lean ====
section
/-! SUPPORT. What `exec` can do, said once: every command answers a next state, which is the completion of some outcome. -/

namespace Sys2Proof.Machine

/-- The outcome of a command at a state, and the witness source it leaves (R64, R82). -/
def outcomeOf (i : Instr) (s : State) : CmdOutcome × WitnessSource :=
  match i with
  | .modexp rd rs1 rs2 rs3 => (modexpOutcome rd (s.val rs1) (s.val rs2) (s.val rs3), s.source)
  | .montmul rd rs1 rs2 rs3 => (montmulOutcome rd (s.val rs1) (s.val rs2) (s.val rs3), s.source)
  | .gcd rd rs1 rs2 => (gcdOutcome rd (s.val rs1) (s.val rs2), s.source)
  | .egcd rd rdx rdy rs1 rs2 => (egcdOutcome rd rdx rdy (s.val rs1) (s.val rs2), s.source)
  | .modinv rd rs1 rs2 => (modinvOutcome rd (s.val rs1) (s.val rs2), s.source)
  | .lcm rd rs1 rs2 => (lcmOutcome rd (s.val rs1) (s.val rs2), s.source)
  | .mrtest rd rs1 k =>
    (.result [(rd, verdict (mrtestVerdict (s.val rs1) (roundsValue k) s.source).1)] none,
      (mrtestVerdict (s.val rs1) (roundsValue k) s.source).2)
  | .mrwit rd rs1 rs2 => (mrwitOutcome rd (s.val rs1) (s.val rs2), s.source)
  | .loadkey rs1 => (loadkeyOutcome s.config.width s.key.ready (s.val rs1), s.source)
  | .hadd rd rs1 rs2 => (haddOutcome rd s.key.ready (s.val rs1) (s.val rs2) s.keyNsq, s.source)
  | .hscale rd rs1 rs2 => (hscaleOutcome rd s.key.ready (s.val rs1) (s.val rs2) s.keyNsq, s.source)

/-- Every command is the completion of its outcome: no command stops (R64, R95). -/
theorem exec_eq_complete (i : Instr) (s : State) :
    exec i s = .next ((s.withSource (outcomeOf i s).2).complete (outcomeOf i s).1) := by
  cases i <;> rfl

/-- The registers a command's result writes are its destinations (R51 to R55, R65). -/
theorem outcomeOf_dests (i : Instr) (s : State) (ws : List (Reg × Int)) (k : Option KeySlot)
    (h : (outcomeOf i s).1 = .result ws k) : ws.map Prod.fst = i.dests := by
  cases i <;>
    simp only [outcomeOf, modexpOutcome, montmulOutcome, gcdOutcome, egcdOutcome, modinvOutcome, lcmOutcome, mrwitOutcome,
      loadkeyOutcome, haddOutcome, hscaleOutcome] at h <;>
    (repeat' (split at h)) <;>
    first
    | (obtain ⟨rfl, _⟩ := CmdOutcome.result.inj h; rfl)
    | cases h

/-- Only LOADKEY writes the key slot (R19). -/
theorem outcomeOf_key (i : Instr) (s : State) (ws : List (Reg × Int)) (k : KeySlot)
    (h : (outcomeOf i s).1 = .result ws (some k)) :
    ∃ rs1, i = .loadkey rs1 ∧ s.key.ready = false ∧ 2 ≤ s.val rs1 ∧ (s.val rs1 * s.val rs1).natAbs < s.config.bound ∧
      k = KeySlot.ofModulus (s.val rs1).toNat ∧ ws = [] := by
  cases i <;>
    simp only [outcomeOf, modexpOutcome, montmulOutcome, gcdOutcome, egcdOutcome, modinvOutcome, lcmOutcome, mrwitOutcome,
      loadkeyOutcome, haddOutcome, hscaleOutcome] at h <;>
    (repeat' (split at h)) <;> try (cases h; done)
  case loadkey.isFalse.isFalse rs1 hr hn =>
    obtain ⟨rfl, h2⟩ := CmdOutcome.result.inj h
    push Not at hn
    exact ⟨rs1, rfl, by simpa using hr, hn.1, (fitsWidth_iff _ _).1 (by simpa using hn.2),
      (Option.some.inj h2).symm, rfl⟩

end Sys2Proof.Machine
end

