-- ==== Sys2Proof/Laws/Step.lean ====
section
/-! SUPPORT. What one step can do, said once: it is the engine's completion, an idle moment, a served access, or a reset. -/

namespace Sys2Proof.Machine

/-- The state in which the step acts: the first input taken off the list. -/
def State.popInput (s : State) : State := s.withInputs s.inputs.tail

/-- The outcome of the word in flight: of its command, or `IllegalCommand` (R58, R64). -/
def wordOutcome (w : Word) (s : State) : CmdOutcome × WitnessSource :=
  match decode w with
  | none => (.raise .illegalCommand, s.source)
  | some i => outcomeOf i s

theorem executeWord_eq_complete (w : Word) (s : State) :
    executeWord w s = .next ((s.withSource (wordOutcome w s).2).complete (wordOutcome w s).1) := by
  unfold executeWord wordOutcome
  cases decode w with
  | none => rfl
  | some i => exact exec_eq_complete i s

/-- Every state a step can lead to. -/
inductive Stepped (s : State) : State → Prop
  /-- Idle, nothing happens (R108, R112). -/
  | idle (h : s.pend = none) : Stepped s s.popInput
  /-- The command in flight completes (R64). -/
  | completed (w : Word) (h : s.pend = some w) :
    Stepped s ((s.popInput.withSource (wordOutcome w s.popInput).2).complete (wordOutcome w s.popInput).1)
  /-- A host access is served (R44). -/
  | served (a : Access) (t : State) (hi : s.inputs.head? = some (.access a)) (ha : addressesBlock s.config a = true)
    (ht : t = s.popInput.serve a.size (a.addr - s.config.base) a.op) (h : Served s.popInput t) : Stepped s t
  /-- Reset (R110, R111). -/
  | reset (hi : s.inputs.head? = some .reset) : Stepped s s.popInput.hardReset

theorem engineStep_stepped (s : State) {t : State} (h : engineStep s.popInput = .next t) : Stepped s t := by
  unfold engineStep at h
  split at h
  · next hp => cases h; exact .idle hp
  · next w hp =>
    rw [executeWord_eq_complete] at h
    cases h; exact .completed w hp

/-- Inversion of a step: if it answers a next state, it did one of four things. -/
theorem step_stepped {s t : State} (h : step s = .next t) : Stepped s t := by
  unfold step at h
  split at h
  · next hi =>
    have : s.popInput = s := by
      cases s; simp_all [State.popInput, State.withInputs]
    exact engineStep_stepped s (by rw [this]; exact h)
  · next rest hi =>
    exact engineStep_stepped s (by simpa [State.popInput, hi] using h)
  · next a rest hi =>
    unfold busAccess at h
    split at h
    · next ha =>
      cases h
      refine .served a _ (by simp [hi]) ha ?_ ?_
      · simp [State.popInput, hi]
      · simpa [State.popInput, hi] using State.served_serve _ _ _ _
    · cases h
  · next rest hi =>
    cases h
    have : s.withInputs rest = s.popInput := by simp [State.popInput, hi]
    rw [this]; exact .reset (by simp [hi])

/-- A step stops only on an access that does not address the block (R35; log 8). -/
theorem step_next_of_addressed (s : State) (h : ∀ a, s.inputs.head? = some (.access a) → addressesBlock s.config a = true) :
    ∃ t, step s = .next t := by
  have eng : ∀ u : State, ∃ t, engineStep u = .next t := by
    intro u; unfold engineStep
    split
    · exact ⟨_, rfl⟩
    · exact ⟨_, executeWord_eq_complete _ _⟩
  unfold step
  split
  · exact eng _
  · exact eng _
  · next a rest hi => exact ⟨_, by rw [busAccess, if_pos (show addressesBlock (s.withInputs rest).config a = true from h a (by simp [hi]))]⟩
  · exact ⟨_, rfl⟩

end Sys2Proof.Machine
end

