-- ==== Sys2Proof/Laws/HostOps.lean ====
section
/-! SUPPORT. How a list of inputs is served: one access, a list cut in two, and the pending inputs that no step reads. -/

namespace Sys2Proof.Machine

/-! ## One input -/

/-- A host access that addresses the block is served whole (R42, R44). -/
theorem step_access {s : State} {a : Access} {rest : List Input} (hi : s.inputs = .access a :: rest)
    (ha : addressesBlock s.config a = true) :
    step s = .next ((s.withInputs rest).serve a.size (a.addr - s.config.base) a.op) := by
  unfold step
  rw [hi]
  simp only [busAccess]
  rw [if_pos (show addressesBlock (s.withInputs rest).config a = true from ha)]
  rfl

/-- `BASE + off` addresses the block for every offset of the register space (R35). -/
theorem addressesBlock_base_add (c : Config) {off : Nat} (h : off < 0x4000) (size : AccessSize) (op : BusOp) :
    addressesBlock c { addr := c.base + off, size := size, op := op } = true := by
  simp [addressesBlock, spaceSize, h]

/-- One step more of a run. -/
theorem run_succ_of_step (M : Host.Core) {k : Nat} {s t : M.State} (h : M.step s = .next t) :
    Host.Core.run M (k + 1) s = Host.Core.run M k t := by
  rw [Host.Core.run.eq_2, h]

/-! ## Lists of inputs -/

theorem feed_append {l1 l2 : List Input} {s t u : State} {w1 w2 : List Word} (h1 : feed l1 s = .next (w1, t))
    (h2 : feed l2 t = .next (w2, u)) : feed (l1 ++ l2) s = .next (w1 ++ w2, u) := by
  induction l1 generalizing s w1 with
  | nil => simp only [feed, Host.Outcome.next.injEq, Prod.mk.injEq] at h1; obtain ⟨rfl, rfl⟩ := h1; simpa using h2
  | cons i l1 ih =>
    simp only [List.cons_append, feed] at h1 ⊢
    cases hs : step (s.withInputs [i]) with
    | fault r => rw [hs] at h1; cases h1
    | refused r => rw [hs] at h1; cases h1
    | next s' =>
      rw [hs] at h1
      simp only at h1 ⊢
      cases hf : feed l1 s' with
      | fault r => rw [hf] at h1; cases h1
      | refused r => rw [hf] at h1; cases h1
      | next p =>
        obtain ⟨ws, x⟩ := p
        rw [hf] at h1
        simp only [Host.Outcome.next.injEq, Prod.mk.injEq] at h1
        obtain ⟨rfl, rfl⟩ := h1
        rw [ih hf]
        simp only
        split <;> simp

/-- A 32-bit write gives the host nothing back and leaves the served state (R61). -/
theorem feed_w32 (s : State) {off : Nat} (h : off < 0x4000) (v : Word) :
    feed [w32 s.config off v] s = .next ([], (s.withInputs []).serve .w32 off (.write v)) := by
  have := step_access (s := s.withInputs [w32 s.config off v]) rfl (addressesBlock_base_add s.config h _ _)
  simp only [feed, this]
  simp only [Input.isRead, w32, State.withInputs_config, Nat.add_sub_cancel_left]
  rfl

/-- A 32-bit read gives the host the word on the bus port (R61). -/
theorem feed_r32 (s : State) {off : Nat} (h : off < 0x4000) :
    feed [r32 s.config off] s = .next ([((s.withInputs []).serve .w32 off .read).readData],
      (s.withInputs []).serve .w32 off .read) := by
  have := step_access (s := s.withInputs [r32 s.config off]) rfl (addressesBlock_base_add s.config h _ _)
  simp only [feed, this]
  simp only [Input.isRead, r32, State.withInputs_config, Nat.add_sub_cancel_left]
  rfl

/-! ## No step reads the inputs behind its own -/

theorem State.serve_withInputs (s : State) (l : List Input) (size : AccessSize) (off : Nat) (op : BusOp) :
    (s.withInputs l).serve size off op = (s.serve size off op).withInputs l := by
  unfold State.serve
  split
  · cases op with
    | read =>
      have : (s.withInputs l).peek (locate off) = s.peek (locate off) := by cases locate off <;> rfl
      simp only [State.serveRead, this]
      cases s.peek (locate off) <;> rfl
    | write v =>
      have hb : (s.withInputs l).busy = s.busy := rfl
      have hl : (s.withInputs l).config.limbs = s.config.limbs := rfl
      have hs : (s.withInputs l).sel = s.sel := rfl
      have : (s.withInputs l).poke v (locate off) = (s.poke v (locate off)).map (fun t => t.withInputs l) := by
        cases locate off with
        | cmd => simp only [State.poke, State.writeCmd, hb]; cases s.busy <;> rfl
        | sign =>
          simp only [State.poke, State.writeSign, hb, hs]
          cases s.busy <;> simp only [if_true, if_false, Bool.false_eq_true]
          · cases selectionOf s.sel <;> rfl
          · rfl
        | regClr =>
          simp only [State.poke, State.writeRegClr, hb]
          cases s.busy <;> simp only [if_true, if_false, Bool.false_eq_true]
          · cases selectionOf (v.extractLsb' 0 5) <;> rfl
          · rfl
        | limb i =>
          simp only [State.poke, State.writeLimb, hb, hl, hs]
          by_cases h : s.busy = true ∨ s.config.limbs ≤ i
          · simp only [h, if_true]; rfl
          · simp only [h, if_false]; cases selectionOf s.sel <;> rfl
        | _ => rfl
      simp only [State.serveWrite, this]
      cases s.poke v (locate off) <;> rfl
  · cases op <;> rfl

theorem State.writeAll_withInputs (ws : List (Reg × Int)) (s : State) (l : List Input) :
    (s.withInputs l).writeAll ws = (s.writeAll ws).withInputs l := by
  induction ws generalizing s with
  | nil => rfl
  | cons p ws ih => exact ih (s.writeInt p.1 p.2)

theorem State.complete_withInputs (s : State) (l : List Input) (o : CmdOutcome) :
    (s.withInputs l).complete o = (s.complete o).withInputs l := by
  cases o with
  | raise e => rfl
  | result ws k =>
    by_cases h : resultsFit s.config.width ws k = true
    · have h' : resultsFit (s.withInputs l).config.width ws k = true := h
      simp only [State.complete, h, h', if_true, State.commit, State.writeAll_withInputs]
      cases k <;> rfl
    · have h' : ¬resultsFit (s.withInputs l).config.width ws k = true := h
      simp only [State.complete, h, h']
      rfl

end Sys2Proof.Machine
end

