-- ==== Sys2Proof/Laws/PerInstr.lean ====
section
/-! SUPPORT. One statement per constructor of `Instr`: the command word carries the command's opcode and no reserved bit
of its format (30_encoding.md R51 to R57). -/

namespace Sys2Proof.Laws.EncodingShape

/-- The word of `i` has `i`'s opcode and no 1 in a bit its format reserves. -/
def Statement (i : Instr) : Prop :=
  opField (encode i) = i.mnemonic.opcode ∧ reservedBitSet i.mnemonic.format (encode i) = false

theorem modexp (rd rs1 rs2 rs3 : Reg) : Statement (.modexp rd rs1 rs2 rs3) :=
  ⟨opField_packWord .., reservedBitSet_packWord_r4 ..⟩
theorem montmul (rd rs1 rs2 rs3 : Reg) : Statement (.montmul rd rs1 rs2 rs3) :=
  ⟨opField_packWord .., reservedBitSet_packWord_r4 ..⟩
theorem gcd (rd rs1 rs2 : Reg) : Statement (.gcd rd rs1 rs2) :=
  ⟨opField_packWord .., reservedBitSet_packWord_r3 ..⟩
theorem egcd (rd rdx rdy rs1 rs2 : Reg) : Statement (.egcd rd rdx rdy rs1 rs2) :=
  ⟨opField_packWord .., reservedBitSet_packWord_e ..⟩
theorem modinv (rd rs1 rs2 : Reg) : Statement (.modinv rd rs1 rs2) :=
  ⟨opField_packWord .., reservedBitSet_packWord_r3 ..⟩
theorem lcm (rd rs1 rs2 : Reg) : Statement (.lcm rd rs1 rs2) :=
  ⟨opField_packWord .., reservedBitSet_packWord_r3 ..⟩
theorem mrtest (rd rs1 : Reg) (rounds : Rounds) : Statement (.mrtest rd rs1 rounds) :=
  ⟨opField_packWord .., reservedBitSet_packWord_i ..⟩
theorem mrwit (rd rs1 rs2 : Reg) : Statement (.mrwit rd rs1 rs2) :=
  ⟨opField_packWord .., reservedBitSet_packWord_r3 ..⟩
theorem loadkey (rs1 : Reg) : Statement (.loadkey rs1) :=
  ⟨opField_packWord .., reservedBitSet_packWord_k ..⟩
theorem hadd (rd rs1 rs2 : Reg) : Statement (.hadd rd rs1 rs2) :=
  ⟨opField_packWord .., reservedBitSet_packWord_r3 ..⟩
theorem hscale (rd rs1 rs2 : Reg) : Statement (.hscale rd rs1 rs2) :=
  ⟨opField_packWord .., reservedBitSet_packWord_r3 ..⟩

end Sys2Proof.Laws.EncodingShape
end

