-- ==== Sys2Proof/Tests/Slice0.lean ====
section
/-! SUPPORT. The model's own tests: an ill-formed term for the check of WellFormed, every constructor's word, vectors of
spec/95_test_vectors.md (each test names its vector), and for every obligation with hypotheses a state that meets them. -/

namespace Sys2Proof.Machine

/-! ## Small states -/

/-- A configuration with `W = 64` (R5), at bus address 0. -/
def w64 : Config := { limbs := 2, base := 0, irqRoute := { line := 3, priority := 1 } }

/-- After reset in the reference configuration, with some registers set. -/
def regs (l : List (Reg × Int)) : State := State.reset.writeAll l

/-- After reset with `W = 64`, with some registers set. -/
def small (l : List (Reg × Int)) : State := (State.resetWith w64).writeAll l

/-- The same with the key of modulus `n` loaded (R88). -/
def keyed (n : Nat) (l : List (Reg × Int)) : State := { small l with key := KeySlot.ofModulus n }

/-- The same with answers of the witness source listed (R8). -/
def drawing (answers : List Nat) (l : List (Reg × Int)) : State := { small l with source := { queue := answers, drawn := 0 } }

/-- STATUS and register `r` after the word `w` is issued and completes. -/
def ran (w : Word) (s : State) (r : Reg) : Option (Word × Int) :=
  match engineStep (s.issue w) with
  | .next t => some (t.statusWord, t.val r)
  | .fault _ => none
  | .refused _ => none

/-- The words read and the last STATUS, for a list of inputs. -/
def seen (l : List Input) (s : State) : Option (List Word × Word) :=
  match feed l s with
  | .next (ws, t) => some (ws, t.statusWord)
  | .fault _ => none
  | .refused _ => none

/-! ## WellFormed: one ill-formed term for each way two destinations can be equal (R59) -/

theorem test_egcd_rd_rdx_refused : (Instr.egcd 2 2 4 0 1).wellFormed = false := by decide
theorem test_egcd_rd_rdy_refused : (Instr.egcd 2 3 2 0 1).wellFormed = false := by decide
theorem test_egcd_rdx_rdy_refused : (Instr.egcd 2 3 3 0 1).wellFormed = false := by decide

/-! ## Decoding: words written out bit by bit from R50 to R57 (F4 F3 F2 F1 F0 OP) -/

/-- V-EN-1, format R4. -/
theorem test_decode_modexp : decode 0b000000_0000_0010_0001_0000_0011_000001#32 = some (.modexp 3 0 1 2) := by decide
/-- V-EN-2. -/
theorem test_decode_montmul : decode 0b000000_0000_0010_0001_0000_0011_000010#32 = some (.montmul 3 0 1 2) := by decide
/-- V-EN-3, format R3. -/
theorem test_decode_gcd : decode 0b000000_0000_0000_0001_0000_0010_000011#32 = some (.gcd 2 0 1) := by decide
/-- V-EN-13, format E. -/
theorem test_decode_egcd : decode 0b000000_1101_1110_1111_1111_1111_000100#32 = some (.egcd 15 14 13 15 15) := by decide
/-- V-EN-5. -/
theorem test_decode_modinv : decode 0b000000_0000_0000_0001_0000_0010_000101#32 = some (.modinv 2 0 1) := by decide
/-- V-EN-6. -/
theorem test_decode_lcm : decode 0b000000_0000_0000_0001_0000_0010_000110#32 = some (.lcm 2 0 1) := by decide
/-- V-EN-7, format I: rounds 10 is `cmd[21:14]`. -/
theorem test_decode_mrtest : decode 0b000000_0000_00001010_0000_0010_000111#32 = some (.mrtest 2 0 10) := by decide
/-- V-EN-12: the largest rounds immediate. -/
theorem test_decode_mrtest_255 : decode 0b000000_0000_11111111_0000_0001_000111#32 = some (.mrtest 1 0 255) := by decide
/-- V-EN-8. -/
theorem test_decode_mrwit : decode 0b000000_0000_0000_0001_0000_0010_001000#32 = some (.mrwit 2 0 1) := by decide
/-- Word 0x00000809 of program P1, format K. -/
theorem test_decode_loadkey : decode 0b000000_0000_0000_0000_0010_0000_001001#32 = some (.loadkey 2) := by decide
/-- V-EN-10. -/
theorem test_decode_hadd : decode 0b000000_0000_0000_0001_0000_0010_001010#32 = some (.hadd 2 0 1) := by decide
/-- V-EN-14. -/
theorem test_decode_hscale : decode 0b000000_0000_0000_1111_1111_1111_001011#32 = some (.hscale 15 15 15) := by decide
/-- V-EN-15 to V-EN-25: every illegal word of L2.1. -/
theorem test_decode_illegal :
    [0x00000000#32, 0x0000000C#32, 0x0000003F#32, 0x004840C1#32, 0x800840C1#32, 0x00044083#32, 0x00000049#32,
      0x00004009#32, 0x04004084#32, 0x00428087#32, 0x01084084#32].all (fun w => (decode w).isNone) = true := by decide
/-- The table's numbering is the word's (R11, R49). -/
theorem test_decode_table_word : decodeTableWord 32 0x010C4084 = some (.egcd 2 3 4 0 1) := by decide
/-- `withFetchWord` makes the next step run exactly that word (V-GD-1). -/
theorem test_with_fetch_word :
    (match step ((regs [(0, 240), (1, 46)]).withFetchWord 32 0x00004083) with
    | .next t => some (t.statusWord, t.val 2)
    | .fault _ => none
    | .refused _ => none) = some (0x00000002#32, 2) := by decide

/-! ## Assembler (R60) -/

theorem test_assemble_modexp : assemble (.modexp 3 0 1 2) = some (.modexp 3 0 1 2) := by decide
theorem test_assemble_register_16_refused : assemble (.gcd 16 0 1) = none := by decide
theorem test_assemble_rounds_256_refused : assemble (.mrtest 2 0 256) = none := by decide
/-- The line of R14. -/
theorem test_asm_text : asmText (.modexp 3 0 1 2) = "modexp r3, r0, r1, r2" := by decide

/-! ## Commands, one step each -/

/-- V-MX-6: negative base, floored modulo. -/
theorem test_modexp_negative_base : ran 0x000840C1#32 (regs [(0, -2), (1, 3), (2, 5)]) 3 = some (0x00000002#32, 2) := by
  decide
/-- V-MX-16: the destination is a source. -/
theorem test_modexp_rd_is_rs1 : ran 0x00084001#32 (regs [(0, 4), (1, 13), (2, 497)]) 0 = some (0x00000002#32, 445) := by
  decide
/-- V-MM-12: two limbs, R = 2^64. -/
theorem test_montmul_two_limbs :
    ran 0x000840C2#32 (regs [(0, 123456789), (1, 987654321), (2, 2305843009213693951)]) 3
      = some (0x00000002#32, 1456393459647638128) := by decide
/-- V-MM-14: even modulus. -/
theorem test_montmul_even : ran 0x000840C2#32 (regs [(0, 3), (1, 4), (2, 96)]) 3 = some (0x00000206#32, 0) := by decide
/-- V-GD-8: never negative. -/
theorem test_gcd_non_negative : ran 0x00004083#32 (regs [(0, -4)]) 2 = some (0x00000002#32, 4) := by decide
/-- V-EG-7: the sign moves to y. -/
theorem test_egcd_sign : ran 0x010C4084#32 (regs [(0, 4), (1, -6)]) 4 = some (0x00000002#32, -1) := by decide
/-- V-EG-14: destinations overlap sources; x. -/
theorem test_egcd_overlap : ran 0x00844004#32 (regs [(0, 240), (1, 46)]) 1 = some (0x00000002#32, -9) := by decide
/-- V-MI-4: negative a. -/
theorem test_modinv_negative : ran 0x00004085#32 (regs [(0, -3), (1, 11)]) 2 = some (0x00000002#32, 7) := by decide
/-- V-MI-13: the modulus is checked first. -/
theorem test_modinv_order : ran 0x00004085#32 (regs []) 2 = some (0x00000206#32, 0) := by decide
/-- V-LC-12: W = 64, the largest magnitudes overflow. -/
theorem test_lcm_overflow :
    ran 0x00004086#32 (small [(0, 18446744073709551615), (1, 18446744073709551614)]) 2 = some (0x00000306#32, 0) := by
  decide
/-- V-LC-9: both operands 0. -/
theorem test_lcm_zero_zero : ran 0x00004086#32 (regs []) 2 = some (0x00001106#32, 0) := by decide
/-- V-MR-10: the first draw is a liar, the second is not. -/
theorem test_mrtest_second_round : ran 0x00028087#32 (drawing [2, 3, 2] [(0, 2047), (2, 5)]) 2 = some (0x00000002#32, 0) := by
  decide
/-- V-MR-12: no round. -/
theorem test_mrtest_no_round : ran 0x00000087#32 (regs [(0, 15)]) 2 = some (0x00000002#32, 1) := by decide
/-- V-MW-10: a strong liar of 221, found while squaring. -/
theorem test_mrwit_liar : ran 0x00004088#32 (regs [(0, 221), (1, 174)]) 2 = some (0x00000002#32, 1) := by decide
/-- V-MW-17: witness above n - 2. -/
theorem test_mrwit_range : ran 0x00004088#32 (regs [(0, 5), (1, 4)]) 2 = some (0x00000206#32, 0) := by decide
/-- V-LK-7: the largest key for W = 64. -/
theorem test_loadkey_largest :
    (match engineStep ((small [(0, 4294967295)]).issue 0x00000009#32) with
    | .next t => some (t.key, t.keyInfoWord)
    | .fault _ => none
    | .refused _ => none)
      = some ({ n := 4294967295, nsq := 0xFFFFFFFE00000001, g := 4294967296, ready := true }, 0x80000020#32) := by decide
/-- V-LK-6: one more does not fit. -/
theorem test_loadkey_too_large : ran 0x00000009#32 (small [(0, 4294967296)]) 0 = some (0x00000506#32, 4294967296) := by
  decide
/-- V-HE-6: a negative operand is reduced. -/
theorem test_hadd_negative : ran 0x0000408A#32 (keyed 323 [(0, -1), (1, 5)]) 2 = some (0x0000000A#32, 104324) := by decide
/-- V-HE-8: no key. -/
theorem test_hadd_no_key : ran 0x0000408A#32 (regs [(0, 68411), (1, 59420)]) 2 = some (0x00001306#32, 0) := by decide
/-- V-HE-9. -/
theorem test_hscale_example : ran 0x0000408B#32 (keyed 323 [(0, 62190), (1, 5)]) 2 = some (0x0000000A#32, 58212) := by decide
/-- V-HE-18: the key is checked before the constant. -/
theorem test_hscale_order : ran 0x0000408B#32 (regs [(0, 84326), (1, -1)]) 2 = some (0x00001306#32, 0) := by decide
/-- V-EN-15: an illegal word. -/
theorem test_illegal_word : ran 0x00000000#32 (regs [(0, 240), (1, 46)]) 0 = some (0x00000106#32, 240) := by decide

/-! ## The bus and reset -/

/-- V-BUS-3 on W = 64: limbs and their bytes are little-endian. -/
theorem test_limbs :
    seen (setregOp w64 0 0x1122334455667788 ++ [r32 w64 0x1000, r32 w64 0x1004, r32 w64 0x1008]) (small [])
      = some ([0x55667788#32, 0x11223344#32, 0x00000000#32], 0x00000020#32) ∧
    (small [(0, 0x1122334455667788)]).byteAt 0x1000 = some 0x88#8 ∧
    (small [(0, 0x1122334455667788)]).byteAt 0x1007 = some 0x11#8 := by decide
/-- V-BUS-4, V-BUS-5, V-BUS-27: ACCERR sticks until it is written as 1. -/
theorem test_accerr :
    seen [r32 w64 0x024, r32 w64 0x00C, w32 w64 0x00C 0x00000000#32, r32 w64 0x00C, w32 w64 0x00C 0x00000020#32] (small [])
      = some ([0x00000000#32, 0x00000020#32, 0x00000020#32], 0x00000000#32) := by decide
/-- V-BUS-15, V-BUS-18: bits that are res0 read 0. -/
theorem test_res0 :
    seen [w32 w64 0x014 0xFFFFFFE3#32, r32 w64 0x014, w32 w64 0x008 0xFFFFFFFF#32, r32 w64 0x008] (small [])
      = some ([0x00000003#32, 0x00000001#32], 0x00000000#32) := by decide
/-- V-BUS-20 to V-BUS-25: accesses while a MODEXP is in flight, its completion, the acknowledgement. -/
theorem test_busy :
    seen [w32 w64 0x010 0x000840C1#32, r32 w64 0x00C, w32 w64 0x010 0x00004083#32, r32 w64 0x010, r32 w64 0x1000,
        w32 w64 0x014 3#32, w32 w64 0x018 1#32, w32 w64 0x020 3#32, r32 w64 0x00C, w32 w64 0x008 1#32, .engine,
        r32 w64 0x00C, r32 w64 0x018, r32 w64 0x1000, w32 w64 0x00C 2#32] (small [(0, 4), (1, 13), (2, 497)])
      = some ([0x00000001#32, 0x000840C1#32, 0x00000000#32, 0x00000031#32, 0x00000032#32, 0x00000000#32, 445#32],
          0x00000030#32) := by decide
/-- V-BUS-19: a 16-bit write and a misaligned read. -/
theorem test_undefined_accesses :
    seen [.access { addr := 0x008, size := .w16, op := .write 1#32 }, r32 w64 0x008, r32 w64 0x1002] (small [(0, 1)])
      = some ([0x00000000#32, 0x00000000#32], 0x00000020#32) := by decide
/-- V-RS-3: a reset abandons the command in flight. -/
theorem test_reset_in_flight :
    seen [w32 w64 0x008 1#32, w32 w64 0x010 0x000840C1#32, .reset, .engine, r32 w64 0x008, r32 w64 0x010]
      (small [(0, 4), (1, 13), (2, 497)]) = some ([0x00000000#32, 0x00000000#32], 0x00000000#32) := by decide

/-! ## Witnesses: for every obligation with hypotheses, and for every clause of it, states and operands that meet them

Where two clauses meet, the values on both sides of the boundary are here. -/

theorem inRange_of {s : State} (h : ∀ i : Reg, (s.reg i).mag < s.config.bound) : s.InRange := h

theorem inv_of {s : State} (hc : s.config.wf = true) (hr : ∀ i : Reg, (s.reg i).mag < s.config.bound)
    (hk : s.key.Inv s.config.bound) (hs : s.status = Status.zero) (hp : s.pend = none ∨ s.pend = some s.cmd) : s.Inv where
  config_wf := hc
  in_range := hr
  key_inv := hk
  err_iff := by rw [hs]; decide
  code_produced := by rw [hs]; decide
  busy_clear := by rw [hs]; intro; decide
  pend_is_cmd := by
    intro w hw
    rcases hp with h | h
    · rw [h] at hw; cases hw
    · rw [h] at hw; exact Option.some.inj hw

/-- The next state of an outcome that is one. -/
def nextOf (o : Host.Outcome State Fault Refusal) (s : State) : State :=
  match o with
  | .next t => t
  | .fault _ => s
  | .refused _ => s

/-- The state a step leads to. -/
def State.afterStep (s : State) : State := nextOf (step s) s

theorem step_afterStep {s : State} (h : (match step s with | .next _ => true | .fault _ => false | .refused _ => false) = true) :
    step s = .next s.afterStep := by
  unfold State.afterStep nextOf
  cases hs : step s with
  | next t => rfl
  | fault r => rw [hs] at h; cases h
  | refused r => rw [hs] at h; cases h

/-- `W = 64`, idle, no key; `r12` is 0. -/
def sOps : State := small
  [(0, 4), (1, 13), (2, 497), (3, -1), (5, 97), (6, 1), (7, 96), (8, 61), (9, 18446744073709551615),
    (10, 18446744073709551614), (11, 6), (13, -97)]

theorem sOps_inRange : sOps.InRange := inRange_of (by decide)
theorem sOps_inv : sOps.Inv := inv_of (by decide) sOps_inRange (.inl (by decide)) (by decide) (.inl (by decide))

/-- The key of modulus 323 loaded, `W = 64`, idle. -/
def sKey : State := keyed 323
  [(0, 322), (1, 2), (2, 323), (3, 324), (4, 144), (5, 104329), (6, 3), (7, -1), (10, 12265), (11, 25986)]

theorem sKey_key : sKey.key.Inv sKey.config.bound := .inr (by decide)
theorem sKey_inv : sKey.Inv := inv_of (by decide) (by decide) sKey_key (by decide) (.inl (by decide))

/-- Candidates and witnesses, with two answers of the witness source listed. -/
def sCand : State := drawing [2, 3] [(0, 1), (1, 2), (2, 3), (3, 4), (4, 5), (5, 97), (6, 15), (7, -7)]

/-- A MODEXP in flight. -/
def sBusy : State := sOps.issue 0x000840C1#32

theorem sBusy_inv : sBusy.Inv := inv_of (by decide) (by decide) (.inl (by decide)) (by decide) (.inr (by decide))

/-- Another register selected. -/
def State.selecting (s : State) (i : BitVec 5) : State := { s with sel := i }

/-! ### Encoding -/

theorem witness_DecodeAfterEncodeIsIdentity : (Instr.egcd 0 1 15 0 0).wellFormed = true ∧
    (Instr.mrtest 15 15 255).wellFormed = true := by decide

theorem witness_EncodeAfterDecodeIsIdentity : decode 0x037BFFC4#32 = some (.egcd 15 14 13 15 15) ∧
    decode 0x00000009#32 = some (.loadkey 0) := by decide

/-- Opcodes 0x00, 0x0C and 0x3F; bits 26 and 31; a reserved bit of each format, the lowest and the highest; each
pair of equal destinations. -/
theorem witness_IllegalWordsEndWithIllegalCommand :
    (∀ w ∈ [0x00000000#32, 0x0000000C#32, 0x0000003F#32, 0x04000003#32, 0x80000003#32, 0x00400001#32, 0x02000002#32,
        0x00400007#32, 0x00040003#32, 0x02000005#32, 0x00040006#32, 0x00040008#32, 0x0004000A#32, 0x0004000B#32,
        0x00000049#32, 0x00000209#32, 0x00004009#32, 0x00040044#32, 0x00440004#32, 0x00800084#32],
      (sOps.issue w).pend = some w ∧ IllegalWord w) := by
  simp [IllegalWord, fieldNat]

/-- Both sides of R60's bounds. -/
theorem witness_AssemblerRefusesOnlyBadOperands :
    assemble (.mrtest 15 0 255) = some (.mrtest 15 0 255) ∧ assemble (.egcd 0 1 2 0 0) = some (.egcd 0 1 2 0 0) ∧
    AsmLineOk (.modexp 15 15 15 15) ∧ ¬AsmLineOk (.modexp 16 15 15 15) ∧ ¬AsmLineOk (.mrtest 0 0 256) ∧
    ¬AsmLineOk (.egcd 0 0 2 0 0) ∧ ¬AsmLineOk (.egcd 0 1 0 0 0) ∧ ¬AsmLineOk (.egcd 0 1 1 0 0) := by
  unfold AsmLineOk
  decide

/-! ### Issue, completion, steps -/

/-- No input left, and the engine as the next input. -/
theorem witness_StepRunsTheCommandInFlight :
    sBusy.pend = some 0x000840C1#32 ∧ decode 0x000840C1#32 = some (.modexp 3 0 1 2) ∧ sBusy.inputs = [] ∧
    (sBusy.withInputs [.engine, .reset]).pend = some 0x000840C1#32 ∧
    (sBusy.withInputs [.engine, .reset]).inputs = [.engine, .reset] := by decide

theorem witness_CmdWriteWhileIdleIssues : sOps.pend = none ∧ sKey.pend = none ∧ decode 0x0000000C#32 = none := by decide

/-- Idle; busy; a step that issues; a step that clears CMD. -/
theorem witness_OnlyACmdWriteStartsACommand :
    sOps.pend = none ∧ sBusy.pend ≠ none ∧
    (step (sOps.withInputs [w32 w64 0x010 9#32]) = .next (sOps.withInputs [w32 w64 0x010 9#32]).afterStep ∧
      (sOps.withInputs [w32 w64 0x010 9#32]).pend = none ∧
      (sOps.withInputs [w32 w64 0x010 9#32]).afterStep.pend = some 9#32 ∧
      (sOps.withInputs [w32 w64 0x010 9#32]).afterStep.cmd ≠ (sOps.withInputs [w32 w64 0x010 9#32]).cmd) ∧
    (step (sBusy.withInputs [.reset]) = .next (sBusy.withInputs [.reset]).afterStep ∧
      (sBusy.withInputs [.reset]).afterStep.cmd ≠ (sBusy.withInputs [.reset]).cmd) :=
  ⟨by decide, by decide, ⟨rfl, by decide, by decide, by decide⟩, rfl, by decide⟩

theorem witness_EveryCommandCompletesWithinItsFrame :
    (Instr.mrtest 0 0 0).mnemonic ≠ .loadkey ∧ (Instr.loadkey 0).mnemonic ≠ .mrtest := by decide

theorem witness_EachCommandReportsOnlyItsErrors :
    (Instr.lcm 0 9 10).wellFormed = true ∧ sOps.Inv ∧ exec (.lcm 0 9 10) sOps = .next (nextOf (exec (.lcm 0 9 10) sOps) sOps) ∧
    (Instr.egcd 0 1 2 9 10).wellFormed = true ∧
    exec (.egcd 0 1 2 9 10) sOps = .next (nextOf (exec (.egcd 0 1 2 9 10) sOps) sOps) :=
  ⟨by decide, sOps_inv, rfl, by decide, rfl⟩

/-- Zero against negative zero, for a command with two sources and for MRTEST. -/
theorem witness_OutcomeDependsOnOperandValuesOnly :
    let s := sOps
    let s' := sOps.setReg 12 { sign := true, mag := 0 }
    s.reg 12 ≠ s'.reg 12 ∧
    (exec (.gcd 2 12 0) s = .next (nextOf (exec (.gcd 2 12 0) s) s) ∧
      exec (.gcd 2 12 0) s' = .next (nextOf (exec (.gcd 2 12 0) s') s') ∧
      ∀ r ∈ (Instr.gcd 2 12 0).sources, s.val r = s'.val r) ∧
    (exec (.mrtest 2 12 1) s = .next (nextOf (exec (.mrtest 2 12 1) s) s) ∧
      exec (.mrtest 2 12 1) s' = .next (nextOf (exec (.mrtest 2 12 1) s') s') ∧
      (∀ r ∈ (Instr.mrtest 2 12 1).sources, s.val r = s'.val r) ∧ s.source = s'.source) ∧
    s.config.limbs = s'.config.limbs ∧ s.key = s'.key := by
  intro s s'
  exact ⟨by decide, ⟨rfl, rfl, by decide⟩, ⟨rfl, rfl, by decide, by decide⟩, by decide, by decide⟩

/-! ### MODEXP, MONTMUL -/

/-- `m = 1` with `e = 0`; then `m = 0`, `m = -1`, `e = -1`. -/
theorem witness_ModexpWritesTheExactPower : sOps.InRange ∧ (0 < sOps.val 6 ∧ 0 ≤ sOps.val 12) ∧
    (sOps.val 12 ≤ 0 ∨ sOps.val 0 < 0) ∧ (sOps.val 3 ≤ 0 ∨ sOps.val 0 < 0) ∧ (sOps.val 2 ≤ 0 ∨ sOps.val 3 < 0) :=
  ⟨sOps_inRange, by decide⟩

/-- `N` = 1, 97 and `2^64 - 1`; then 0, -97 and 96. -/
theorem witness_MontmulWritesTheMontgomeryProduct : sOps.InRange ∧ (0 < sOps.val 6 ∧ sOps.val 6 % 2 = 1) ∧
    (0 < sOps.val 5 ∧ sOps.val 5 % 2 = 1) ∧ (0 < sOps.val 9 ∧ sOps.val 9 % 2 = 1) ∧
    (sOps.val 12 ≤ 0 ∨ sOps.val 12 % 2 = 0) ∧ (sOps.val 13 ≤ 0 ∨ sOps.val 13 % 2 = 0) ∧
    (sOps.val 7 ≤ 0 ∨ sOps.val 7 % 2 = 0) := ⟨sOps_inRange, by decide⟩

/-- `N = 97`: `R² mod N` is 61. -/
theorem witness_TwoMontmulsGiveTheProduct : sOps.InRange ∧ (14 : Reg) ≠ 8 ∧ (14 : Reg) ≠ 5 ∧ 0 < sOps.val 5 ∧
    sOps.val 5 % 2 = 1 ∧ sOps.val 8 = (montgomeryR (sOps.val 5) * montgomeryR (sOps.val 5)).fmod (sOps.val 5) :=
  ⟨sOps_inRange, by decide⟩

/-! ### GCD, EGCD, MODINV, LCM -/

theorem witness_GcdWritesTheGcd : sOps.InRange ∧ sKey.InRange := ⟨sOps_inRange, sKey_inv.in_range⟩

/-- Three different destinations; each pair of equal ones. -/
theorem witness_EgcdWritesBezoutCoefficients : sOps.config.wf = true ∧ sOps.InRange ∧
    ((0 : Reg) ≠ 1 ∧ (0 : Reg) ≠ 15 ∧ (1 : Reg) ≠ 15) ∧
    ((2 : Reg) = 2 ∨ (2 : Reg) = 4 ∨ (2 : Reg) = 4) ∧ ((2 : Reg) = 3 ∨ (2 : Reg) = 2 ∨ (3 : Reg) = 2) ∧
    ((2 : Reg) = 3 ∨ (2 : Reg) = 3 ∨ (3 : Reg) = 3) :=
  ⟨by decide, sOps_inRange, by decide⟩

/-- `m` = 1 and 97; `m` = 0 and -97; `gcd(4, 6) = 2`. -/
theorem witness_ModinvWritesTheInverse : sOps.InRange ∧
    (0 < sOps.val 6 ∧ Int.gcd (sOps.val 0) (sOps.val 6) = 1) ∧ (0 < sOps.val 5 ∧ Int.gcd (sOps.val 3) (sOps.val 5) = 1) ∧
    sOps.val 12 ≤ 0 ∧ sOps.val 13 ≤ 0 ∧ (0 < sOps.val 11 ∧ Int.gcd (sOps.val 0) (sOps.val 11) ≠ 1) :=
  ⟨sOps_inRange, by decide⟩

/-- The largest result that fits, `2^64 - 1`, and one operand 0; `lcm(2^64 - 1, 2^64 - 2)`; both operands 0. -/
theorem witness_LcmWritesTheLcmOrOverflows :
    (¬(sOps.val 9 = 0 ∧ sOps.val 6 = 0) ∧ Int.lcm (sOps.val 9) (sOps.val 6) < 2 ^ (32 * sOps.config.limbs)) ∧
    (¬(sOps.val 12 = 0 ∧ sOps.val 0 = 0) ∧ Int.lcm (sOps.val 12) (sOps.val 0) < 2 ^ (32 * sOps.config.limbs)) ∧
    (¬(sOps.val 9 = 0 ∧ sOps.val 10 = 0) ∧ 2 ^ (32 * sOps.config.limbs) ≤ Int.lcm (sOps.val 9) (sOps.val 10)) ∧
    (sOps.val 12 = 0 ∧ sOps.val 12 = 0) := by decide +kernel

/-! ### MRTEST, MRWIT -/

/-- `n = 5`, both witnesses of its range. -/
theorem witness_DrawsAreWitnessesInRange : 5 ≤ 5 ∧ (sCand.source.queue = 2 :: [3] ∧ 2 ≤ 2 ∧ 2 ≤ 5 - 2) ∧
    (({ queue := [3], drawn := 1 } : WitnessSource).queue = 3 :: [] ∧ 2 ≤ 3 ∧ 3 ≤ 5 - 2) := by decide

/-- Candidates -7, 0, 1, 2, 3, 4, decided; 5 and 15, not decided. -/
theorem witness_MrtestDrawsUntilAWitnessFails : sCand.config.wf = true ∧
    (PreDecided (sCand.val 7) 0 ∧ PreDecided (sCand.val 15) 0 ∧ PreDecided (sCand.val 0) 0 ∧ PreDecided (sCand.val 1) 1 ∧
      PreDecided (sCand.val 2) 1 ∧ PreDecided (sCand.val 3) 0) ∧
    (sCand.val 4 = (5 : Nat) ∧ 5 ≤ 5 ∧ 5 % 2 = 1) ∧ (sCand.val 6 = (15 : Nat) ∧ 5 ≤ 15 ∧ 15 % 2 = 1) := by
  unfold PreDecided
  decide

/-- The same candidates; for 5 the witnesses 1 and 4, just outside, and 2 and 3, the range itself. -/
theorem witness_MrwitWritesTheRoundsVerdict : sCand.config.wf = true ∧
    (PreDecided (sCand.val 0) 0 ∧ PreDecided (sCand.val 1) 1 ∧ PreDecided (sCand.val 2) 1 ∧ PreDecided (sCand.val 3) 0) ∧
    (5 ≤ sCand.val 4 ∧ sCand.val 4 % 2 = 1 ∧ (sCand.val 0 < 2 ∨ sCand.val 4 - 2 < sCand.val 0)) ∧
    (5 ≤ sCand.val 4 ∧ sCand.val 4 % 2 = 1 ∧ (sCand.val 3 < 2 ∨ sCand.val 4 - 2 < sCand.val 3)) ∧
    (sCand.val 4 = (5 : Nat) ∧ sCand.val 1 = (2 : Nat) ∧ 5 ≤ 5 ∧ 5 % 2 = 1 ∧ 2 ≤ 2 ∧ 2 ≤ 5 - 2) ∧
    (sCand.val 4 = (5 : Nat) ∧ sCand.val 2 = (3 : Nat) ∧ 2 ≤ 3 ∧ 3 ≤ 5 - 2) := by
  unfold PreDecided
  decide

/-- Primes 2, 3, 5, 97; for 5 the witnesses 2 and 3; candidate 15, answered 0 by both commands. -/
theorem witness_PrimesPassEveryRound : sCand.config.wf = true ∧
    (sCand.val 1 = (2 : Nat) ∧ Nat.Prime 2) ∧ (sCand.val 2 = (3 : Nat) ∧ Nat.Prime 3) ∧
    (sCand.val 5 = (97 : Nat) ∧ Nat.Prime 97) ∧
    (sCand.val 4 = (5 : Nat) ∧ Nat.Prime 5 ∧ 2 ≤ sCand.val 1 ∧ sCand.val 1 ≤ (5 : Nat) - 2 ∧ 2 ≤ sCand.val 2 ∧
      sCand.val 2 ≤ (5 : Nat) - 2) ∧
    (exec (.mrtest 8 6 1) sCand = .next (nextOf (exec (.mrtest 8 6 1) sCand) sCand) ∧
      (nextOf (exec (.mrtest 8 6 1) sCand) sCand).Holds 8 0) ∧
    (exec (.mrwit 8 6 1) sCand = .next (nextOf (exec (.mrwit 8 6 1) sCand) sCand) ∧
      (nextOf (exec (.mrwit 8 6 1) sCand) sCand).Succeeded ∧ (nextOf (exec (.mrwit 8 6 1) sCand) sCand).Holds 8 0) := by
  refine ⟨by decide, ⟨by decide, by norm_num⟩, ⟨by decide, by norm_num⟩, ⟨by decide, by norm_num⟩,
    ⟨by decide, by norm_num, by decide⟩, ⟨rfl, ?_⟩, rfl, ⟨by decide, by decide, by decide, by decide⟩, ?_⟩ <;>
  · unfold State.Holds; decide

/-- Candidate 5, the listed answers 2 and 3, two rounds. -/
theorem witness_MrtestIsTheAndOfMrwits : sCand.config.wf = true ∧ (4 : Reg) ≠ 9 ∧ sCand.val 4 = (5 : Nat) ∧ 5 ≤ 5 ∧
    5 % 2 = 1 ∧ sCand.source.queue.length = (2 : Rounds).val ∧ (∀ a ∈ sCand.source.queue, 2 ≤ a ∧ a ≤ 5 - 2) ∧
    exec (.mrtest 8 4 2) sCand = .next (nextOf (exec (.mrtest 8 4 2) sCand) sCand) :=
  ⟨by decide, by decide, by decide, by decide, by decide, by decide, by decide, rfl⟩

/-! ### LOADKEY, HADD, HSCALE -/

/-- No key: `n` = 2 and `2^32 - 1`, the bounds of what fits; 1 and `2^32`, just outside; a ready key. -/
theorem witness_LoadkeyLoadsThePublicKey :
    let s := small [(0, 2), (1, 4294967295), (2, 1), (3, 4294967296)]
    (s.key.ready = false ∧ 2 ≤ s.val 0 ∧ s.val 0 * s.val 0 < 2 ^ (32 * s.config.limbs)) ∧
    (2 ≤ s.val 1 ∧ s.val 1 * s.val 1 < 2 ^ (32 * s.config.limbs)) ∧ sKey.key.ready = true ∧
    (s.val 2 < 2 ∨ 2 ^ (32 * s.config.limbs) ≤ s.val 2 * s.val 2) ∧
    (s.val 3 < 2 ∨ 2 ^ (32 * s.config.limbs) ≤ s.val 3 * s.val 3) := by decide

/-- A ready key and an absent one. -/
theorem witness_HaddMultipliesCiphertexts : (sKey.key.Inv sKey.config.bound ∧ sKey.key.ready = true) ∧
    (sOps.key.Inv sOps.config.bound ∧ sOps.key.ready = false) := ⟨⟨sKey_key, by decide⟩, sOps_inv.key_inv, by decide⟩

/-- `k = 0` and `k = -1` with a key; no key. -/
theorem witness_HscaleRaisesCiphertexts : (sKey.key.Inv sKey.config.bound ∧ sKey.key.ready = true ∧ 0 ≤ sKey.val 15) ∧
    (sOps.key.Inv sOps.config.bound ∧ sOps.key.ready = false) ∧ (sKey.key.ready = true ∧ sKey.val 7 < 0) :=
  ⟨⟨sKey_key, by decide⟩, ⟨sOps_inv.key_inv, by decide⟩, by decide⟩

/-- A step and a reset with a key; the completion of a LOADKEY; an absent and a ready key. -/
theorem witness_KeySlotHasTwoStates :
    (step sKey = .next sKey.afterStep ∧ sKey.key.ready = true) ∧
    (step (sKey.withInputs [.reset]) = .next (sKey.withInputs [.reset]).afterStep ∧
      (sKey.withInputs [.reset]).key.ready = true) ∧
    (step (sOps.issue 0x00000009#32) = .next (sOps.issue 0x00000009#32).afterStep ∧
      (sOps.issue 0x00000009#32).key.ready = false ∧
      (sOps.issue 0x00000009#32).afterStep.key ≠ (sOps.issue 0x00000009#32).key) ∧ sOps.key.ready = false :=
  ⟨⟨rfl, by decide⟩, ⟨rfl, by decide⟩, ⟨rfl, by decide, by decide⟩, by decide⟩

/-! ### Compositions: `p = 17`, `q = 19`, `n = 323`, `lambda = 144`, `mu = 83` -/

theorem witness_EncryptCompositionComputesTheCiphertext :
    ([15, 1, 2, 3, 0, 12, 13, 14] : List Reg).Nodup ∧ sKey.Inv ∧ sKey.key.ready = true ∧ sKey.val 2 = sKey.key.n ∧
    sKey.val 3 = sKey.key.g ∧ 0 ≤ sKey.val 0 := ⟨by decide, sKey_inv, by decide⟩

theorem paillierKey_323 : PaillierKey 17 19 323 144 83 where
  p_prime := by norm_num
  q_prime := by norm_num
  ne := by decide
  n_eq := by decide
  lambda_eq := by decide
  mu_inv := by decide

/-- The largest plaintext, 322. -/
theorem witness_PaillierRoundTrip : PaillierKey 17 19 323 144 83 ∧ sKey.Inv ∧ sKey.HasKey 323 ∧ 322 < 323 ∧
    Nat.Coprime 2 323 ∧ ([0, 1, 2, 3, 4, 5, 12, 13, 14, 15] : List Reg).Nodup ∧ sKey.val 0 = (322 : Nat) ∧
    sKey.val 1 = (2 : Nat) ∧ sKey.val 2 = (323 : Nat) ∧ sKey.val 3 = ((323 : Nat) : Int) + 1 ∧ sKey.val 4 = (144 : Nat) ∧
    sKey.val 5 = ((323 : Nat) : Int) * (323 : Nat) :=
  ⟨paillierKey_323, sKey_inv, ⟨by decide, by decide⟩, by decide, by decide, by decide, by decide⟩

theorem sKey_r10 : IsEncryption 323 322 2 (sKey.val 10) := by unfold IsEncryption; decide +kernel
theorem sKey_r11 : IsEncryption 323 1 3 (sKey.val 11) := by unfold IsEncryption; decide +kernel

/-- `322 + 1` wraps to 0. -/
theorem witness_PaillierAdditionLaw : PaillierKey 17 19 323 144 83 ∧ sKey.Inv ∧ sKey.HasKey 323 ∧ Nat.Coprime 2 323 ∧
    Nat.Coprime 3 323 ∧ ([10, 11, 12, 4, 5, 13] : List Reg).Nodup ∧ IsEncryption 323 322 2 (sKey.val 10) ∧
    IsEncryption 323 1 3 (sKey.val 11) ∧ sKey.val 4 = (144 : Nat) ∧ sKey.val 5 = ((323 : Nat) : Int) * (323 : Nat) :=
  ⟨paillierKey_323, sKey_inv, ⟨by decide, by decide⟩, by decide, by decide, by decide, sKey_r10, sKey_r11, by decide⟩

/-- `k = 0` and `k = 3`. -/
theorem witness_PaillierScalingLaw : PaillierKey 17 19 323 144 83 ∧ sKey.Inv ∧ sKey.HasKey 323 ∧ Nat.Coprime 2 323 ∧
    ([10, 6, 12, 4, 5, 13] : List Reg).Nodup ∧ ([10, 15, 12, 4, 5, 13] : List Reg).Nodup ∧
    IsEncryption 323 322 2 (sKey.val 10) ∧ sKey.val 6 = (3 : Nat) ∧ sKey.val 15 = (0 : Nat) ∧ sKey.val 4 = (144 : Nat) ∧
    sKey.val 5 = ((323 : Nat) : Int) * (323 : Nat) :=
  ⟨paillierKey_323, sKey_inv, ⟨by decide, by decide⟩, by decide, by decide, by decide, sKey_r10, by decide⟩

/-! ### The bus -/

theorem writes (v : Word) : (BusOp.write v).isWrite := ⟨v, rfl⟩

theorem witness_refused_size : RefusalCause sOps .w16 0x008 .read ∧ RefusalCause sOps (.burst 4) 0x1000 .read := by
  constructor <;> exact .inl (by decide)
theorem witness_refused_alignment : RefusalCause sOps .w32 0x001 .read ∧ RefusalCause sOps .w32 0x3FFF .read := by
  constructor <;> exact .inl (by decide)
theorem witness_refused_unmapped : RefusalCause sOps .w32 0x024 .read ∧ RefusalCause sOps .w32 0x0FFC .read ∧
    RefusalCause sOps .w32 0x3000 .read ∧ RefusalCause sOps .w32 0x3FFC .read := by
  refine ⟨?_, ?_, ?_, ?_⟩ <;> exact .inr (.inl (by decide))
/-- The first limb beyond `W = 64`, and the last of the window. -/
theorem witness_refused_limb : RefusalCause sOps .w32 0x1008 .read ∧ RefusalCause sOps .w32 0x2FFC .read := by
  constructor <;> exact .inr (.inr (.inl (by unfold inWindow; decide)))
theorem witness_refused_selection : RefusalCause (sOps.selecting 19#5) .w32 0x1000 .read ∧
    RefusalCause (sOps.selecting 31#5) .w32 0x018 .read := by
  constructor <;> exact .inr (.inr (.inr (.inl (by unfold inWindow; decide))))
theorem witness_refused_key_write : RefusalCause (sOps.selecting 16#5) .w32 0x1000 (.write 1#32) ∧
    RefusalCause (sOps.selecting 18#5) .w32 0x018 (.write 1#32) := by
  constructor <;> exact .inr (.inr (.inr (.inr (.inl ⟨by unfold inWindow; decide, writes _, by decide⟩))))
theorem witness_refused_busy : RefusalCause sBusy .w32 0x1000 .read ∧ RefusalCause sBusy .w32 0x018 .read ∧
    RefusalCause sBusy .w32 0x020 (.write 0#32) :=
  ⟨.inr (.inr (.inr (.inr (.inr (.inl ⟨by decide, .inl (by unfold inWindow; decide)⟩))))),
    .inr (.inr (.inr (.inr (.inr (.inl ⟨by decide, .inr (.inl rfl)⟩))))),
    .inr (.inr (.inr (.inr (.inr (.inl ⟨by decide, .inr (.inr ⟨rfl, writes _⟩)⟩)))))⟩
theorem witness_refused_regclr : RefusalCause sOps .w32 0x020 (.write 16#32) ∧ RefusalCause sOps .w32 0x020 (.write 31#32) := by
  constructor <;> exact .inr (.inr (.inr (.inr (.inr (.inr ⟨rfl, _, rfl, by decide⟩)))))

/-- An aligned 32-bit read of a control register, idle or busy, has no cause. -/
theorem read_has_no_cause (s : State) :
    ∀ off ∈ [0x000, 0x004, 0x008, 0x00C, 0x010, 0x014, 0x01C, 0x020], ¬RefusalCause s .w32 off .read := by
  simp [RefusalCause, inWindow, BusOp.isWrite]

/-- So has a write of ID, PARAM, CTRL, CMD, SEL, KEYINFO. -/
theorem write_has_no_cause (s : State) (v : Word) :
    ∀ off ∈ [0x000, 0x004, 0x008, 0x010, 0x014, 0x01C], ¬RefusalCause s .w32 off (.write v) := by
  simp [RefusalCause, inWindow, BusOp.isWrite]

theorem served_limb : ¬RefusalCause sOps .w32 0x1000 (.write 1#32) ∧ ¬RefusalCause sOps .w32 0x1004 .read ∧
    ¬RefusalCause (sOps.selecting 18#5) .w32 0x1004 .read ∧ ¬RefusalCause (sOps.selecting 15#5) .w32 0x018 (.write 1#32) := by
  have h : sOps.config.limbs = 2 ∧ sOps.sel = 0#5 ∧ sOps.pend = none := by decide
  refine ⟨?_, ?_, ?_, ?_⟩ <;> simp [RefusalCause, inWindow, BusOp.isWrite, State.selecting, h]

/-- Each cause is met (the theorems above); accesses with none, reads and writes, the two ends of the limbs; values
that agree on the bits that count; the first and the last bus address of the block. -/
theorem witness_AccessesAreRefusedExactlyForTheListedCauses :
    RefusalCause sOps .w32 0x3FFC .read ∧ RefusalCause sBusy .w32 0x020 (.write 0#32) ∧
    ¬RefusalCause sBusy .w32 0x020 .read ∧ ¬RefusalCause sBusy .w32 0x01C (.write 1#32) ∧
    ¬RefusalCause sOps .w32 0x000 (.write 1#32) ∧ ¬RefusalCause sOps .w32 0x1000 (.write 1#32) ∧
    (0xFFFFFFE3#32 : Word).toNat % 32 = (3#32 : Word).toNat % 32 ∧ (0xFFFFFFE3#32 : Word).toNat % 2 = (3#32 : Word).toNat % 2 ∧
    ((0x12#32 : Word).toNat / 2 % 2 = (0xFF16#32 : Word).toNat / 2 % 2 ∧
      (0x12#32 : Word).toNat / 16 % 4 = (0xFF16#32 : Word).toNat / 16 % 4) ∧
    (State.reset.config.base ≤ 0x40000000 ∧ 0x40000000 < State.reset.config.base + 0x4000) ∧
    (State.reset.config.base ≤ 0x40003FFF ∧ 0x40003FFF < State.reset.config.base + 0x4000) :=
  ⟨witness_refused_unmapped.2.2.2, witness_refused_busy.2.2, read_has_no_cause _ _ (by decide),
    write_has_no_cause _ _ _ (by decide), write_has_no_cause _ _ _ (by decide), served_limb.1, by decide⟩

theorem witness_ServedReadsHaveNoSideEffect : (0x020 < 0x4000 ∧ ¬RefusalCause sBusy .w32 0x020 .read) ∧
    (0x1004 < 0x4000 ∧ ¬RefusalCause sOps .w32 0x1004 .read) ∧
    (0x1004 < 0x4000 ∧ ¬RefusalCause (sOps.selecting 18#5) .w32 0x1004 .read) :=
  ⟨⟨by decide, read_has_no_cause _ _ (by decide)⟩, ⟨by decide, served_limb.2.1⟩, by decide, served_limb.2.2.1⟩

theorem witness_BusyEngineShieldsItsRegisters : sBusy.pend ≠ none ∧ 0 ≤ 2047 ∧ 2047 ≤ 2047 ∧ 0x3FFF < 0x4000 := by decide

/-- Limbs 0 and 1 of `W = 64`, with SEL 0, 15, 16, 17, 18; refused: limb 2, limb 2047, SEL 19, busy, a key write. -/
theorem witness_WindowReadsAndWritesOneLimb :
    (0 ≤ 2047 ∧ sOps.pend = none ∧ 0 < sOps.config.limbs ∧ 1 < sOps.config.limbs) ∧
    (sOps.sel.toNat = (0 : Reg).val ∧ (sOps.selecting 15#5).sel.toNat = (15 : Reg).val ∧
      (sOps.selecting 16#5).sel.toNat = 16 ∧ (sOps.selecting 17#5).sel.toNat = 17 ∧ (sOps.selecting 18#5).sel.toNat = 18) ∧
    (2047 ≤ 2047 ∧ (sBusy.pend ≠ none ∨ sBusy.config.limbs ≤ 0 ∨ 19 ≤ sBusy.sel.toNat)) ∧
    (sOps.pend ≠ none ∨ sOps.config.limbs ≤ 2 ∨ 19 ≤ sOps.sel.toNat) ∧
    (sOps.pend ≠ none ∨ sOps.config.limbs ≤ 0 ∨ 19 ≤ (sOps.selecting 19#5).sel.toNat) ∧
    (sOps.pend ≠ none ∨ sOps.config.limbs ≤ 0 ∨ 16 ≤ (sOps.selecting 16#5).sel.toNat) := by decide

/-- The first and the last byte of a word and of a register of `W = 64`. -/
theorem witness_WindowBytesAreLittleEndian :
    (0x010 % 4 = 0 ∧ 0 < 4 ∧ 3 < 4 ∧ sBusy.peek (locate 0x010) = some 0x000840C1#32) ∧
    (sOps.config.limbs ≤ 2048 ∧ sOps.pend = none ∧ sOps.sel.toNat = (0 : Reg).val ∧ 0 < 4 * sOps.config.limbs ∧
      7 < 4 * sOps.config.limbs) := by decide

/-- SEL 0 and 15, 16 and 18, 19 and 31; busy. -/
theorem witness_SignRegisterShowsTheSelectedSign : sOps.pend = none ∧ sOps.sel.toNat = (0 : Reg).val ∧
    (sOps.selecting 15#5).sel.toNat = (15 : Reg).val ∧ (sOps.selecting 15#5).pend = none ∧
    16 ≤ (sOps.selecting 16#5).sel.toNat ∧ (sOps.selecting 18#5).sel.toNat ≤ 18 ∧ 19 ≤ (sOps.selecting 19#5).sel.toNat ∧
    19 ≤ (sOps.selecting 31#5).sel.toNat ∧ sBusy.pend ≠ none := by decide

theorem witness_RegclrClearsOneRegister : sOps.pend = none ∧ (0#32 : Word).toNat % 32 = (0 : Reg).val ∧
    (0xFFFFFFEF#32 : Word).toNat % 32 = (15 : Reg).val ∧ (16 ≤ (16#32 : Word).toNat % 32 ∨ sOps.pend ≠ none) ∧
    (16 ≤ (31#32 : Word).toNat % 32 ∨ sOps.pend ≠ none) ∧ (16 ≤ (0#32 : Word).toNat % 32 ∨ sBusy.pend ≠ none) := by decide

/-- Idle; busy; a refused read of the last offset and a refused write. -/
theorem witness_StatusFieldsAndWriteOneToClear :
    sOps.pend = none ∧ sBusy.pend = some 0x000840C1#32 ∧ sBusy.pend ≠ none ∧
    (0x3FFF < 0x4000 ∧ RefusalCause sOps .w32 0x3FFF .read) ∧
    (0x020 < 0x4000 ∧ RefusalCause sBusy .w32 0x020 (.write 0#32)) :=
  ⟨by decide, by decide, by decide, ⟨by decide, witness_refused_alignment.2⟩, by decide, witness_refused_busy.2.2⟩

/-- The least and the greatest `W`. -/
theorem witness_IdParamCtrlSelFields : sOps.config.wf = true ∧
    ({ limbs := 2048, base := 0x4000, irqRoute := { line := 0, priority := 0 } } : Config).wf = true := by decide

theorem witness_KeyinfoShowsTheModulusLength : sKey.Inv ∧ sOps.Inv ∧ sOps.key.ready = false :=
  ⟨sKey_inv, sOps_inv, by decide⟩

/-! ### Host pseudo-operations -/

/-- The value of largest magnitude, negative. -/
theorem witness_SetregLeavesTheValue : sOps.config.wf = true ∧ sOps.pend = none ∧
    (-18446744073709551615 : Int).natAbs < sOps.config.bound ∧ (0 : Int).natAbs < sOps.config.bound := by decide

theorem witness_GetregGivesTheValue : sKey.config.wf = true ∧ sKey.pend = none ∧ sKey.InRange ∧
    sKey.key.Inv sKey.config.bound := ⟨by decide, by decide, sKey_inv.in_range, sKey_key⟩

theorem witness_RunReadsTheCompletedStatus : sOps.pend = none := by decide

/-- A write, a read and the engine; the empty list. -/
theorem witness_InputsAreServedInOrder :
    (∃ t, feed [w32 w64 0x010 0x00004083#32, r32 w64 0x00C, .engine, .reset] sOps = .next ([0x00000001#32], t)) ∧
    feed [] sOps = .next ([], sOps) := ⟨⟨_, rfl⟩, rfl⟩

/-! ### Registers, interrupt, reset -/

/-- A command, a limb, SIGN, REGCLR, a reset. -/
theorem witness_RegistersChangeOnlyByCommandHostOrReset :
    (step sBusy = .next sBusy.afterStep ∧ sBusy.afterStep.reg 3 ≠ sBusy.reg 3) ∧
    (∀ i ∈ [w32 w64 0x1004 1#32, w32 w64 0x018 1#32, w32 w64 0x020 0#32, .reset],
      (sOps.withInputs [i]).afterStep.reg 0 ≠ (sOps.withInputs [i]).reg 0) ∧
    step (sOps.withInputs [w32 w64 0x1004 1#32]) = .next (sOps.withInputs [w32 w64 0x1004 1#32]).afterStep ∧
    step (sOps.withInputs [w32 w64 0x018 1#32]) = .next (sOps.withInputs [w32 w64 0x018 1#32]).afterStep ∧
    step (sOps.withInputs [w32 w64 0x020 0#32]) = .next (sOps.withInputs [w32 w64 0x020 0#32]).afterStep ∧
    step (sOps.withInputs [.reset]) = .next (sOps.withInputs [.reset]).afterStep :=
  ⟨⟨step_afterStep (by decide), by decide⟩, by decide, step_afterStep (by decide), step_afterStep (by decide),
    step_afterStep (by decide), step_afterStep (by decide)⟩

theorem witness_IrqFollowsCompletion : sBusy.pend = some 0x000840C1#32 ∧
    (step sBusy = .next sBusy.afterStep ∧ sBusy.status.done = false ∧ sBusy.afterStep.status.done = true) ∧
    (2#32 : Word).toNat / 2 % 2 = 1 ∧ sOps.pend = none ∧ (0#32 : Word).toNat % 2 = 0 ∧ sBusy.pend ≠ none ∧
    (0x3FFF < 0x4000 ∧ RefusalCause sOps .w32 0x3FFF .read) :=
  ⟨by decide, ⟨step_afterStep (by decide), by decide⟩, by decide, by decide, by decide, by decide, by decide,
    witness_refused_alignment.2⟩

/-- A reset with a command in flight and an input after it. -/
theorem witness_ResetGivesEveryResetValue : (sBusy.withInputs [.reset, .engine]).inputs = .reset :: [.engine] := by decide

theorem witness_ResetSatisfiesTheInvariant : w64.wf = true ∧
    ({ limbs := 2048, base := 0x4000, irqRoute := { line := 0, priority := 0 } } : Config).wf = true := by decide

/-! ### Invariants and whole runs -/

/-- The engine, an access and a reset. -/
theorem witness_EveryStepKeepsTheInvariant : (sBusy.Inv ∧ step sBusy = .next sBusy.afterStep) ∧
    ((sOps.withInputs [w32 w64 0x1004 0xFFFFFFFF#32]).Inv ∧ step (sOps.withInputs [w32 w64 0x1004 0xFFFFFFFF#32])
      = .next (sOps.withInputs [w32 w64 0x1004 0xFFFFFFFF#32]).afterStep) ∧
    ((sBusy.withInputs [.reset]).Inv ∧ step (sBusy.withInputs [.reset]) = .next (sBusy.withInputs [.reset]).afterStep) :=
  ⟨⟨sBusy_inv, step_afterStep (by decide)⟩,
    ⟨inv_of (by decide) (by decide) (.inl (by decide)) (by decide) (.inl (by decide)), step_afterStep (by decide)⟩,
    inv_of (by decide) (by decide) (.inl (by decide)) (by decide) (.inr (by decide)), step_afterStep (by decide)⟩

/-- The first and the last address of the block; the addresses just outside. -/
theorem witness_NoStepStopsInsideTheBlock :
    (State.reset.withInputs [r32 Config.reference 0x000, r32 Config.reference 0x3FFF, .engine]).inputsAddressed ∧
    (∀ a ∈ [0x3FFFFFFF, 0x40004000], ∀ t,
      step (State.reset.withInputs [.access { addr := a, size := .w32, op := .read }]) ≠ .next t) := by
  refine ⟨by unfold State.inputsAddressed; decide, ?_⟩
  intro a ha t
  simp only [List.mem_cons, List.not_mem_nil, or_false] at ha
  rcases ha with rfl | rfl <;> exact nofun

theorem witness_CommandsInFlightComplete : (sBusy.withInputs [r32 w64 0x00C]).inputsAddressed ∧
    (sBusy.withInputs [r32 w64 0x00C]).pend ≠ none ∧ sBusy.inputsAddressed ∧ sBusy.pend ≠ none := by
  unfold State.inputsAddressed
  decide

end Sys2Proof.Machine
end

section
/-! SUPPORT. The encoded word as a number, and decoding of an encoded command (30_encoding.md R50 to R59). -/

namespace Sys2Proof

/-! ## Operands as fields -/

@[simp] theorem regBits_toNat (r : Reg) : (regBits r).toNat = r.val := rfl

@[simp] theorem regBits_toFin (r : Reg) : (regBits r).toFin = r := rfl

/-- The two halves of the rounds immediate, each shifted into its own field, make up the immediate at bit 14 (R54, R56). -/
theorem roundsLow_add_roundsHigh (k : Rounds) :
    (roundsLow k).toNat * 2 ^ 14 + (roundsHigh k).toNat * 2 ^ 18 = k.val * 2 ^ 14 := by
  have hk : k.val < 256 := k.isLt
  simp only [roundsLow, roundsHigh, BitVec.toNat_ofNat]
  omega

/-! ## The word of a command as a number, one lemma per format (R51 to R55) -/

section
variable (op : BitVec 6) (rd rs1 rs2 rs3 rdx rdy : Reg)

theorem packWord_r4_toNat : (packWord op (regBits rd) (regBits rs1) (regBits rs2) (regBits rs3) 0#4).toNat =
    op.toNat + rd * 2 ^ 6 + rs1 * 2 ^ 10 + rs2 * 2 ^ 14 + rs3 * 2 ^ 18 := by
  simp [packWord_toNat]

theorem packWord_r3_toNat : (packWord op (regBits rd) (regBits rs1) (regBits rs2) 0#4 0#4).toNat =
    op.toNat + rd * 2 ^ 6 + rs1 * 2 ^ 10 + rs2 * 2 ^ 14 := by
  simp [packWord_toNat]

theorem packWord_e_toNat :
    (packWord op (regBits rd) (regBits rs1) (regBits rs2) (regBits rdx) (regBits rdy)).toNat =
      op.toNat + rd * 2 ^ 6 + rs1 * 2 ^ 10 + rs2 * 2 ^ 14 + rdx * 2 ^ 18 + rdy * 2 ^ 22 := by
  simp [packWord_toNat]

theorem packWord_i_toNat (k : Rounds) :
    (packWord op (regBits rd) (regBits rs1) (roundsLow k) (roundsHigh k) 0#4).toNat =
      op.toNat + rd * 2 ^ 6 + rs1 * 2 ^ 10 + k * 2 ^ 14 := by
  have hk := roundsLow_add_roundsHigh k
  simp only [packWord_toNat, regBits_toNat, BitVec.toNat_zero]
  omega

theorem packWord_k_toNat : (packWord op 0#4 (regBits rs1) 0#4 0#4 0#4).toNat = op.toNat + rs1 * 2 ^ 10 := by
  simp [packWord_toNat]

end

/-- Settles O4: each command's word is the packed word of its format, and `packWord_toNat` makes that a sum. -/
theorem encodedWordIsTheSumOfItsFields : Obligations.EncodedWordIsTheSumOfItsFields := by
  unfold Obligations.EncodedWordIsTheSumOfItsFields
  intro rd rs1 rs2 rs3 rdx rdy k
  exact ⟨packWord_r4_toNat .., packWord_r4_toNat .., packWord_r3_toNat .., packWord_e_toNat ..,
    packWord_r3_toNat .., packWord_r3_toNat .., packWord_i_toNat .., packWord_r3_toNat ..,
    packWord_k_toNat .., packWord_r3_toNat .., packWord_r3_toNat ..⟩

/-! ## Decoding an encoded command (R58) -/

/-- Every command's word carries its opcode and no reserved bit of its format (R51 to R57). -/
theorem encode_shape (i : Instr) : Laws.EncodingShape.Statement i := by
  cases i with
  | modexp => exact Laws.EncodingShape.modexp ..
  | montmul => exact Laws.EncodingShape.montmul ..
  | gcd => exact Laws.EncodingShape.gcd ..
  | egcd => exact Laws.EncodingShape.egcd ..
  | modinv => exact Laws.EncodingShape.modinv ..
  | lcm => exact Laws.EncodingShape.lcm ..
  | mrtest => exact Laws.EncodingShape.mrtest ..
  | mrwit => exact Laws.EncodingShape.mrwit ..
  | loadkey => exact Laws.EncodingShape.loadkey ..
  | hadd => exact Laws.EncodingShape.hadd ..
  | hscale => exact Laws.EncodingShape.hscale ..

/-- A word with the opcode of `m` and no reserved bit of its format decodes to the operands of `m` (R58). -/
theorem decode_of_shape {m : Mnemonic} {w : Word} (hop : opField w = m.opcode)
    (hres : reservedBitSet m.format w = false) : decode w = operandsOf m w := by
  simp [decode, hop, hres]

/-- The operand fields of a command's word are the command's operands; a well-formed EGCD passes the check of R58
that its three destinations differ. -/
theorem operandsOf_encode (i : Instr) (hwf : i.wellFormed = true) : operandsOf i.mnemonic (encode i) = some i := by
  cases i with
  | egcd rd rdx rdy rs1 rs2 =>
    have hdistinct : distinct3 rd rdx rdy = true := hwf
    simp [operandsOf, encode, Instr.mnemonic, regField_packWord, hdistinct]
  | mrtest rd rs1 k =>
    simp [operandsOf, encode, Instr.mnemonic, regField_packWord, roundsField_packWord, roundsHigh_append_roundsLow]
  | _ => simp [operandsOf, encode, Instr.mnemonic, regField_packWord]

/-- Decoding inverts encoding on the commands of R59: EGCD only with three different destinations. -/
theorem decode_encode (i : Instr) (hwf : i.wellFormed = true) : decode (encode i) = some i := by
  obtain ⟨hop, hres⟩ := encode_shape i
  rw [decode_of_shape hop hres, operandsOf_encode i hwf]

/-- Settles O2: the encoded word has the command's opcode and no reserved bit, so decoding reads its operands back. -/
theorem decodeAfterEncodeIsIdentity : Obligations.DecodeAfterEncodeIsIdentity := by
  unfold Obligations.DecodeAfterEncodeIsIdentity
  exact decode_encode

end Sys2Proof
end

section
/-! SUPPORT. What an access of each register of the block does (10_state.md R21 to R29), which accesses are refused, how a
command ends, and the statements about the registers and the interrupt line. -/

namespace Sys2Proof.Machine

/-! ## Words as numbers -/

/-- Bit `i` of a word is the parity of its quotient by `2^i`. -/
theorem getLsbD_eq_decide {n : Nat} (v : BitVec n) (i : Nat) : v.getLsbD i = decide (v.toNat / 2 ^ i % 2 = 1) :=
  Nat.testBit_eq_decide_div_mod_eq

/-- Appended fields add up, the upper one at its place. -/
theorem toNat_append_eq_add {m n : Nat} (x : BitVec m) (y : BitVec n) :
    (x ++ y).toNat = x.toNat * 2 ^ n + y.toNat := by
  rw [BitVec.toNat_append, ← Nat.shiftLeft_add_eq_or_of_lt y.isLt, Nat.shiftLeft_eq]

theorem toNat_lowFive (v : Word) : (v.extractLsb' 0 5).toNat = v.toNat % 32 := by simp

/-- `bitlen` of a natural number is Mathlib's `Nat.size` (R12). -/
theorem bitlen_natCast (n : Nat) : bitlen n = Nat.size n :=
  eq_of_forall_ge_iff fun k => by rw [bitlen_le_iff, Nat.size_le, Int.natAbs_natCast]

/-! ## An access by the location it names (R36, R37) -/

theorem State.serve_read_aligned (s : State) {off : Nat} (h : off % 4 = 0) :
    s.serve .w32 off .read = s.serveRead (locate off) := by
  simp [State.serve, accessDefined, h]

theorem State.serve_write_aligned (s : State) {off : Nat} (h : off % 4 = 0) (v : Word) :
    s.serve .w32 off (.write v) = s.serveWrite v (locate off) := by
  simp [State.serve, accessDefined, h]

theorem State.serve_undefined (s : State) {size : AccessSize} {off : Nat} (h : accessDefined size off = false)
    (op : BusOp) : s.serve size off op = s.refuse op := by
  simp [State.serve, h]

theorem accessDefined_eq_true_iff (size : AccessSize) (off : Nat) :
    accessDefined size off = true ↔ size = .w32 ∧ off % 4 = 0 := by
  simp [accessDefined]

theorem State.serveRead_of_peek {s : State} {l : Location} {v : Word} (h : s.peek l = some v) :
    s.serveRead l = { s with readData := v } := by
  simp [State.serveRead, h]

theorem State.serveRead_refused {s : State} {l : Location} (h : s.peek l = none) : s.serveRead l = s.refuseRead := by
  simp [State.serveRead, h]

theorem State.serveWrite_of_poke {s t : State} {l : Location} {v : Word} (h : s.poke v l = some t) :
    s.serveWrite v l = t := by
  simp [State.serveWrite, h]

theorem State.serveWrite_refused {s : State} {l : Location} {v : Word} (h : s.poke v l = none) :
    s.serveWrite v l = s.refuseWrite := by
  simp [State.serveWrite, h]

/-! ## The registers that are never refused, idle or busy (R21 to R26, R28, R29) -/

section
variable (s : State) (v : Word)

theorem State.serve_read_id : s.serve .w32 0x000 .read = { s with readData := idWord } := rfl
theorem State.serve_read_param : s.serve .w32 0x004 .read = { s with readData := s.paramWord } := rfl
theorem State.serve_read_ctrl : s.serve .w32 0x008 .read = { s with readData := s.ctrlWord } := rfl
theorem State.serve_read_status : s.serve .w32 0x00C .read = { s with readData := s.statusWord } := rfl
theorem State.serve_read_cmd : s.serve .w32 0x010 .read = { s with readData := s.cmd } := rfl
theorem State.serve_read_sel : s.serve .w32 0x014 .read = { s with readData := s.selWord } := rfl
theorem State.serve_read_keyInfo : s.serve .w32 0x01C .read = { s with readData := s.keyInfoWord } := rfl
theorem State.serve_read_regClr : s.serve .w32 0x020 .read = { s with readData := 0x00000000#32 } := rfl

theorem State.serve_write_id : s.serve .w32 0x000 (.write v) = s := rfl
theorem State.serve_write_param : s.serve .w32 0x004 (.write v) = s := rfl
theorem State.serve_write_ctrl : s.serve .w32 0x008 (.write v) = { s with ie := v.getLsbD 0 } := rfl
theorem State.serve_write_status : s.serve .w32 0x00C (.write v) = s.acknowledge v := rfl
theorem State.serve_write_cmd : s.serve .w32 0x010 (.write v) = s.writeCmd v := rfl
theorem State.serve_write_sel : s.serve .w32 0x014 (.write v) = { s with sel := v.extractLsb' 0 5 } := rfl
theorem State.serve_write_keyInfo : s.serve .w32 0x01C (.write v) = s := rfl

end

/-! ## CMD (R25) -/

theorem State.writeCmd_idle {s : State} (h : s.pend = none) (w : Word) : s.writeCmd w = s.issue w := by
  simp [State.writeCmd, State.busy, h]

theorem State.writeCmd_busy {s : State} (h : s.pend ≠ none) (w : Word) : s.writeCmd w = s.dropCommand :=
  if_pos (s.busy_iff.2 h)

/-- CMD is the only location whose write can change the word in flight. -/
theorem State.poke_pend {s t : State} {v : Word} {l : Location} (hl : l ≠ .cmd) (h : s.poke v l = some t) :
    t.pend = s.pend := by
  cases l with
  | cmd => exact absurd rfl hl
  | sign | regClr | limb _ =>
    simp only [State.poke, State.writeSign, State.writeRegClr, State.writeLimb] at h
    split at h
    · cases h
    · split at h <;> cases h
      rfl
  | unmapped => cases h
  | _ => cases h; rfl

theorem eq_of_locate_cmd {off : Nat} (h : locate off = .cmd) : off = 0x010 := by
  unfold locate at h
  split_ifs at h
  assumption

theorem State.serveRead_pend (s : State) (l : Location) : (s.serveRead l).pend = s.pend := by
  unfold State.serveRead
  split <;> rfl

theorem State.serveWrite_pend (s : State) (v : Word) {l : Location} (hl : l ≠ .cmd) :
    (s.serveWrite v l).pend = s.pend := by
  unfold State.serveWrite
  split
  · next t h => exact State.poke_pend hl h
  · rfl

theorem State.refuse_pend (s : State) (op : BusOp) : (s.refuse op).pend = s.pend := by cases op <;> rfl

/-- An access that changes the word in flight is a 32-bit write of CMD (R25, R37). -/
theorem State.access_of_serve_pend_ne {s : State} {size : AccessSize} {off : Nat} {op : BusOp}
    (h : (s.serve size off op).pend ≠ s.pend) : size = .w32 ∧ off = 0x010 ∧ ∃ w, op = .write w := by
  by_cases hd : accessDefined size off = true
  · obtain ⟨rfl, haligned⟩ := (accessDefined_eq_true_iff size off).1 hd
    cases op with
    | read => exact absurd (s.serve_read_aligned haligned ▸ s.serveRead_pend _) h
    | write w =>
      rw [s.serve_write_aligned haligned] at h
      exact ⟨rfl, eq_of_locate_cmd (not_not.1 fun hl => h (s.serveWrite_pend w hl)), w, rfl⟩
  · exact absurd (s.serve_undefined (by simpa using hd) op ▸ s.refuse_pend op) h

/-- A served access keeps CMD and the word in flight, or issues a word (R25). -/
theorem Served.cmd_eq_or_issued {s t : State} (h : Served s t) : t.cmd = s.cmd ∨ ∃ w, t = s.issue w := by
  cases h with
  | issued w _ => exact .inr ⟨w, rfl⟩
  | _ => exact .inl rfl

/-! ## SIGN and REGCLR (R27, R29) -/

theorem State.selectedSign_big {s : State} {r : Reg} (h : s.sel.toNat = r.val) :
    s.selectedSign = some (s.reg r).sign := by
  simp [State.selectedSign, selectionOf_big h]

theorem State.selectedSign_key {s : State} (hlo : 16 ≤ s.sel.toNat) (hhi : s.sel.toNat ≤ 18) :
    s.selectedSign = some false := by
  rcases selectionOf_cases s.sel with ⟨r, hr, _⟩ | ⟨_, _, h | h | h⟩ | ⟨hr, _⟩
  · omega
  · simp [State.selectedSign, h]
  · simp [State.selectedSign, h]
  · simp [State.selectedSign, h]
  · omega

theorem State.serve_read_sign_idle {s : State} {b : Bool} (hp : s.pend = none) (hb : s.selectedSign = some b) :
    s.serve .w32 0x018 .read = { s with readData := if b then 0x00000001#32 else 0x00000000#32 } := by
  refine State.serveRead_of_peek (l := .sign) ?_
  cases b <;> simp [State.peek, State.readSign, State.busy, hp, hb]

theorem State.serve_write_sign_idle {s : State} {r : Reg} (hp : s.pend = none) (hr : s.sel.toNat = r.val) (v : Word) :
    s.serve .w32 0x018 (.write v) = s.setReg r { s.reg r with sign := v.getLsbD 0 } :=
  State.serveWrite_of_poke (l := .sign) (by simp [State.poke, State.writeSign, State.busy, hp, selectionOf_big hr])

theorem State.serve_read_sign_refused {s : State} (h : s.pend ≠ none ∨ 19 ≤ s.sel.toNat) :
    s.serve .w32 0x018 .read = s.refuseRead :=
  State.serveRead_refused (l := .sign) (s.readSign_eq_none_iff.2 h)

theorem State.serve_write_sign_refused {s : State} (h : s.pend ≠ none ∨ 16 ≤ s.sel.toNat) (v : Word) :
    s.serve .w32 0x018 (.write v) = s.refuseWrite :=
  State.serveWrite_refused (l := .sign) ((s.writeSign_eq_none_iff v).2 h)

theorem State.writeRegClr_eq_none_iff (s : State) (v : Word) :
    s.writeRegClr v = none ↔ s.pend ≠ none ∨ 16 ≤ v.toNat % 32 := by
  rw [← toNat_lowFive, State.writeRegClr]
  generalize v.extractLsb' 0 5 = x
  by_cases hp : s.pend = none
  · rcases selectionOf_cases x with ⟨r, hr, hsel⟩ | ⟨hr, _, hsel | hsel | hsel⟩ | ⟨hr, hsel⟩ <;>
      simp [State.busy, hp, hsel] <;> omega
  · simp [s.busy_iff.2 hp, hp]

theorem State.serve_write_regClr_idle {s : State} {v : Word} {r : Reg} (hp : s.pend = none) (hr : v.toNat % 32 = r.val) :
    s.serve .w32 0x020 (.write v) = s.setReg r BigReg.zero := by
  have hsel : selectionOf (v.extractLsb' 0 5) = .big r := selectionOf_big ((toNat_lowFive v).trans hr)
  exact State.serveWrite_of_poke (l := .regClr) (by simp [State.poke, State.writeRegClr, State.busy, hp, hsel])

theorem State.serve_write_regClr_refused {s : State} {v : Word} (h : s.pend ≠ none ∨ 16 ≤ v.toNat % 32) :
    s.serve .w32 0x020 (.write v) = s.refuseWrite :=
  State.serveWrite_refused (l := .regClr) ((s.writeRegClr_eq_none_iff v).2 h)

/-! ## Every cause of refusal refuses (R41) -/

theorem locate_unmapped {off : Nat} (h : 0x024 ≤ off ∧ off ≤ 0x0FFF ∨ 0x3000 ≤ off ∧ off ≤ 0x3FFF) :
    locate off = .unmapped := by
  have low : ∀ k < 0x024, off ≠ k := fun k hk => by omega
  have window : 0x1000 ≤ off → 0x3000 ≤ off := by omega
  simpa [locate, low] using window

theorem locate_inWindow {off : Nat} (h : inWindow off) : locate off = .limb ((off - 0x1000) / 4) :=
  locate_window h.1 (Nat.lt_succ_of_le h.2)

theorem State.peek_of_refusalCause {s : State} {off : Nat} (haligned : off % 4 = 0)
    (h : RefusalCause s .w32 off .read) : s.peek (locate off) = none := by
  have limb (hw : inWindow off)
      (hc : s.pend ≠ none ∨ s.config.limbs ≤ (off - 0x1000) / 4 ∨ 19 ≤ s.sel.toNat) : s.peek (locate off) = none := by
    rw [locate_inWindow hw]
    exact (s.readLimb_eq_none_iff _).2 hc
  have sign (hc : s.pend ≠ none ∨ 19 ≤ s.sel.toNat) : s.peek (locate 0x018) = none := s.readSign_eq_none_iff.2 hc
  rcases h with h | h | ⟨hw, hl⟩ | ⟨hw | rfl, hsel⟩ | ⟨_, ⟨_, hv⟩, _⟩ | ⟨hp, hw | rfl | ⟨_, _, hv⟩⟩ | ⟨_, _, hv, _⟩
  · simp [haligned] at h
  · rw [locate_unmapped h]; rfl
  · exact limb hw (.inr (.inl hl))
  · exact limb hw (.inr (.inr hsel))
  · exact sign (.inr hsel)
  · cases hv
  · exact limb hw (.inl hp)
  · exact sign (.inl hp)
  · cases hv
  · cases hv

theorem State.poke_of_refusalCause {s : State} {off : Nat} {v : Word} (haligned : off % 4 = 0)
    (h : RefusalCause s .w32 off (.write v)) : s.poke v (locate off) = none := by
  have limb (hw : inWindow off)
      (hc : s.pend ≠ none ∨ s.config.limbs ≤ (off - 0x1000) / 4 ∨ 16 ≤ s.sel.toNat) : s.poke v (locate off) = none := by
    rw [locate_inWindow hw]
    exact (s.writeLimb_eq_none_iff _ v).2 hc
  have sign (hc : s.pend ≠ none ∨ 16 ≤ s.sel.toNat) : s.poke v (locate 0x018) = none :=
    (s.writeSign_eq_none_iff v).2 hc
  have regClr (hc : s.pend ≠ none ∨ 16 ≤ v.toNat % 32) : s.poke v (locate 0x020) = none :=
    (s.writeRegClr_eq_none_iff v).2 hc
  rcases h with h | h | ⟨hw, hl⟩ | ⟨hw | rfl, hsel⟩ | ⟨hw | rfl, _, hsel, _⟩ | ⟨hp, hw | rfl | ⟨rfl, _⟩⟩ | ⟨rfl, _, hv, hr⟩
  · simp [haligned] at h
  · rw [locate_unmapped h]; rfl
  · exact limb hw (.inr (.inl hl))
  · exact limb hw (.inr (.inr (by omega)))
  · exact sign (.inr (by omega))
  · exact limb hw (.inr (.inr hsel))
  · exact sign (.inr hsel)
  · exact limb hw (.inl hp)
  · exact sign (.inl hp)
  · exact regClr (.inl hp)
  · cases hv; exact regClr (.inr hr)

/-- An access with one of the seven causes of R41 is refused, whatever its width and offset. -/
theorem State.serve_of_refusalCause {s : State} {size : AccessSize} {off : Nat} {op : BusOp}
    (h : RefusalCause s size off op) : s.serve size off op = s.refuse op := by
  by_cases hd : accessDefined size off = true
  · obtain ⟨rfl, haligned⟩ := (accessDefined_eq_true_iff size off).1 hd
    cases op with
    | read => rw [s.serve_read_aligned haligned]; exact State.serveRead_refused (State.peek_of_refusalCause haligned h)
    | write v =>
      rw [s.serve_write_aligned haligned]; exact State.serveWrite_refused (State.poke_of_refusalCause haligned h)
  · exact s.serve_undefined (by simpa using hd) op

@[simp] theorem State.refuse_status (s : State) (op : BusOp) : (s.refuse op).status = s.status.setAccerr := by
  cases op <;> rfl

@[simp] theorem State.refuse_ie (s : State) (op : BusOp) : (s.refuse op).ie = s.ie := by cases op <;> rfl

/-! ## The end of a command (R64, R96) -/

theorem CmdError.code_ne_zero (e : CmdError) : e.code ≠ 0x00#8 := by cases e <;> decide

/-- A completed command succeeded or failed (R64). -/
theorem State.complete_ended (s : State) (o : CmdOutcome) :
    (s.complete o).Succeeded ∨ ∃ e, (s.complete o).Failed e := by
  rcases s.complete_cases o with ⟨e, h⟩ | ⟨ws, k, _, _, h⟩
  · exact .inr ⟨e, h ▸ (s.complete_raise e).failed⟩
  · exact .inl (h ▸ s.commit_succeeded ws k)

/-- A completed command leaves everything but some registers, the key slot and the witness source (R64, R65, R100). -/
theorem State.complete_frame (s : State) (o : CmdOutcome) : ∃ dests, State.Frame s (s.complete o) dests := by
  rcases s.complete_cases o with ⟨e, h⟩ | ⟨ws, k, _, _, h⟩
  · exact ⟨[], h ▸ (s.complete_raise e).frame⟩
  · exact ⟨_, h ▸ s.commit_frame ws k⟩

theorem State.complete_done (s : State) (o : CmdOutcome) : (s.complete o).status.done = true := by
  rcases s.complete_ended o with h | ⟨e, h⟩ <;> exact h.done

theorem State.complete_pend (s : State) (o : CmdOutcome) : (s.complete o).pend = none := by
  rcases s.complete_ended o with h | ⟨e, h⟩ <;> exact h.idle

/-- ERR agrees with ERRCODE after a completion (R24, R64, R96). -/
theorem State.complete_err (s : State) (o : CmdOutcome) :
    (s.complete o).status.err = false ∧ (s.complete o).status.errcode = 0x00#8 ∨
      (s.complete o).status.err = true ∧ (s.complete o).status.errcode ≠ 0x00#8 := by
  rcases s.complete_ended o with h | ⟨e, h⟩
  · exact .inl ⟨h.err, h.errcode⟩
  · exact .inr ⟨h.err, h.errcode ▸ e.code_ne_zero⟩

theorem engineStep_of_pend {s : State} {w : Word} (h : s.pend = some w) :
    engineStep s = .next ((s.withSource (wordOutcome w s).2).complete (wordOutcome w s).1) := by
  unfold engineStep
  rw [h]
  exact executeWord_eq_complete w s

/-! ## What starts a command, and what sets DONE -/

/-- From idle, a command is in flight after a step only by a 32-bit write of CMD (R25). -/
theorem Stepped.input_of_pend {s t : State} {w : Word} (h : Stepped s t) (hidle : s.pend = none) (hw : t.pend = some w) :
    s.inputs.head? = some (.access { addr := s.config.base + 0x010, size := .w32, op := .write w }) ∧ t.cmd = w := by
  cases h with
  | idle _ => cases hidle.symm.trans hw
  | completed _ hp => cases hidle.symm.trans hp
  | reset _ => cases hw
  | served a _ hi ha ht _ =>
    have hidle' : s.popInput.pend = none := hidle
    subst ht
    obtain ⟨hsize, hoff, v, hop⟩ := State.access_of_serve_pend_ne (by rw [hw, hidle']; exact nofun)
    rw [hsize, hoff, hop, State.serve_write_cmd, State.writeCmd_idle hidle'] at hw ⊢
    have hv : v = w := Option.some.inj hw
    have haddr : a.addr = s.config.base + 0x010 := by
      simp only [addressesBlock, Bool.and_eq_true, decide_eq_true_eq] at ha
      omega
    exact ⟨by rw [hi, ← haddr, ← hsize, ← hv, ← hop], hv⟩

/-- CMD changes only by an issue or a reset (R25). -/
theorem Stepped.issued_or_reset_of_cmd_ne {s t : State} (h : Stepped s t) (hne : t.cmd ≠ s.cmd) :
    t.pend = some t.cmd ∨ s.inputs.head? = some .reset := by
  cases h with
  | idle _ => exact absurd rfl hne
  | completed w _ =>
    obtain ⟨_, hframe⟩ := (s.popInput.withSource (wordOutcome w s.popInput).2).complete_frame (wordOutcome w s.popInput).1
    exact absurd hframe.cmd hne
  | reset hi => exact .inr hi
  | served a _ _ _ _ hserved =>
    rcases hserved.cmd_eq_or_issued with hcmd | ⟨w, rfl⟩
    · exact absurd hcmd hne
    · exact .inl rfl

/-- No access sets DONE (R99). -/
theorem Served.done_of_done {s t : State} (h : Served s t) (hdone : t.status.done = true) : s.status.done = true := by
  cases h with
  | status v => exact (Bool.and_eq_true_iff.1 hdone).1
  | issued w _ => cases hdone
  | _ => exact hdone

/-- Only a completion sets DONE (R99). -/
theorem Stepped.completed_of_done {s t : State} (h : Stepped s t) (hs : s.status.done = false)
    (ht : t.status.done = true) : s.pend ≠ none ∧ t.pend = none := by
  cases h with
  | idle _ => cases hs.symm.trans ht
  | completed w hp => exact ⟨by rw [hp]; exact nofun, State.complete_pend _ _⟩
  | reset _ => cases ht
  | served _ _ _ _ _ hserved => cases hs.symm.trans (hserved.done_of_done ht)

/-! ## The words software reads, as numbers (R22 to R24, R26, R28) -/

theorem Config.limbs_le_of_wf {c : Config} (h : c.wf = true) : c.limbs ≤ 2048 := by
  simp only [Config.wf, Bool.and_eq_true, decide_eq_true_eq] at h
  exact h.1.2

theorem toNat_ofBool_eq_ite (b : Bool) : (BitVec.ofBool b).toNat = if b then 1 else 0 := by cases b <;> rfl

theorem State.busy_toNat (s : State) : (BitVec.ofBool s.busy).toNat = if s.pend = none then 0 else 1 := by
  rw [toNat_ofBool_eq_ite]
  exact (if_congr s.busy_iff rfl rfl).trans (ite_not _ _ _)

theorem State.paramWord_toNat (s : State) : s.paramWord.toNat = s.config.limbs % 2 ^ 16 + 16 * 2 ^ 16 + 1 * 2 ^ 24 := by
  simp only [State.paramWord, toNat_append_eq_add, BitVec.toNat_ofNat]
  omega

theorem State.ctrlWord_toNat (s : State) : s.ctrlWord.toNat = if s.ie then 1 else 0 := by
  simp only [State.ctrlWord, toNat_append_eq_add, toNat_ofBool_eq_ite, BitVec.toNat_zero, Nat.zero_mul, Nat.zero_add]

theorem State.selWord_toNat (s : State) : s.selWord.toNat = s.sel.toNat := by
  simp only [State.selWord, toNat_append_eq_add, BitVec.toNat_zero, Nat.zero_mul, Nat.zero_add]

theorem State.statusWord_toNat (s : State) : s.statusWord.toNat =
    (if s.pend = none then 0 else 1) + (if s.status.done then 2 else 0) + (if s.status.err then 4 else 0)
      + (if s.key.ready then 8 else 0) + (if s.status.ovr then 16 else 0) + (if s.status.accerr then 32 else 0)
      + 256 * s.status.errcode.toNat := by
  simp only [State.statusWord, toNat_append_eq_add, s.busy_toNat, toNat_ofBool_eq_ite, BitVec.toNat_zero,
    Nat.add_mul, ite_mul, Nat.one_mul, Nat.zero_mul, Nat.reducePow, Nat.reduceMul]
  omega

/-- A write of STATUS clears each W1C bit the word has as a number, bits 1, 4 and 5 (R24). -/
theorem Status.writeOneToClear_eq (t : Status) (v : Word) : t.writeOneToClear v = { t with
    done := if v.toNat / 2 % 2 = 1 then false else t.done
    ovr := if v.toNat / 16 % 2 = 1 then false else t.ovr
    accerr := if v.toNat / 32 % 2 = 1 then false else t.accerr } := by
  have clear (b : Bool) (p : Prop) [Decidable p] : (b && !decide p) = if p then false else b := by split_ifs <;> simp [*]
  simp only [Status.writeOneToClear, getLsbD_eq_decide, clear, Nat.reducePow, Nat.pow_one]

theorem State.keyInfoWord_toNat (s : State) :
    s.keyInfoWord.toNat = Nat.size s.key.n % 2 ^ 16 + if s.key.ready then 2 ^ 31 else 0 := by
  simp only [State.keyInfoWord, toNat_append_eq_add, toNat_ofBool_eq_ite, bitlen_natCast, BitVec.toNat_ofNat]
  split_ifs <;> omega

/-- A stored modulus is at most `W/2` bits long, because its square fits `W` bits (R28, R88). -/
theorem KeySlot.Inv.size_n_le {k : KeySlot} {c : Config} (h : k.Inv c.bound) : Nat.size k.n ≤ 16 * c.limbs := by
  rcases h with h | ⟨_, _, hfit⟩
  · simp [h, KeySlot.absent]
  · have hbound : c.bound = 2 ^ (16 * c.limbs) * 2 ^ (16 * c.limbs) := by
      rw [Config.bound, Config.width, ← pow_add]; congr 1; omega
    exact Nat.size_le.2 (Nat.mul_self_lt_mul_self_iff.1 (hbound ▸ hfit))

theorem KeySlot.Inv.n_eq_zero {k : KeySlot} {bound : Nat} (h : k.Inv bound) (hready : k.ready = false) : k.n = 0 := by
  rcases h with h | ⟨h, _, _⟩
  · simp [h, KeySlot.absent]
  · rw [h] at hready; cases hready

/-! ## IRQ (R31, R99) -/

theorem State.irq_eq_false_of_done {s : State} (h : s.status.done = false) : s.irq = false := by simp [State.irq, h]

theorem State.irq_eq_false_of_ie {s : State} (h : s.ie = false) : s.irq = false := by simp [State.irq, h]

/-! ## The statements -/

/-- Settles O9: the issue and the drop are CMD's write equations; the step clauses invert the step, and of its four kinds
only a served access starts a command. -/
theorem onlyACmdWriteStartsACommand : Obligations.OnlyACmdWriteStartsACommand := by
  unfold Obligations.OnlyACmdWriteStartsACommand
  refine ⟨fun s w hidle => ?_, fun s w hbusy => ?_, State.serve_read_cmd, rfl, fun s t hstep => ?_⟩
  · rw [State.serve_write_cmd, State.writeCmd_idle hidle]
    exact ⟨rfl, rfl⟩
  · rw [State.serve_write_cmd, State.writeCmd_busy hbusy]
    rfl
  · have h := step_stepped hstep
    exact ⟨fun hidle _ hw => h.input_of_pend hidle hw, h.issued_or_reset_of_cmd_ne⟩

/-- Settles O38: SIGN's accesses by what SEL selects, and the two conditions under which they are refused. -/
theorem signRegisterShowsTheSelectedSign : Obligations.SignRegisterShowsTheSelectedSign := by
  unfold Obligations.SignRegisterShowsTheSelectedSign
  intro s
  refine ⟨fun hidle => ⟨fun r hr => ⟨?_, ?_⟩, fun hlo hhi => ?_⟩, fun hsel v => ?_, fun hsel => ?_, fun hbusy => ⟨?_, fun v => ?_⟩⟩
  · exact State.serve_read_sign_idle hidle (State.selectedSign_big hr)
  · exact State.serve_write_sign_idle hidle hr
  · exact State.serve_read_sign_idle hidle (State.selectedSign_key hlo hhi)
  · exact State.serve_write_sign_refused (.inr hsel) v
  · exact State.serve_read_sign_refused (.inr hsel)
  · exact State.serve_read_sign_refused (.inl hbusy)
  · exact State.serve_write_sign_refused (.inl hbusy) v

/-- Settles O39: REGCLR's write by the register its low five bits name, and `writeRegClr_eq_none_iff` for the refusals. -/
theorem regclrClearsOneRegister : Obligations.RegclrClearsOneRegister := by
  unfold Obligations.RegclrClearsOneRegister
  intro s v
  exact ⟨fun hidle _ hr => State.serve_write_regClr_idle hidle hr, fun h => State.serve_write_regClr_refused h.symm,
    s.serve_read_regClr⟩

/-- Settles O42: a modulus whose square fits has at most `W/2 ≤ 32768` bits, so NBITLEN cuts nothing. -/
theorem keyinfoShowsTheModulusLength : Obligations.KeyinfoShowsTheModulusLength := by
  unfold Obligations.KeyinfoShowsTheModulusLength
  intro s hinv
  have hsize := hinv.key_inv.size_n_le
  have hlimbs := Config.limbs_le_of_wf hinv.config_wf
  refine ⟨?_, hsize, fun hready => ?_, s.serve_write_keyInfo, by decide⟩
  · rw [s.serve_read_keyInfo, s.keyInfoWord_toNat, Nat.mod_eq_of_lt (by omega)]
  · rw [hinv.key_inv.n_eq_zero hready, Nat.size_zero]

/-- Settles O40: STATUS is the sum of its fields, and each event's effect on it is the update the model names. -/
theorem statusFieldsAndWriteOneToClear : Obligations.StatusFieldsAndWriteOneToClear := by
  unfold Obligations.StatusFieldsAndWriteOneToClear
  refine ⟨State.statusWord_toNat, State.serve_read_status, fun s v => ?_, fun s w hidle => ?_, fun s w hpend => ?_,
    fun s w hbusy => ?_, fun s size off op _ hcause => ?_, by decide⟩
  · rw [s.serve_write_status, State.acknowledge, s.status.writeOneToClear_eq]
  · rw [s.serve_write_cmd, State.writeCmd_idle hidle]
    exact ⟨nofun, rfl⟩
  · obtain ⟨_, hframe⟩ := (s.withSource (wordOutcome w s).2).complete_frame (wordOutcome w s).1
    exact ⟨_, engineStep_of_pend hpend, State.complete_pend _ _, State.complete_done _ _, State.complete_err _ _,
      hframe.ovr, hframe.accerr⟩
  · rw [s.serve_write_cmd, State.writeCmd_busy hbusy]
    rfl
  · rw [State.serve_of_refusalCause hcause, State.refuse_status]
    rfl

/-- Settles O41: the equations of the four registers' accesses, and their words as numbers. -/
theorem idParamCtrlSelFields : Obligations.IdParamCtrlSelFields := by
  unfold Obligations.IdParamCtrlSelFields
  intro s v
  refine ⟨congrArg State.readData s.serve_read_id, s.serve_write_id v, fun hwf => ?_, s.serve_write_param v, ?_, ?_, ?_,
    s.serve_write_sel v, rfl, by decide, by decide, by decide⟩
  · have hlimbs := Config.limbs_le_of_wf hwf
    rw [s.serve_read_param, s.paramWord_toNat, Nat.mod_eq_of_lt (by omega)]
  · rw [s.serve_read_ctrl, s.ctrlWord_toNat]
  · rw [s.serve_write_ctrl, getLsbD_eq_decide, pow_zero, Nat.div_one]
  · rw [s.serve_read_sel, s.selWord_toNat]

/-- Settles O48: DONE follows completion by the inversion of a step, and each access's effect on DONE and IE gives IRQ's. -/
theorem irqFollowsCompletion : Obligations.IrqFollowsCompletion := by
  unfold Obligations.IrqFollowsCompletion
  refine ⟨fun _ => rfl, fun _ => rfl, fun s w hpend => ?_, fun s t hstep => (step_stepped hstep).completed_of_done,
    fun s v hv => ?_, fun s w hidle => ?_, fun s v hv => ⟨?_, rfl⟩, fun s size off op _ hcause => ?_, fun s w hbusy => ?_⟩
  · obtain ⟨_, hframe⟩ := (s.withSource (wordOutcome w s).2).complete_frame (wordOutcome w s).1
    refine ⟨_, engineStep_of_pend hpend, State.complete_done _ _, ?_⟩
    rw [State.irq, State.complete_done, Bool.true_and, hframe.ie, State.withSource_ie]
  · rw [s.serve_write_status]
    exact State.irq_eq_false_of_done (by simp [getLsbD_eq_decide, hv])
  · rw [s.serve_write_cmd, State.writeCmd_idle hidle]
    exact State.irq_eq_false_of_done rfl
  · rw [s.serve_write_ctrl]
    exact State.irq_eq_false_of_ie (by simp only [getLsbD_eq_decide, pow_zero, Nat.div_one, hv]; rfl)
  · rw [State.serve_of_refusalCause hcause, State.irq, State.refuse_status, State.refuse_ie]
    rfl
  · rw [s.serve_write_cmd, State.writeCmd_busy hbusy]
    rfl

end Sys2Proof.Machine
end

section
/-! SUPPORT. Which accesses are refused, conversely; the window limb by limb; what a busy engine shields; and the
statements about the bus (20_memory.md R37 to R41). -/

namespace Sys2Proof.Machine

/-! ## Every refusal has a cause (R41) -/

/-- Beyond the address map lie only the two unmapped ranges (R36, R41). -/
theorem unmapped_of_locate {off : Nat} (haligned : off % 4 = 0) (hoff : off < 0x4000) (h : locate off = .unmapped) :
    0x024 ≤ off ∧ off ≤ 0x0FFF ∨ 0x3000 ≤ off ∧ off ≤ 0x3FFF := by
  unfold locate at h
  split_ifs at h
  omega

theorem inWindow_of_locate {off i : Nat} (h : locate off = .limb i) : inWindow off ∧ i = (off - 0x1000) / 4 := by
  have hw : inWindow off := (window_of_locate h).imp_right Nat.le_of_lt_succ
  exact ⟨hw, Location.limb.inj (h.symm.trans (locate_inWindow hw))⟩

/-- A read that the block refuses has one of R41's causes. -/
theorem State.refusalCause_of_peek {s : State} {off : Nat} (haligned : off % 4 = 0) (hoff : off < 0x4000)
    (h : s.peek (locate off) = none) : RefusalCause s .w32 off .read := by
  cases hl : locate off with rw [hl] at h
  | sign =>
    rcases s.readSign_eq_none_iff.1 h with hc | hc <;> simp [RefusalCause, eq_of_locate_sign hl, hc]
  | limb i =>
    obtain ⟨hw, rfl⟩ := inWindow_of_locate hl
    rcases (s.readLimb_eq_none_iff _).1 h with hc | hc | hc <;> simp [RefusalCause, hw, hc]
  | unmapped => exact .inr (.inl (unmapped_of_locate haligned hoff hl))
  | _ => cases h

/-- A write that the block refuses has one of R41's causes: a selection above 15 is a key field or nothing. -/
theorem State.refusalCause_of_poke {s : State} {off : Nat} {v : Word} (haligned : off % 4 = 0) (hoff : off < 0x4000)
    (h : s.poke v (locate off) = none) : RefusalCause s .w32 off (.write v) := by
  have hwrite : (BusOp.write v).isWrite := ⟨v, rfl⟩
  have selected (hc : inWindow off ∨ off = 0x018) (hsel : 16 ≤ s.sel.toNat) : RefusalCause s .w32 off (.write v) := by
    rcases Nat.lt_or_ge 18 s.sel.toNat with hhi | hhi
    · exact .inr (.inr (.inr (.inl ⟨hc, hhi⟩)))
    · exact .inr (.inr (.inr (.inr (.inl ⟨hc, hwrite, hsel, hhi⟩))))
  cases hl : locate off with rw [hl] at h
  | sign =>
    rcases (s.writeSign_eq_none_iff v).1 h with hc | hc
    · simp [RefusalCause, eq_of_locate_sign hl, hc]
    · exact selected (.inr (eq_of_locate_sign hl)) hc
  | regClr =>
    rcases (s.writeRegClr_eq_none_iff v).1 h with hc | hc <;> simp [RefusalCause, eq_of_locate_regClr hl, hc, hwrite]
  | limb i =>
    obtain ⟨hw, rfl⟩ := inWindow_of_locate hl
    rcases (s.writeLimb_eq_none_iff _ v).1 h with hc | hc | hc
    · simp [RefusalCause, hw, hc]
    · simp [RefusalCause, hw, hc]
    · exact selected (.inl hw) hc
  | unmapped => exact .inr (.inl (unmapped_of_locate haligned hoff hl))
  | _ => cases h

theorem accessDefined_of_no_refusalCause {s : State} {size : AccessSize} {off : Nat} {op : BusOp}
    (h : ¬RefusalCause s size off op) : size = .w32 ∧ off % 4 = 0 :=
  ⟨not_not.1 fun hs => h (.inl (.inl hs)), not_not.1 fun ha => h (.inl (.inr ha))⟩

/-- A read with no cause of refusal changes the bus port only (R41, R43). -/
theorem State.serve_read_of_no_refusalCause {s : State} {size : AccessSize} {off : Nat} (hoff : off < 0x4000)
    (h : ¬RefusalCause s size off .read) : ∃ v, s.serve size off .read = { s with readData := v } := by
  obtain ⟨rfl, haligned⟩ := accessDefined_of_no_refusalCause h
  obtain ⟨v, hv⟩ := Option.ne_none_iff_exists'.1 (mt (State.refusalCause_of_peek haligned hoff) h)
  exact ⟨v, (s.serve_read_aligned haligned).trans (State.serveRead_of_peek hv)⟩

/-- A write with no cause of refusal is the write of the location it names (R41). -/
theorem State.serve_write_of_no_refusalCause {s : State} {size : AccessSize} {off : Nat} {v : Word} (hoff : off < 0x4000)
    (h : ¬RefusalCause s size off (.write v)) : s.poke v (locate off) = some (s.serve size off (.write v)) := by
  obtain ⟨rfl, haligned⟩ := accessDefined_of_no_refusalCause h
  obtain ⟨t, ht⟩ := Option.ne_none_iff_exists'.1 (mt (State.refusalCause_of_poke haligned hoff) h)
  rw [s.serve_write_aligned haligned, State.serveWrite_of_poke ht, ht]

theorem eq_of_locate_status {off : Nat} (h : locate off = .status) : off = 0x00C := by
  unfold locate at h
  split_ifs at h
  assumption

/-- STATUS is the only location whose served write can change ACCERR (R24, R41). -/
theorem State.poke_accerr {s t : State} {v : Word} {l : Location} (hl : l ≠ .status) (h : s.poke v l = some t) :
    t.status.accerr = s.status.accerr := by
  cases l with
  | status => exact absurd rfl hl
  | cmd =>
    cases h
    unfold State.writeCmd
    split <;> rfl
  | sign | regClr | limb _ =>
    simp only [State.poke, State.writeSign, State.writeRegClr, State.writeLimb] at h
    split at h
    · cases h
    · split at h <;> cases h
      rfl
  | unmapped => cases h
  | _ => cases h; rfl

/-! ## Bits that a write does not read (R41) -/

theorem State.serve_write_sign_congr (s : State) {v v' : Word} (h : v.getLsbD 0 = v'.getLsbD 0) :
    s.serve .w32 0x018 (.write v) = s.serve .w32 0x018 (.write v') := by
  have hw : s.poke v .sign = s.poke v' .sign := by simp only [State.poke, State.writeSign, h]
  change s.serveWrite v .sign = s.serveWrite v' .sign
  simp only [State.serveWrite, hw]

theorem State.serve_write_regClr_congr (s : State) {v v' : Word} (h : v.extractLsb' 0 5 = v'.extractLsb' 0 5) :
    s.serve .w32 0x020 (.write v) = s.serve .w32 0x020 (.write v') := by
  have hw : s.poke v .regClr = s.poke v' .regClr := by simp only [State.poke, State.writeRegClr, h]
  change s.serveWrite v .regClr = s.serveWrite v' .regClr
  simp only [State.serveWrite, hw]

theorem lowFive_congr {v v' : Word} (h : v.toNat % 32 = v'.toNat % 32) : v.extractLsb' 0 5 = v'.extractLsb' 0 5 :=
  BitVec.eq_of_toNat_eq (by rw [toNat_lowFive, toNat_lowFive, h])

theorem lowBit_congr {v v' : Word} (h : v.toNat % 2 = v'.toNat % 2) : v.getLsbD 0 = v'.getLsbD 0 := by
  rw [getLsbD_eq_decide, getLsbD_eq_decide, pow_zero, Nat.div_one, Nat.div_one, h]

/-! ## The window (R39) -/

/-- A limb write replaces the bits of its limb and no other. -/
theorem testBit_withLimb (mag i : Nat) (v : Word) (j : Nat) : (withLimb mag i v).testBit j =
    if 32 * i ≤ j ∧ j < 32 * i + 32 then v.getLsbD (j - 32 * i) else mag.testBit j := by
  have hsplit : withLimb mag i v =
      2 ^ (32 * i) * (2 ^ 32 * (mag / 2 ^ (32 * i + 32)) + v.toNat) + mag % 2 ^ (32 * i) := by
    rw [withLimb, mul_add 32 i 1, mul_one, pow_add]
    ring
  rw [hsplit, Nat.testBit_two_pow_mul_add _ (Nat.mod_lt _ (Nat.two_pow_pos _)), Nat.testBit_two_pow_mul_add _ v.isLt]
  by_cases hlo : j < 32 * i
  · rw [if_pos hlo, if_neg (by omega), Nat.testBit_mod_two_pow, decide_eq_true hlo, Bool.true_and]
  · rw [if_neg hlo]
    by_cases hhi : j < 32 * i + 32
    · rw [if_pos (by omega), if_pos (by omega), BitVec.testBit_toNat]
    · rw [if_neg (by omega), if_neg (by omega), Nat.testBit_div_two_pow]
      congr 1
      omega

section
variable {s : State} {i : Nat} (hi : i ≤ 2047)
include hi

theorem State.serve_read_limb : s.serve .w32 (0x1000 + 4 * i) .read = s.serveRead (.limb i) := by
  rw [s.serve_read_aligned (by omega), locate_limb hi]

theorem State.serve_write_limb (v : Word) : s.serve .w32 (0x1000 + 4 * i) (.write v) = s.serveWrite v (.limb i) := by
  rw [s.serve_write_aligned (by omega), locate_limb hi]

theorem State.serve_read_limb_idle {m : Nat} (hp : s.pend = none) (hl : i < s.config.limbs)
    (hm : s.selectedMag = some m) : s.serve .w32 (0x1000 + 4 * i) .read = { s with readData := limbOf m i } := by
  rw [State.serve_read_limb hi]
  exact State.serveRead_of_peek (by simp [State.peek, State.readLimb, State.busy, hp, hl, hm])

theorem State.serve_write_limb_idle {r : Reg} (hp : s.pend = none) (hl : i < s.config.limbs) (hr : s.sel.toNat = r.val)
    (v : Word) : s.serve .w32 (0x1000 + 4 * i) (.write v) =
      s.setReg r { s.reg r with mag := withLimb (s.reg r).mag i v } := by
  rw [State.serve_write_limb hi]
  exact State.serveWrite_of_poke (by simp [State.poke, State.writeLimb, State.busy, hp, hl, selectionOf_big hr])

theorem State.serve_read_limb_refused (h : s.pend ≠ none ∨ s.config.limbs ≤ i ∨ 19 ≤ s.sel.toNat) :
    s.serve .w32 (0x1000 + 4 * i) .read = s.refuseRead := by
  rw [State.serve_read_limb hi]
  exact State.serveRead_refused ((s.readLimb_eq_none_iff i).2 h)

theorem State.serve_write_limb_refused (h : s.pend ≠ none ∨ s.config.limbs ≤ i ∨ 16 ≤ s.sel.toNat) (v : Word) :
    s.serve .w32 (0x1000 + 4 * i) (.write v) = s.refuseWrite := by
  rw [State.serve_write_limb hi]
  exact State.serveWrite_refused ((s.writeLimb_eq_none_iff i v).2 h)

end

/-- What a limb read returns, as a number, when SEL selects a magnitude (R39). -/
theorem State.readData_limb {s : State} {i m : Nat} (hi : i ≤ 2047) (hp : s.pend = none) (hl : i < s.config.limbs)
    (hm : s.selectedMag = some m) :
    (s.serve .w32 (0x1000 + 4 * i) .read).readData.toNat = m / 2 ^ (32 * i) % 2 ^ 32 := by
  rw [State.serve_read_limb_idle hi hp hl hm]
  exact limbOf_toNat m i

theorem State.selectedMag_big {s : State} {r : Reg} (h : s.sel.toNat = r.val) : s.selectedMag = some (s.reg r).mag := by
  simp [State.selectedMag, selectionOf_big h]

theorem State.selectedMag_keyN {s : State} (h : s.sel.toNat = 16) : s.selectedMag = some s.key.n := by
  simp [State.selectedMag, selectionOf, h]

theorem State.selectedMag_keyNsq {s : State} (h : s.sel.toNat = 17) : s.selectedMag = some s.key.nsq := by
  simp [State.selectedMag, selectionOf, h]

theorem State.selectedMag_keyG {s : State} (h : s.sel.toNat = 18) : s.selectedMag = some s.key.g := by
  simp [State.selectedMag, selectionOf, h]

/-! ## What a busy engine shields (R40) -/

/-- While busy an access keeps the big registers, the key slot, the word in flight and CMD. -/
theorem Served.shielded {s t : State} (h : Served s t) (hb : s.busy = true) :
    t.br = s.br ∧ t.key = s.key ∧ t.pend = s.pend ∧ t.cmd = s.cmd := by
  cases h with
  | issued _ hidle => rw [hb] at hidle; cases hidle
  | register _ _ hidle _ => rw [hb] at hidle; cases hidle
  | _ => exact ⟨rfl, rfl, rfl, rfl⟩

/-- The state with other contents of the big registers. -/
def State.withBigRegs (s : State) (br : Vector BigReg 16) : State := { s with br := br }

section
variable {s : State} (hb : s.busy = true) (br : Vector BigReg 16)
include hb

theorem State.withBigRegs_busy : (s.withBigRegs br).busy = true := hb

/-- While busy no read shows a big register: the window and SIGN refuse. -/
theorem State.peek_withBigRegs (l : Location) : (s.withBigRegs br).peek l = s.peek l := by
  have hb' := State.withBigRegs_busy hb br
  cases l with
  | sign | limb _ => simp only [State.peek, State.readSign, State.readLimb, hb, hb', true_or, if_true]
  | _ => rfl

/-- While busy no write's effect depends on a big register: the window, SIGN and REGCLR refuse. -/
theorem State.poke_withBigRegs (v : Word) (l : Location) :
    (s.withBigRegs br).poke v l = (s.poke v l).map (·.withBigRegs br) := by
  have hb' := State.withBigRegs_busy hb br
  cases l with
  | cmd => simp only [State.poke, State.writeCmd, hb, hb', if_true]; rfl
  | sign | regClr | limb _ =>
    simp only [State.poke, State.writeSign, State.writeRegClr, State.writeLimb, hb, hb', true_or, if_true,
      Option.map_none]
  | _ => rfl

theorem State.serveRead_withBigRegs (l : Location) : (s.withBigRegs br).serveRead l = (s.serveRead l).withBigRegs br := by
  have hpeek := State.peek_withBigRegs hb br l
  cases h : s.peek l with rw [h] at hpeek
  | none => rw [State.serveRead_refused h, State.serveRead_refused hpeek]; rfl
  | some w => rw [State.serveRead_of_peek h, State.serveRead_of_peek hpeek]; rfl

theorem State.serveWrite_withBigRegs (v : Word) (l : Location) :
    (s.withBigRegs br).serveWrite v l = (s.serveWrite v l).withBigRegs br := by
  have hpoke := State.poke_withBigRegs hb br v l
  cases h : s.poke v l with rw [h] at hpoke
  | none => rw [State.serveWrite_refused h, State.serveWrite_refused hpoke]; rfl
  | some t => rw [State.serveWrite_of_poke h, State.serveWrite_of_poke hpoke]

/-- While busy the effect of an access does not depend on the big registers (R40). -/
theorem State.serve_withBigRegs (size : AccessSize) (off : Nat) (op : BusOp) :
    (s.withBigRegs br).serve size off op = (s.serve size off op).withBigRegs br := by
  by_cases hd : accessDefined size off = true
  · obtain ⟨rfl, haligned⟩ := (accessDefined_eq_true_iff size off).1 hd
    cases op with
    | read => simp only [State.serve_read_aligned _ haligned, State.serveRead_withBigRegs hb]
    | write v => simp only [State.serve_write_aligned _ haligned, State.serveWrite_withBigRegs hb]
  · simp only [State.serve_undefined _ (Bool.eq_false_iff.2 hd)]
    cases op <;> rfl

end

/-! ## The statements about the bus -/

/-- Settles O33: an access with a cause is refused, and a refusal has a cause, so one with none is its location's own read
or write; the equations of the registers' writes show which bits they read. -/
theorem accessesAreRefusedExactlyForTheListedCauses : Obligations.AccessesAreRefusedExactlyForTheListedCauses := by
  unfold Obligations.AccessesAreRefusedExactlyForTheListedCauses
  refine ⟨fun s size off op hoff => ⟨fun hcause => ?_, fun hnone => ⟨?_, ?_, ?_⟩⟩, State.serve_read_regClr,
    fun s v v' => ⟨fun h => ⟨?_, ?_⟩, fun h => ⟨?_, ?_⟩, fun hdone hflags => ?_⟩, fun s a hlo hhi => ?_⟩
  · rw [State.serve_of_refusalCause hcause]
    exact ⟨by rintro v rfl; rfl, by rintro rfl; rfl⟩
  · rintro rfl
    exact State.serve_read_of_no_refusalCause hoff hnone
  · rintro v rfl hreadOnly
    obtain ⟨rfl, _⟩ := accessDefined_of_no_refusalCause hnone
    rcases hreadOnly with rfl | rfl | rfl
    · exact s.serve_write_id v
    · exact s.serve_write_param v
    · exact s.serve_write_keyInfo v
  · rintro v rfl hstatus
    exact State.poke_accerr (mt eq_of_locate_status hstatus) (State.serve_write_of_no_refusalCause hoff hnone)
  · rw [s.serve_write_ctrl, s.serve_write_ctrl, lowBit_congr h]
  · exact s.serve_write_sign_congr (lowBit_congr h)
  · rw [s.serve_write_sel, s.serve_write_sel, lowFive_congr h]
  · exact s.serve_write_regClr_congr (lowFive_congr h)
  · have hovr : v.toNat / 16 % 2 = v'.toNat / 16 % 2 := by omega
    have upper (x : Nat) : x / 32 % 2 = x / 16 % 4 / 2 := by omega
    have haccerr : v.toNat / 32 % 2 = v'.toNat / 32 % 2 := by rw [upper, upper, hflags]
    rw [s.serve_write_status, s.serve_write_status, State.acknowledge, State.acknowledge, Status.writeOneToClear_eq,
      Status.writeOneToClear_eq, hdone, hovr, haccerr]
  · exact ⟨_, if_pos (by simp [addressesBlock, spaceSize, hlo, hhi])⟩

/-- Settles O35: each access's equation while busy, and the inversion of a served access for what stays. -/
theorem busyEngineShieldsItsRegisters : Obligations.BusyEngineShieldsItsRegisters := by
  unfold Obligations.BusyEngineShieldsItsRegisters
  intro s hbusy
  have hb : s.busy = true := s.busy_iff.2 hbusy
  refine ⟨fun i hi => ⟨State.serve_read_limb_refused hi (.inl hbusy), State.serve_write_limb_refused hi (.inl hbusy)⟩,
    ⟨State.serve_read_sign_refused (.inl hbusy), fun v => ⟨State.serve_write_sign_refused (.inl hbusy) v,
      State.serve_write_regClr_refused (.inl hbusy), (s.serve_write_cmd v).trans (State.writeCmd_busy hbusy v)⟩⟩,
    ⟨s.serve_read_id, s.serve_read_param, s.serve_read_ctrl, s.serve_read_status, s.serve_read_cmd, s.serve_read_sel,
      s.serve_read_keyInfo⟩,
    fun v => ⟨s.serve_write_ctrl v, s.serve_write_status v, ?_⟩, fun size off op _ => ?_⟩
  · rw [s.serve_write_sel, toNat_lowFive]
  · obtain ⟨hbr, hkey, hpend, hcmd⟩ := (s.served_serve size off op).shielded hb
    exact ⟨hbr, hkey, hpend, hcmd, fun br => State.serve_withBigRegs hb br size off op⟩

/-- Settles O36: a limb read by what SEL selects, a limb write bit by bit, and the window's two refusals. -/
theorem windowReadsAndWritesOneLimb : Obligations.WindowReadsAndWritesOneLimb := by
  unfold Obligations.WindowReadsAndWritesOneLimb
  intro s i hi
  refine ⟨fun hidle hl => ⟨fun r hr => ⟨?_, fun v => ?_⟩, fun hsel => ?_, fun hsel => ?_, fun hsel => ?_⟩,
    State.serve_read_limb_refused hi, State.serve_write_limb_refused hi⟩
  · exact State.readData_limb hi hidle hl (State.selectedMag_big hr)
  · exact ⟨_, State.serve_write_limb_idle hi hidle hl hr v, rfl, testBit_withLimb _ i v⟩
  · exact State.readData_limb hi hidle hl (State.selectedMag_keyN hsel)
  · exact State.readData_limb hi hidle hl (State.selectedMag_keyNsq hsel)
  · exact State.readData_limb hi hidle hl (State.selectedMag_keyG hsel)

end Sys2Proof.Machine
end

section
/-! SUPPORT. The decoder's three checks as conditions on the word's number, and the statement about the illegal words
(30_encoding.md R58, R59). -/

namespace Sys2Proof.Machine

/-! ## The opcode (R57) -/

/-- The opcode field as a number (R50). -/
theorem opField_toNat (w : Word) : (opField w).toNat = w.toNat % 64 := by simp [opField]

/-- Exactly the opcodes 0x00 and 0x0C to 0x3F name no command. -/
theorem mnemonicOf_eq_none_iff (op : BitVec 6) : mnemonicOf op = none ↔ op.toNat = 0x00 ∨ 0x0C ≤ op.toNat := by
  simp only [mnemonicOf, List.find?_eq_none, Mnemonic.all, List.forall_mem_cons, List.not_mem_nil, false_imp_iff,
    implies_true, and_true, beq_iff_eq, Mnemonic.opcode]
  bv_omega

theorem opcode_of_mnemonicOf {op : BitVec 6} {m : Mnemonic} (h : mnemonicOf op = some m) : m.opcode = op := by
  rw [mnemonicOf] at h
  simpa using List.find?_some h

/-! ## Reserved bits (R51 to R55, R58) -/

/-- A mask of the `n` bits from `lo` on keeps nothing of `x` exactly if the number these bits make is 0. -/
theorem and_field_eq_zero_iff (x lo n : Nat) : x &&& (2 ^ n - 1) * 2 ^ lo = 0 ↔ x / 2 ^ lo % 2 ^ n = 0 := by
  have hfield : x &&& (2 ^ n - 1) * 2 ^ lo = x / 2 ^ lo % 2 ^ n * 2 ^ lo := by
    rw [← Nat.and_two_pow_sub_one_eq_mod, ← Nat.shiftLeft_eq, ← Nat.shiftLeft_eq, ← Nat.shiftRight_eq_div_pow]
    apply Nat.eq_of_testBit_eq
    intro i
    by_cases hi : lo ≤ i <;> simp [hi, Bool.and_comm]
  rw [hfield, Nat.mul_eq_zero, or_iff_left (Nat.two_pow_pos lo).ne']

/-- The bits of a word from `lo` on are 0 exactly if the word's quotient by `2^lo` is. -/
theorem and_upper_eq_zero_iff (w : Word) {lo : Nat} (hlo : lo ≤ 32) :
    w.toNat &&& (2 ^ (32 - lo) - 1) * 2 ^ lo = 0 ↔ w.toNat / 2 ^ lo = 0 := by
  rw [and_field_eq_zero_iff, Nat.mod_eq_of_lt]
  rw [Nat.div_lt_iff_lt_mul (Nat.two_pow_pos lo), ← pow_add, Nat.sub_add_cancel hlo]
  exact w.isLt

/-- The reserved bits of a format are those of its mask but the opcode's. -/
theorem reservedBitSet_iff (f : Format) (w : Word) :
    reservedBitSet f w = true ↔ w.toNat &&& (f.mask &&& ~~~0x3F#32).toNat ≠ 0 := by
  rw [reservedBitSet, bne_iff_ne, BitVec.and_assoc, ne_eq, ← BitVec.toNat_inj, BitVec.toNat_and]
  rfl

section
variable (w : Word)

theorem reservedBitSet_r4_iff : reservedBitSet .r4 w = true ↔ w.toNat / 2 ^ 22 ≠ 0 :=
  (reservedBitSet_iff .r4 w).trans (and_upper_eq_zero_iff w (lo := 22) (by decide)).not

theorem reservedBitSet_i_iff : reservedBitSet .i w = true ↔ w.toNat / 2 ^ 22 ≠ 0 := reservedBitSet_r4_iff w

theorem reservedBitSet_r3_iff : reservedBitSet .r3 w = true ↔ w.toNat / 2 ^ 18 ≠ 0 :=
  (reservedBitSet_iff .r3 w).trans (and_upper_eq_zero_iff w (lo := 18) (by decide)).not

theorem reservedBitSet_e_iff : reservedBitSet .e w = true ↔ w.toNat / 2 ^ 26 ≠ 0 :=
  (reservedBitSet_iff .e w).trans (and_upper_eq_zero_iff w (lo := 26) (by decide)).not

/-- Format K reserves two runs of bits, on either side of `rs1`. -/
theorem reservedBitSet_k_iff : reservedBitSet .k w = true ↔ fieldNat w 6 ≠ 0 ∨ w.toNat / 2 ^ 14 ≠ 0 := by
  have hmask : (Format.mask .k &&& ~~~0x3F#32).toNat = (2 ^ 4 - 1) * 2 ^ 6 ||| (2 ^ (32 - 14) - 1) * 2 ^ 14 := by decide
  rw [reservedBitSet_iff, hmask, Nat.and_or_distrib_left, ne_eq, Nat.or_eq_zero_iff, and_field_eq_zero_iff,
    and_upper_eq_zero_iff w (by decide), not_and_or]
  rfl

end

/-! ## EGCD's destinations (R58) -/

/-- A register field holds the number of its four bits (R50). -/
theorem regField_val (w : Word) (lo : Nat) : (regField w lo).val = fieldNat w lo := by
  simp [regField, fieldNat, Nat.shiftRight_eq_div_pow]

theorem regField_eq_iff (w : Word) (lo lo' : Nat) :
    regField w lo = regField w lo' ↔ fieldNat w lo = fieldNat w lo' := by
  rw [Fin.ext_iff, regField_val, regField_val]

theorem operandsOf_egcd_eq_none_iff (w : Word) : operandsOf .egcd w = none ↔
    fieldNat w 6 = fieldNat w 18 ∨ fieldNat w 6 = fieldNat w 22 ∨ fieldNat w 18 = fieldNat w 22 := by
  simp only [operandsOf, ite_eq_right_iff, reduceCtorEq, imp_false, distinct3, Bool.and_eq_true, bne_iff_ne,
    ← regField_eq_iff]
  tauto

/-! ## The illegal words (R59) -/

theorem decode_of_no_mnemonic {w : Word} (h : mnemonicOf (opField w) = none) : decode w = none := by
  simp [decode, h]

theorem decode_eq_none_iff_of_mnemonic {w : Word} {m : Mnemonic} (h : mnemonicOf (opField w) = some m) :
    decode w = none ↔ reservedBitSet m.format w = true ∨ operandsOf m w = none := by
  by_cases hres : reservedBitSet m.format w = true <;> simp [decode, h, hres]

/-- For a word with a command's opcode, R59's list comes down to the reserved bits of that command's format and to
EGCD's destinations; R59's bits [31:26] are reserved in every format. -/
theorem illegalWord_iff_of_opcode {w : Word} {m : Mnemonic} (h : w.toNat % 64 = m.opcode.toNat) :
    IllegalWord w ↔ reservedBitSet m.format w = true ∨ operandsOf m w = none := by
  simp only [IllegalWord, h]
  cases m with
  | egcd => simp [Mnemonic.opcode, Mnemonic.format, reservedBitSet_e_iff, operandsOf_egcd_eq_none_iff]
  | modexp | montmul | mrtest =>
    simp [Mnemonic.opcode, Mnemonic.format, reservedBitSet_r4_iff, reservedBitSet_i_iff, operandsOf]
    omega
  | loadkey =>
    simp [Mnemonic.opcode, Mnemonic.format, reservedBitSet_k_iff, operandsOf]
    omega
  | gcd | modinv | lcm | mrwit | hadd | hscale =>
    simp [Mnemonic.opcode, Mnemonic.format, reservedBitSet_r3_iff, operandsOf]
    omega

/-- A word fails to decode exactly if it is in R59's list. -/
theorem decode_eq_none_iff_illegalWord (w : Word) : decode w = none ↔ IllegalWord w := by
  cases h : mnemonicOf (opField w) with
  | none =>
    have hop := (mnemonicOf_eq_none_iff _).1 h
    rw [opField_toNat] at hop
    exact iff_of_true (decode_of_no_mnemonic h) (hop.elim .inl fun hhi => .inr (.inl hhi))
  | some m =>
    have hop : w.toNat % 64 = m.opcode.toNat := by rw [opcode_of_mnemonicOf h, opField_toNat]
    rw [decode_eq_none_iff_of_mnemonic h, illegalWord_iff_of_opcode hop]

/-- A word in flight that does not decode ends with `IllegalCommand` (R59, R64). -/
theorem engineStep_of_decode_eq_none {s : State} {w : Word} (hpend : s.pend = some w) (h : decode w = none) :
    engineStep s = .next (s.complete (.raise .illegalCommand)) := by
  rw [engineStep_of_pend hpend, wordOutcome, h]
  rfl

/-- Settles O5: the list is what fails to decode, and the completion of such a word raises `IllegalCommand`. -/
theorem illegalWordsEndWithIllegalCommand : Obligations.IllegalWordsEndWithIllegalCommand := by
  unfold Obligations.IllegalWordsEndWithIllegalCommand
  refine ⟨decode_eq_none_iff_illegalWord, fun s w hpend hill => ?_⟩
  have hfails := s.complete_raise .illegalCommand
  exact ⟨_, engineStep_of_decode_eq_none hpend ((decode_eq_none_iff_illegalWord w).2 hill), hfails,
    hfails.failed.errcode⟩

end Sys2Proof.Machine
end

section
/-! SUPPORT. The state after the issuing write of CMD (40_command_execution.md R62). -/

namespace Sys2Proof.Machine

/-- A write of CMD with nothing in flight is the issue of its word. -/
theorem State.serve_write_cmd_idle {s : State} (h : s.pend = none) (w : Word) :
    s.serve .w32 0x010 (.write w) = s.issue w :=
  (s.serve_write_cmd w).trans (State.writeCmd_idle h w)

theorem State.issue_busy (s : State) (w : Word) : (s.issue w).busy = true :=
  (s.issue w).busy_iff.2 (Option.some_ne_none w)

/-- The issue clears DONE, and IRQ falls with it (R31, R62). -/
theorem State.issue_irq (s : State) (w : Word) : (s.issue w).irq = false :=
  State.irq_eq_false_of_done s.status.atIssue_done

/-- Settles O8: the write is the issue, whose effect is given field by field; the word is then in flight, so if it does
not decode the engine's next step raises `IllegalCommand`. -/
theorem cmdWriteWhileIdleIssues : Obligations.CmdWriteWhileIdleIssues := by
  unfold Obligations.CmdWriteWhileIdleIssues
  intro s w hidle
  rw [State.serve_write_cmd_idle hidle]
  refine ⟨s.issue_cmd w, s.issue_pend w, s.issue_busy w, s.issue_status w, s.issue_ie w, s.issue_sel w, s.issue_br w,
    s.issue_key w, s.issue_irq w, s.issue_config w, s.issue_readData w, s.issue_source w, s.issue_inputs w,
    fun hdecode => ?_⟩
  have hfailed := ((s.issue w).complete_raise .illegalCommand).failed
  exact ⟨_, engineStep_of_decode_eq_none (s.issue_pend w) hdecode, hfailed.err, hfailed.errcode⟩

end Sys2Proof.Machine
end

section
/-! SUPPORT. What can move the key slot: LOADKEY's successful completion and reset, and no other step
(44_homomorphic.md R87). -/

namespace Sys2Proof.Machine

/-- No host access writes the key slot (R19, R26). -/
theorem Served.key {s t : State} (h : Served s t) : t.key = s.key := by cases h <;> rfl

/-- A completion keeps the key slot, or commits the outcome's new one (R64, R65). -/
theorem State.complete_key (s : State) (o : CmdOutcome) :
    (s.complete o).key = s.key ∨
      ∃ ws k, o = .result ws (some k) ∧ (s.complete o).Succeeded ∧ (s.complete o).key = k := by
  rcases s.complete_cases o with ⟨e, h⟩ | ⟨ws, newKey, ho, _, h⟩
  · exact .inl (h ▸ s.raiseError_key e)
  · rw [h, s.commit_key]
    cases newKey with
    | none => exact .inl rfl
    | some k => exact .inr ⟨ws, k, ho, s.commit_succeeded ws k, rfl⟩

/-- A word whose outcome is a new key slot is a LOADKEY accepted on an absent key (R87, R88). -/
theorem wordOutcome_key {w : Word} {s : State} {ws : List (Reg × Int)} {k : KeySlot}
    (h : (wordOutcome w s).1 = .result ws (some k)) :
    ∃ rs1, decode w = some (.loadkey rs1) ∧ s.key.ready = false ∧ 2 ≤ s.val rs1 ∧
      k = KeySlot.ofModulus (s.val rs1).toNat := by
  unfold wordOutcome at h
  cases hdecode : decode w with
  | none => rw [hdecode] at h; cases h
  | some i =>
    rw [hdecode] at h
    obtain ⟨rs1, rfl, hready, hn, -, hk, -⟩ := outcomeOf_key i s ws k h
    exact ⟨rs1, rfl, hready, hn, hk⟩

/-- The step from `s` to `t` completed a LOADKEY that found the key absent and loaded its operand (R88). -/
def LoadkeyCompleted (s t : State) : Prop :=
  s.key.ready = false ∧ ∃ w rs1, s.pend = some w ∧ decode w = some (.loadkey rs1) ∧ t.Succeeded ∧ 2 ≤ s.val rs1 ∧
    t.key = KeySlot.ofModulus (s.val rs1).toNat

/-- Everything a step can do to the key slot (R87). -/
theorem Stepped.key_cases {s t : State} (h : Stepped s t) :
    t.key = s.key ∨ (s.inputs.head? = some .reset ∧ t.key = KeySlot.absent) ∨ LoadkeyCompleted s t := by
  cases h with
  | idle _ => exact .inl rfl
  | served _ _ _ _ _ hserved => exact .inl hserved.key
  | reset hi => exact .inr (.inl ⟨hi, rfl⟩)
  | completed w hpend =>
    rcases State.complete_key _ (wordOutcome w s.popInput).1 with hkept | ⟨ws, k, ho, hsucceeded, hkey⟩
    · exact .inl hkept
    · obtain ⟨rs1, hdecode, hready, hn, rfl⟩ := wordOutcome_key ho
      exact .inr (.inr ⟨hready, w, rs1, hpend, hdecode, hsucceeded, hn, hkey⟩)

/-- A command whose outcome is an error and which draws no witness fails with it (R64, R65). -/
theorem exec_failsWith_of_outcomeOf {i : Instr} {s : State} {e : CmdError} (h : outcomeOf i s = (.raise e, s.source)) :
    ∃ t, exec i s = .next t ∧ State.FailsWith s t e :=
  ⟨_, exec_eq_complete i s, by rw [h]; exact s.complete_raise e⟩

theorem exec_hadd_of_absent {s : State} (h : s.key.ready = false) (rd rs1 rs2 : Reg) :
    ∃ t, exec (.hadd rd rs1 rs2) s = .next t ∧ State.FailsWith s t .uninitializedKey :=
  exec_failsWith_of_outcomeOf (by simp [outcomeOf, haddOutcome, h])

theorem exec_hscale_of_absent {s : State} (h : s.key.ready = false) (rd rs1 rs2 : Reg) :
    ∃ t, exec (.hscale rd rs1 rs2) s = .next t ∧ State.FailsWith s t .uninitializedKey :=
  exec_failsWith_of_outcomeOf (by simp [outcomeOf, hscaleOutcome, h])

theorem exec_loadkey_of_ready {s : State} (h : s.key.ready = true) (rs1 : Reg) :
    ∃ t, exec (.loadkey rs1) s = .next t ∧ State.FailsWith s t .keyLocked :=
  exec_failsWith_of_outcomeOf (by simp [outcomeOf, loadkeyOutcome, h])

/-- Settles O28: a step keeps the key slot, resets it or completes a LOADKEY; the last needs an absent key, and an
absent key is what HADD and HSCALE, a ready one what LOADKEY refuses. -/
theorem keySlotHasTwoStates : Obligations.KeySlotHasTwoStates := by
  unfold Obligations.KeySlotHasTwoStates
  refine ⟨fun s t hstep hready => ?_, fun s t hstep _ hne => ?_,
    fun rd rs1 rs2 s habsent => ⟨exec_hadd_of_absent habsent rd rs1 rs2, exec_hscale_of_absent habsent rd rs1 rs2⟩,
    fun rs1 s hready => exec_loadkey_of_ready hready rs1⟩
  · rcases (step_stepped hstep).key_cases with hkept | hreset | ⟨habsent, -⟩
    · exact .inl hkept
    · exact .inr hreset
    · cases hready.symm.trans habsent
  · rcases (step_stepped hstep).key_cases with hkept | hreset |
      ⟨-, w, rs1, hpend, hdecode, hsucceeded, hn, hkey⟩
    · exact absurd hkept hne
    · exact .inl hreset
    · refine .inr ⟨w, rs1, hpend, hdecode, hsucceeded, ?_, hn, ?_⟩ <;> rw [hkey]
      · rfl
      · exact Int.toNat_of_nonneg (by omega)

end Sys2Proof.Machine
end

section
/-! SUPPORT. Every step keeps the invariant of the block, said for each of the four things a step can be
(10_state.md R17 to R19, 40_command_execution.md R62 to R64). -/

namespace Sys2Proof.Machine

/-! ## Reset -/

theorem KeySlot.inv_absent (bound : Nat) : KeySlot.absent.Inv bound := .inl rfl

/-- The reset state of a configuration meets the invariant (R34). -/
theorem State.inv_resetWith {c : Config} (h : c.wf = true) : (State.resetWith c).Inv where
  config_wf := h
  in_range i := by
    rw [State.reg_resetWith]
    exact Nat.two_pow_pos _
  key_inv := KeySlot.inv_absent _
  err_iff := iff_of_false nofun (not_not.2 rfl)
  code_produced := List.mem_cons_self
  busy_clear := nofun
  pend_is_cmd := nofun

/-- What the invariant reads. CTRL, SEL, the bus port, the witness source and the inputs are free, and so are OVR and
ACCERR; DONE may fall. -/
theorem State.Inv.congr {s t : State} (h : s.Inv) (hconfig : t.config = s.config) (hbr : t.br = s.br)
    (hkey : t.key = s.key) (hdone : t.status.done = true → s.status.done = true) (herr : t.status.err = s.status.err)
    (hcode : t.status.errcode = s.status.errcode) (hcmd : t.cmd = s.cmd) (hpend : t.pend = s.pend) : t.Inv where
  config_wf := hconfig ▸ h.config_wf
  in_range i := by
    rw [State.reg_eq_of_br_eq hbr, hconfig]
    exact h.in_range i
  key_inv := by
    rw [hkey, hconfig]
    exact h.key_inv
  err_iff := by
    rw [herr, hcode]
    exact h.err_iff
  code_produced := hcode ▸ h.code_produced
  busy_clear hb := by
    obtain ⟨hd, he⟩ := h.busy_clear (by rwa [State.busy, ← hpend])
    exact ⟨Bool.eq_false_iff.2 fun ht => Bool.false_ne_true (hd.symm.trans (hdone ht)), herr.trans he⟩
  pend_is_cmd w hw := hcmd.trans (h.pend_is_cmd w (hpend ▸ hw))

theorem State.Inv.popInput {s : State} (h : s.Inv) : s.popInput.Inv := h.congr rfl rfl rfl id rfl rfl rfl rfl

theorem State.Inv.withSource {s : State} (h : s.Inv) (w : WitnessSource) : (s.withSource w).Inv :=
  h.congr rfl rfl rfl id rfl rfl rfl rfl

/-! ## A served access -/

/-- The issue of a word clears DONE, ERR and ERRCODE, as a word in flight demands (R62). -/
theorem State.Inv.issue {s : State} (h : s.Inv) (w : Word) : (s.issue w).Inv where
  config_wf := h.config_wf
  in_range := h.in_range
  key_inv := h.key_inv
  err_iff := iff_of_false nofun (not_not.2 rfl)
  code_produced := List.mem_cons_self
  busy_clear _ := ⟨rfl, rfl⟩
  pend_is_cmd _ hw := Option.some.inj hw

/-- A register write keeps the invariant if the new content fits (R17). -/
theorem State.Inv.setReg {s : State} (h : s.Inv) (r : Reg) {b : BigReg} (hb : b.mag < s.config.bound) :
    (s.setReg r b).Inv where
  config_wf := h.config_wf
  in_range i := by
    rw [State.reg_setReg]
    split
    · exact hb
    · exact h.in_range i
  key_inv := h.key_inv
  err_iff := h.err_iff
  code_produced := h.code_produced
  busy_clear := h.busy_clear
  pend_is_cmd := h.pend_is_cmd

/-- Every host access keeps the invariant. -/
theorem Served.inv {s t : State} (hs : Served s t) (h : s.Inv) : t.Inv := by
  cases hs with
  | status v => exact h.congr rfl rfl rfl (fun hd => (Bool.and_eq_true_iff.1 hd).1) rfl rfl rfl rfl
  | issued w _ => exact h.issue w
  | register r b _ hb => exact h.setReg r (hb.mag_lt (h.in_range r))
  | _ => exact h.congr rfl rfl rfl id rfl rfl rfl rfl

/-! ## A completion -/

theorem CmdError.code_produced (e : CmdError) : e.code ∈ producedCodes := by cases e <;> decide

/-- A key slot made from a modulus whose square fits is coherent (R88). -/
theorem KeySlot.inv_ofModulus {n bound : Nat} (h2 : 2 ≤ n) (hfit : n * n < bound) : (KeySlot.ofModulus n).Inv bound :=
  .inr ⟨rfl, h2, hfit⟩

/-- Committed results fit their registers, because `Overflow` is checked first (R17, R68). -/
theorem State.InRange.complete {s : State} (h : s.InRange) (o : CmdOutcome) : (s.complete o).InRange := by
  intro i
  rcases s.complete_cases o with ⟨e, he⟩ | ⟨ws, k, -, hfit, hc⟩
  · rw [he]
    exact h i
  · rw [hc, State.reg_commit, (s.commit_frame ws k).config]
    rcases s.reg_writeAll_cases ws i with hold | ⟨p, hp, -, hnew⟩
    · rw [hold]
      exact h i
    · rw [hnew]
      exact resultsFit_regs hfit hp

/-- A completion keeps the invariant if the key slot it may commit is coherent (R64, R65). -/
theorem State.Inv.complete {s : State} (h : s.Inv) (o : CmdOutcome)
    (hkey : ∀ ws k, o = .result ws (some k) → k.Inv s.config.bound) : (s.complete o).Inv := by
  obtain ⟨dests, hframe⟩ := s.complete_frame o
  have hidle := s.complete_pend o
  have hended := s.complete_ended o
  refine ⟨hframe.config ▸ h.config_wf, h.in_range.complete o, ?_, ?_, ?_, fun hb => ?_, fun w hw => ?_⟩
  · rw [hframe.config]
    rcases s.complete_key o with hkept | ⟨ws, k, ho, -, hnew⟩
    · rw [hkept]
      exact h.key_inv
    · rw [hnew]
      exact hkey ws k ho
  · rcases s.complete_err o with ⟨herr, hcode⟩ | ⟨herr, hcode⟩ <;> simp [herr, hcode]
  · rcases hended with hok | ⟨e, hfail⟩
    · rw [hok.errcode]
      decide
    · rw [hfail.errcode]
      exact e.code_produced
  · exact absurd hidle ((s.complete o).busy_iff.1 hb)
  · cases hidle.symm.trans hw

/-- The word in flight commits a key slot only as LOADKEY, which has checked that it is coherent (R88). -/
theorem wordOutcome_key_inv {w : Word} {s : State} {ws : List (Reg × Int)} {k : KeySlot}
    (h : (wordOutcome w s).1 = .result ws (some k)) : k.Inv s.config.bound := by
  unfold wordOutcome at h
  cases hdecode : decode w with
  | none => rw [hdecode] at h; cases h
  | some i =>
    rw [hdecode] at h
    obtain ⟨rs1, -, -, h2, hfit, rfl, -⟩ := outcomeOf_key i s ws k h
    obtain ⟨n, hn⟩ := Int.eq_ofNat_of_zero_le (a := s.val rs1) (by omega)
    rw [hn] at h2 hfit ⊢
    rw [Int.toNat_natCast]
    exact KeySlot.inv_ofModulus (by omega) (by simpa [Int.natAbs_mul] using hfit)

theorem Stepped.inv {s t : State} (hs : Stepped s t) (h : s.Inv) : t.Inv := by
  cases hs with
  | idle _ => exact h.popInput
  | completed w _ => exact (h.popInput.withSource _).complete _ fun _ _ ho => wordOutcome_key_inv (s := s.popInput) ho
  | served _ _ _ _ _ hserved => exact hserved.inv h.popInput
  | reset _ => exact (State.inv_resetWith h.config_wf).congr rfl rfl rfl id rfl rfl rfl rfl

/-- Settles O51: each of the four things a step can be keeps the invariant. -/
theorem everyStepKeepsTheInvariant : Obligations.EveryStepKeepsTheInvariant := by
  unfold Obligations.EveryStepKeepsTheInvariant
  exact fun s t hinv hstep => (step_stepped hstep).inv hinv

/-- Settles O50: the reset state of any well-formed configuration, of which the reference is one. -/
theorem resetSatisfiesTheInvariant : Obligations.ResetSatisfiesTheInvariant := by
  unfold Obligations.ResetSatisfiesTheInvariant
  exact ⟨State.inv_resetWith (by decide), fun c hc => State.inv_resetWith hc⟩

end Sys2Proof.Machine
end

section
/-! SUPPORT. What a completed command leaves as it was and what its outcome depends on (40_command_execution.md R64, R65,
R71), and the statements about steps and resets. -/

namespace Sys2Proof.Machine

/-! ## The state after a command -/

/-- The state in which command `i` ends: the completion of its outcome (R64). -/
def State.completed (s : State) (i : Instr) : State := (s.withSource (outcomeOf i s).2).complete (outcomeOf i s).1

theorem exec_eq_completed (i : Instr) (s : State) : exec i s = .next (s.completed i) := exec_eq_complete i s

theorem eq_completed_of_exec {i : Instr} {s t : State} (h : exec i s = .next t) : t = s.completed i :=
  Host.Outcome.next.inj (h.symm.trans (exec_eq_completed i s))

theorem State.Frame.mono {s t : State} {d d' : List Reg} (h : State.Frame s t d) (hsub : d ⊆ d') : State.Frame s t d' :=
  { h with regs := fun r hr => h.regs r fun hd => hr (hsub hd) }

/-- A frame does not read the witness source. -/
theorem State.Frame.of_withSource {s t : State} {w : WitnessSource} {d : List Reg}
    (h : State.Frame (s.withSource w) t d) : State.Frame s t d :=
  ⟨h.regs, h.config, h.ie, h.ovr, h.accerr, h.cmd, h.sel, h.readData, h.inputs⟩

/-- A command changes no register but its destinations (R64, R65). -/
theorem State.completed_frame (s : State) (i : Instr) : State.Frame s (s.completed i) i.dests := by
  unfold State.completed
  rcases State.complete_cases _ (outcomeOf i s).1 with ⟨e, h⟩ | ⟨ws, k, ho, -, h⟩ <;> rw [h]
  · exact (State.complete_raise _ e).frame.of_withSource.mono (List.nil_subset _)
  · rw [← outcomeOf_dests i s ws k ho]
    exact (State.commit_frame _ ws k).of_withSource

/-- A completion that reports an error writes no register and no key field (R65, R100). -/
theorem State.complete_unwritten {s : State} {o : CmdOutcome} (h : (s.complete o).status.err = true) :
    (s.complete o).br = s.br ∧ (s.complete o).key = s.key := by
  rcases s.complete_cases o with ⟨e, he⟩ | ⟨ws, k, -, -, hc⟩
  · rw [he]
    exact ⟨rfl, rfl⟩
  · rw [hc, (s.commit_succeeded ws k).err] at h
    cases h

theorem State.complete_source (s : State) (o : CmdOutcome) : (s.complete o).source = s.source := by
  rcases s.complete_cases o with ⟨e, he⟩ | ⟨ws, k, -, -, hc⟩
  · rw [he]
    rfl
  · rw [hc, s.commit_source]

/-- Only MRTEST draws witnesses (R82). -/
theorem outcomeOf_source {i : Instr} (h : i.mnemonic ≠ .mrtest) (s : State) : (outcomeOf i s).2 = s.source := by
  cases i with
  | mrtest => exact absurd rfl h
  | _ => rfl

/-- Only LOADKEY writes the key slot (R19, R65). -/
theorem State.completed_key {i : Instr} (h : i.mnemonic ≠ .loadkey) (s : State) : (s.completed i).key = s.key := by
  rcases State.complete_key (s.withSource (outcomeOf i s).2) (outcomeOf i s).1 with hkept | ⟨ws, k, ho, -, -⟩
  · exact hkept
  · obtain ⟨rs1, rfl, -⟩ := outcomeOf_key i s ws k ho
    exact absurd rfl h

/-- Settles O10: every command is the completion of its outcome, whose frame, error report and writes are known. -/
theorem everyCommandCompletesWithinItsFrame : Obligations.EveryCommandCompletesWithinItsFrame := by
  unfold Obligations.EveryCommandCompletesWithinItsFrame
  intro i s
  refine ⟨s.completed i, exec_eq_completed i s, State.complete_pend _ _, State.complete_done _ _, s.completed_frame i, ?_,
    fun h => State.completed_key h s, fun h => (State.complete_source _ _).trans (outcomeOf_source h s)⟩
  rcases State.complete_err (s.withSource (outcomeOf i s).2) (outcomeOf i s).1 with hok | ⟨herr, hcode⟩
  · exact .inl hok
  · exact .inr ⟨herr, hcode, State.complete_unwritten herr⟩

/-! ## The outcome is a function of the operand values (R71) -/

theorem outcomeOf_congr {i : Instr} {s s' : State} (hlimbs : s.config.limbs = s'.config.limbs) (hkey : s.key = s'.key)
    (hval : ∀ r ∈ i.sources, s.val r = s'.val r) (hsource : i.mnemonic = .mrtest → s.source = s'.source) :
    (outcomeOf i s).1 = (outcomeOf i s').1 := by
  cases i with
  | mrtest rd rs1 k =>
    simp only [outcomeOf, hval rs1 (by simp [Instr.sources]), hsource rfl]
  | _ =>
    simp only [Instr.sources, List.forall_mem_cons] at hval
    simp only [outcomeOf, State.keyNsq, Config.width, hval, hkey, hlimbs]

/-- What the writes leave in a register they name does not depend on the state before. -/
theorem State.reg_writeAll_congr (s s' : State) {ws : List (Reg × Int)} {r : Reg} (h : r ∈ ws.map Prod.fst) :
    (s.writeAll ws).reg r = (s'.writeAll ws).reg r := by
  induction ws generalizing s s' with
  | nil => cases h
  | cons p ws ih =>
    rw [State.writeAll, State.writeAll]
    by_cases hr : r ∈ ws.map Prod.fst
    · exact ih _ _ hr
    · obtain rfl : r = p.1 := (List.mem_cons.1 h).resolve_right hr
      rw [State.reg_writeAll_of_notMem _ _ _ hr, State.reg_writeAll_of_notMem _ _ _ hr, State.writeInt, State.writeInt,
        State.reg_setReg_self, State.reg_setReg_self]

/-- One outcome completed in two states with the same width and key slot. -/
theorem State.complete_congr {s s' : State} (o : CmdOutcome) (hlimbs : s.config.limbs = s'.config.limbs)
    (hkey : s.key = s'.key) : (s.complete o).status.err = (s'.complete o).status.err ∧
      (s.complete o).status.errcode = (s'.complete o).status.errcode ∧ (s.complete o).key = (s'.complete o).key ∧
      ((s.complete o).status.err = false → ∀ ws k, o = .result ws k → ∀ r ∈ ws.map Prod.fst,
        (s.complete o).reg r = (s'.complete o).reg r) := by
  cases o with
  | raise e => exact ⟨rfl, rfl, hkey, nofun⟩
  | result ws k =>
    have hwidth : s.config.width = s'.config.width := congrArg (32 * ·) hlimbs
    rw [State.complete, State.complete, hwidth]
    by_cases hfit : resultsFit s'.config.width ws k = true
    · rw [if_pos hfit, if_pos hfit]
      refine ⟨rfl, rfl, by rw [s.commit_key, s'.commit_key, hkey], fun _ _ _ ho r hr => ?_⟩
      obtain ⟨rfl, rfl⟩ := CmdOutcome.result.inj ho
      rw [s.reg_commit, s'.reg_commit, s.reg_writeAll_congr s' hr]
    · rw [if_neg hfit, if_neg hfit]
      exact ⟨rfl, rfl, hkey, nofun⟩

/-- Settles O12: the outcome reads the registers by value only, and its completion depends on the width and the key slot. -/
theorem outcomeDependsOnOperandValuesOnly : Obligations.OutcomeDependsOnOperandValuesOnly := by
  unfold Obligations.OutcomeDependsOnOperandValuesOnly
  intro i s s' t t' ht ht' hlimbs hkey hval hsource
  obtain rfl := eq_completed_of_exec ht
  obtain rfl := eq_completed_of_exec ht'
  have ho := outcomeOf_congr hlimbs hkey hval hsource
  unfold State.completed
  rw [← ho]
  obtain ⟨herr, hcode, hkey', hregs⟩ := State.complete_congr (s := s.withSource (outcomeOf i s).2)
    (s' := s'.withSource (outcomeOf i s').2) (outcomeOf i s).1 hlimbs hkey
  refine ⟨herr, hcode, hkey', fun hok r hr => ?_⟩
  rcases State.complete_cases (s.withSource (outcomeOf i s).2) (outcomeOf i s).1 with ⟨e, he⟩ | ⟨ws, k, hres, -, -⟩
  · rw [he] at hok
    cases hok
  · exact hregs hok ws k hres r (by rwa [outcomeOf_dests i s ws k hres])

/-! ## Steps -/

theorem engineStep_of_decode {s : State} {w : Word} {i : Instr} (hpend : s.pend = some w) (hdecode : decode w = some i) :
    engineStep s = exec i s := by
  simp [engineStep, hpend, executeWord, hdecode]

theorem engineStep_of_idle {s : State} (h : s.pend = none) : engineStep s = .next s := by simp [engineStep, h]

/-- What the engine's step can be: idle, or the completion of the word in flight (R64, R108). -/
theorem engineStep_cases {s t : State} (h : engineStep s = .next t) : s.pend = none ∧ t = s ∨
    ∃ w, s.pend = some w ∧ t = (s.withSource (wordOutcome w s).2).complete (wordOutcome w s).1 := by
  cases hp : s.pend with
  | none => exact .inl ⟨rfl, Host.Outcome.next.inj (h.symm.trans (engineStep_of_idle hp))⟩
  | some w => exact .inr ⟨w, rfl, Host.Outcome.next.inj (h.symm.trans (engineStep_of_pend hp))⟩

/-- Settles O7: with no input left, or the engine as the next one, a step is the engine's, which runs the decoded command. -/
theorem stepRunsTheCommandInFlight : Obligations.StepRunsTheCommandInFlight := by
  unfold Obligations.StepRunsTheCommandInFlight
  intro s w i hpend hdecode
  refine ⟨fun hinputs => ?_, fun rest hinputs => ?_⟩
  · rw [step, hinputs]
    exact engineStep_of_decode hpend hdecode
  · rw [step, hinputs]
    exact engineStep_of_decode (s := s.withInputs rest) hpend hdecode

/-! ## Reset (R34, R110) -/

theorem State.keyInfoWord_absent {s : State} (h : s.key = KeySlot.absent) : s.keyInfoWord = 0x00000000#32 := by
  rw [State.keyInfoWord, h]
  decide

theorem State.selWord_zero {s : State} (h : s.sel = 0#5) : s.selWord = 0x00000000#32 := by
  rw [State.selWord, h]
  rfl

theorem State.ctrlWord_zero {s : State} (h : s.ie = false) : s.ctrlWord = 0x00000000#32 := by
  rw [State.ctrlWord, h]
  rfl

theorem State.statusWord_zero {s : State} (hstatus : s.status = Status.zero) (hkey : s.key = KeySlot.absent)
    (hpend : s.pend = none) : s.statusWord = 0x00000000#32 := by
  rw [State.statusWord, State.busy, hstatus, hkey, hpend]
  rfl

/-- Settles O49: a reset step leads to the reset state of the configuration, with the rest of the inputs and the source. -/
theorem resetGivesEveryResetValue : Obligations.ResetGivesEveryResetValue := by
  unfold Obligations.ResetGivesEveryResetValue
  refine ⟨fun s rest hinputs => ⟨(s.withInputs rest).hardReset, by rw [step, hinputs], State.reg_hardReset _, ?_⟩,
    State.reg_resetWith _, ?_⟩
  · exact ⟨rfl, State.ctrlWord_zero rfl, State.statusWord_zero rfl rfl rfl, rfl, State.selWord_zero rfl,
      State.keyInfoWord_absent rfl, rfl, rfl, rfl, rfl, rfl, rfl, rfl⟩
  · exact ⟨rfl, State.ctrlWord_zero rfl, State.statusWord_zero rfl rfl rfl, rfl, State.selWord_zero rfl,
      State.keyInfoWord_absent rfl, rfl, rfl, rfl⟩

/-! ## What changes a big register (R18) -/

/-- The window, SIGN and REGCLR are the only locations whose write can change a big register. -/
theorem State.poke_br {s t : State} {v : Word} {l : Location} (h : s.poke v l = some t)
    (hl : l ≠ .sign ∧ l ≠ .regClr ∧ ∀ i, l ≠ .limb i) : t.br = s.br := by
  cases l with
  | sign => exact absurd rfl hl.1
  | regClr => exact absurd rfl hl.2.1
  | limb i => exact absurd rfl (hl.2.2 i)
  | cmd =>
    cases h
    unfold State.writeCmd
    split <;> rfl
  | unmapped => cases h
  | _ => cases h; rfl

theorem State.serveRead_br (s : State) (l : Location) : (s.serveRead l).br = s.br := by
  unfold State.serveRead
  split <;> rfl

theorem State.refuse_br (s : State) (op : BusOp) : (s.refuse op).br = s.br := by cases op <;> rfl

/-- A write that changes the register file names the window, SIGN or REGCLR (R18, R36). -/
theorem State.location_of_serveWrite_br {s : State} {v : Word} {off : Nat}
    (h : (s.serveWrite v (locate off)).br ≠ s.br) : inWindow off ∨ off = 0x018 ∨ off = 0x020 := by
  by_contra hoff
  push Not at hoff
  obtain ⟨hwindow, hsign, hclear⟩ := hoff
  cases hpoke : s.poke v (locate off) with
  | none => exact h (by rw [State.serveWrite_refused hpoke]; rfl)
  | some t =>
    refine h ((congrArg State.br (State.serveWrite_of_poke hpoke)).trans (State.poke_br hpoke ⟨?_, ?_, ?_⟩))
    · exact mt eq_of_locate_sign hsign
    · exact mt eq_of_locate_regClr hclear
    · exact fun i hi => hwindow (inWindow_of_locate hi).1

/-- An access that changes the register file is a 32-bit write of the window, SIGN or REGCLR (R18, R37). -/
theorem State.access_of_serve_br_ne {s : State} {size : AccessSize} {off : Nat} {op : BusOp}
    (h : (s.serve size off op).br ≠ s.br) :
    size = .w32 ∧ (∃ v, op = .write v) ∧ (inWindow off ∨ off = 0x018 ∨ off = 0x020) := by
  by_cases hd : accessDefined size off = true
  · obtain ⟨rfl, haligned⟩ := (accessDefined_eq_true_iff size off).1 hd
    cases op with
    | read => exact absurd (s.serve_read_aligned haligned ▸ s.serveRead_br _) h
    | write v => exact ⟨rfl, ⟨v, rfl⟩, State.location_of_serveWrite_br (s.serve_write_aligned haligned v ▸ h)⟩
  · exact absurd (s.serve_undefined (Bool.eq_false_iff.2 hd) op ▸ s.refuse_br op) h

/-- Only an idle block lets an access change the register file (R40). -/
theorem Served.idle_of_br_ne {s t : State} (h : Served s t) (hne : t.br ≠ s.br) : s.pend = none := by
  cases h with
  | register r b hidle _ => exact not_not.1 fun hp => by rw [s.busy_iff.2 hp] at hidle; cases hidle
  | _ => exact absurd rfl hne

/-- The completion of a word changes a register only as a destination of its command, which succeeds (R18, R64, R65). -/
theorem command_of_complete_reg_ne {w : Word} {s : State} {r : Reg}
    (h : ((s.withSource (wordOutcome w s).2).complete (wordOutcome w s).1).reg r ≠ s.reg r) :
    ∃ i, decode w = some i ∧ r ∈ i.dests ∧
      ((s.withSource (wordOutcome w s).2).complete (wordOutcome w s).1).Succeeded := by
  unfold wordOutcome at h ⊢
  cases hdecode : decode w with
  | none => simp only [hdecode] at h; exact absurd rfl h
  | some i =>
    simp only [hdecode] at h ⊢
    refine ⟨i, rfl, not_not.1 fun hr => h ((s.completed_frame i).regs r hr), ?_⟩
    rcases State.complete_cases (s.withSource (outcomeOf i s).2) (outcomeOf i s).1 with ⟨e, he⟩ | ⟨ws, k, -, -, hc⟩
    · rw [he] at h
      exact absurd rfl h
    · rw [hc]
      exact State.commit_succeeded _ ws k

/-- Settles O47: of the four things a step can be, a completion, an access of an idle block and a reset change registers. -/
theorem registersChangeOnlyByCommandHostOrReset : Obligations.RegistersChangeOnlyByCommandHostOrReset := by
  unfold Obligations.RegistersChangeOnlyByCommandHostOrReset
  intro s t r hstep hne
  cases step_stepped hstep with
  | idle _ => exact absurd rfl hne
  | completed w hpend =>
    obtain ⟨i, hdecode, hr, hok⟩ := command_of_complete_reg_ne (s := s.popInput) hne
    exact .inl ⟨w, i, hpend, hdecode, hr, hok⟩
  | reset hi => exact .inr (.inr hi)
  | served a _ hi ha ht hserved =>
    have hbr : t.br ≠ s.popInput.br := fun h => hne (State.reg_eq_of_br_eq h r)
    obtain ⟨hsize, ⟨v, hop⟩, hoff⟩ := State.access_of_serve_br_ne (ht ▸ hbr)
    refine .inr (.inl ⟨hserved.idle_of_br_ne hbr, a.addr - s.config.base, v, ?_, hoff⟩)
    simp only [addressesBlock, Bool.and_eq_true, decide_eq_true_eq] at ha
    rw [hi, Nat.add_sub_cancel' ha.1, ← hsize, ← hop]

/-! ## Progress (R35, R119) -/

theorem Served.config_inputs {s t : State} (h : Served s t) : t.config = s.config ∧ t.inputs = s.inputs := by
  cases h <;> exact ⟨rfl, rfl⟩

/-- The engine's step leaves everything but some registers, the key slot, STATUS and the witness source (R64, R108). -/
theorem engineStep_frame {s t : State} (h : engineStep s = .next t) : ∃ dests, State.Frame s t dests := by
  rcases engineStep_cases h with ⟨-, rfl⟩ | ⟨w, -, rfl⟩
  · exact ⟨[], fun _ _ => rfl, rfl, rfl, rfl, rfl, rfl, rfl, rfl, rfl⟩
  · obtain ⟨dests, hframe⟩ := (s.withSource (wordOutcome w s).2).complete_frame (wordOutcome w s).1
    exact ⟨dests, hframe.of_withSource⟩

/-- A step keeps the parameters and takes one input off the list (R44). -/
theorem Stepped.config_inputs {s t : State} (h : Stepped s t) : t.config = s.config ∧ t.inputs = s.inputs.tail := by
  cases h with
  | idle _ => exact ⟨rfl, rfl⟩
  | completed w hpend =>
    obtain ⟨_, hframe⟩ := engineStep_frame (engineStep_of_pend (s := s.popInput) hpend)
    exact ⟨hframe.config, hframe.inputs⟩
  | served _ _ _ _ _ hserved => exact hserved.config_inputs
  | reset _ => exact ⟨rfl, rfl⟩

/-- With inputs that address the block a step answers a next state, whose inputs address it too. -/
theorem State.inputsAddressed.step {s : State} (h : s.inputsAddressed) :
    ∃ t, step s = .next t ∧ t.inputsAddressed ∧ t.config = s.config ∧ t.inputs = s.inputs.tail := by
  obtain ⟨t, ht⟩ := step_next_of_addressed s fun a ha => h _ (List.mem_of_mem_head? ha)
  obtain ⟨hconfig, hinputs⟩ := (step_stepped ht).config_inputs
  refine ⟨t, ht, fun i hi => ?_, hconfig, hinputs⟩
  rw [hconfig]
  exact h i (List.mem_of_mem_tail (hinputs ▸ hi))

/-- An access outside the block stops the step (R35; log 8). -/
theorem step_outside {s : State} {a : Access} {rest : List Input} (hi : s.inputs = .access a :: rest)
    (ha : ¬addressesBlock s.config a = true) : step s = .fault (.outsideBlock a.addr) := by
  simp only [step, hi, busAccess]
  exact if_neg ha

/-- Settles O52: a step stops on nothing but an access that does not address the block. -/
theorem noStepStopsInsideTheBlock : Obligations.NoStepStopsInsideTheBlock := by
  unfold Obligations.NoStepStopsInsideTheBlock
  refine ⟨fun s h => h.step, fun s hstop => ?_⟩
  obtain ⟨a, hhead, ha⟩ : ∃ a, s.inputs.head? = some (.access a) ∧ ¬addressesBlock s.config a = true := by
    by_contra hall
    push Not at hall
    obtain ⟨t, ht⟩ := step_next_of_addressed s hall
    exact hstop t ht
  have hi : s.inputs = .access a :: s.inputs.tail := (List.cons_head?_tail hhead).symm
  refine ⟨a, s.inputs.tail, hi, ?_, step_outside hi ha⟩
  rw [addressesBlock, Bool.and_eq_true, decide_eq_true_eq, decide_eq_true_eq, not_and_or, not_le, not_lt] at ha
  exact ha

/-- With no input left the engine completes the command in flight (R119; log 3). -/
theorem step_completes {s : State} (hinputs : s.inputs = []) (hpend : s.pend ≠ none) :
    ∃ t, step s = .next t ∧ t.pend = none := by
  obtain ⟨w, hw⟩ := Option.ne_none_iff_exists'.1 hpend
  refine ⟨_, ?_, State.complete_pend (s.withSource (wordOutcome w s).2) (wordOutcome w s).1⟩
  rw [step, hinputs]
  exact engineStep_of_pend hw

/-- Settles O53, by induction on the inputs still to come: a step takes one off, and the one after the last completes. -/
theorem commandsInFlightComplete : Obligations.CommandsInFlightComplete := by
  unfold Obligations.CommandsInFlightComplete
  intro s
  induction hn : s.inputs generalizing s with
  | nil =>
    intro _ hpend
    obtain ⟨t, ht, hidle⟩ := step_completes hn hpend
    exact ⟨1, t, le_rfl, le_rfl, run_succ_of_step core ht, hidle⟩
  | cons i rest ih =>
    intro haddressed hpend
    obtain ⟨t, ht, haddressed', -, hinputs⟩ := haddressed.step
    rw [hn, List.tail_cons] at hinputs
    by_cases hidle : t.pend = none
    · exact ⟨1, t, le_rfl, by simp, run_succ_of_step core ht, hidle⟩
    · obtain ⟨k, u, hk1, hk, hrun, hu⟩ := ih t hinputs haddressed' hidle
      refine ⟨k + 1, u, by omega, ?_, (run_succ_of_step core ht).trans hrun, hu⟩
      rw [List.length_cons]
      omega

/-! ## Inputs in order (R44) -/

/-- The state with other contents of the bus port and other inputs still to come, which no command reads. -/
def State.withBus (s : State) (v : Word) (l : List Input) : State := { s with readData := v, inputs := l }

section
variable (s : State) (v : Word) (l : List Input)

theorem State.writeAll_withBus (ws : List (Reg × Int)) : (s.withBus v l).writeAll ws = (s.writeAll ws).withBus v l := by
  induction ws generalizing s with
  | nil => rfl
  | cons p ws ih => exact ih (s.writeInt p.1 p.2)

theorem State.complete_withBus (o : CmdOutcome) : (s.withBus v l).complete o = (s.complete o).withBus v l := by
  cases o with
  | raise e => rfl
  | result ws k =>
    have hwidth : (s.withBus v l).config.width = s.config.width := rfl
    rw [State.complete, State.complete, hwidth]
    split
    · rw [State.commit, State.commit, State.writeAll_withBus]
      cases k <;> rfl
    · rfl

theorem wordOutcome_withBus (w : Word) : wordOutcome w (s.withBus v l) = wordOutcome w s := by
  unfold wordOutcome
  cases decode w with
  | none => rfl
  | some i => cases i <;> rfl

end

/-- The engine reads neither the bus port nor the inputs still to come. -/
theorem engineStep_withBus {s t : State} (h : engineStep s = .next t) (v : Word) (l : List Input) :
    engineStep (s.withBus v l) = .next (t.withBus v l) := by
  rcases engineStep_cases h with ⟨hp, rfl⟩ | ⟨w, hp, rfl⟩
  · exact engineStep_of_idle (s := t.withBus v l) hp
  · rw [engineStep_of_pend (s := s.withBus v l) hp, wordOutcome_withBus, ← State.complete_withBus]
    rfl

theorem engineStep_withInputs {s t : State} (h : engineStep s = .next t) (l : List Input) :
    engineStep (s.withInputs l) = .next (t.withInputs l) := by
  have ht : engineStep (s.withInputs l) = .next (t.withBus s.readData l) := engineStep_withBus h s.readData l
  obtain ⟨_, hframe⟩ := engineStep_frame h
  rw [ht, ← hframe.readData]
  rfl

/-- A step serves its own input and leaves those behind it. -/
theorem step_cons_of_step {s t : State} {i : Input} (h : step (s.withInputs [i]) = .next t) (l : List Input) :
    step (s.withInputs (i :: l)) = .next (t.withInputs l) := by
  cases i with
  | engine => exact engineStep_withInputs (s := s.withInputs []) h l
  | reset =>
    obtain rfl := Host.Outcome.next.inj h
    rfl
  | access a =>
    change busAccess a (s.withInputs []) = _ at h
    change busAccess a (s.withInputs l) = _
    unfold busAccess at h ⊢
    split at h
    · next ha =>
      obtain rfl := Host.Outcome.next.inj h
      rw [if_pos (show addressesBlock (s.withInputs l).config a = true from ha)]
      simp only [State.serve_withInputs, State.withInputs_config]
      rfl
    · cases h

/-- Settles O46, by induction on the list: each step serves the input that `feed` serves on its own. -/
theorem inputsAreServedInOrder : Obligations.InputsAreServedInOrder := by
  unfold Obligations.InputsAreServedInOrder
  intro l rest s t ws hfeed
  induction l generalizing s ws with
  | nil =>
    obtain ⟨-, rfl⟩ := Prod.mk.inj (Host.Outcome.next.inj hfeed)
    rfl
  | cons i l ih =>
    rw [feed] at hfeed
    cases hs : step (s.withInputs [i]) with
    | fault r => rw [hs] at hfeed; cases hfeed
    | refused r => rw [hs] at hfeed; cases hfeed
    | next u =>
      rw [hs] at hfeed
      simp only at hfeed
      cases hf : feed l u with
      | fault r => rw [hf] at hfeed; cases hfeed
      | refused r => rw [hf] at hfeed; cases hfeed
      | next p =>
        rw [hf] at hfeed
        obtain ⟨-, rfl⟩ := Prod.mk.inj (Host.Outcome.next.inj hfeed)
        exact (run_succ_of_step core (step_cons_of_step hs (l ++ rest))).trans (ih u p.1 hf)

/-! ## Reads (R43) -/

/-- What a read returns does not depend on what the last one returned. -/
theorem State.serve_read_repeat (s : State) (v : Word) (size : AccessSize) (off : Nat) :
    ({ s with readData := v } : State).serve size off .read = s.serve size off .read := by
  unfold State.serve
  split
  · have hpeek : ({ s with readData := v } : State).peek (locate off) = s.peek (locate off) := by
      cases locate off <;> rfl
    simp only [State.serveRead, hpeek]
    cases s.peek (locate off) <;> rfl
  · rfl

/-- Settles O34: a read with no cause of refusal puts one word on the bus port, whatever stood there before. -/
theorem servedReadsHaveNoSideEffect : Obligations.ServedReadsHaveNoSideEffect := by
  unfold Obligations.ServedReadsHaveNoSideEffect
  intro s size off hoff hcause
  obtain ⟨v, hv⟩ := State.serve_read_of_no_refusalCause hoff hcause
  refine ⟨v, hv, ?_⟩
  conv_lhs => rw [hv]
  exact s.serve_read_repeat v size off

end Sys2Proof.Machine
end

section
/-! SUPPORT. What each arithmetic command writes and when it fails: MODEXP, MONTMUL, GCD, EGCD, MODINV, LCM, LOADKEY, HADD
and HSCALE (41_modexp_montgomery.md, 42_gcd_family.md, 44_homomorphic.md). -/

namespace Sys2Proof.Machine

/-! ## A command that writes one register -/

theorem State.holds_of_reg {t : State} {i : Reg} {v : Int} (h : t.reg i = BigReg.ofInt v) : t.Holds i v := by
  rw [State.Holds, h]
  exact ⟨rfl, rfl⟩

theorem State.Holds.reg_eq {t : State} {i : Reg} {v : Int} (h : t.Holds i v) : t.reg i = BigReg.ofInt v := by
  obtain ⟨hsign, hmag⟩ := h
  rw [BigReg.ofInt, ← hsign, ← hmag]

theorem State.Holds.val_eq {t : State} {i : Reg} {v : Int} (h : t.Holds i v) : t.val i = v := by
  rw [State.val, h.reg_eq, BigReg.value_ofInt]

section
variable {i : Instr} {s : State} {rd : Reg}

/-- A command whose outcome is one result that fits writes it (R64, R65). -/
theorem exec_writes {v : Int} (h : outcomeOf i s = (.result [(rd, v)] none, s.source)) (hv : v.natAbs < s.config.bound) :
    ∃ t, exec i s = .next t ∧ State.SucceedsInto s t [rd] ∧ t.Holds rd v := by
  obtain ⟨hsucceeds, hreg⟩ := s.complete_one rd v hv
  exact ⟨_, exec_eq_complete i s, by rw [h]; exact hsucceeds, by rw [h]; exact State.holds_of_reg hreg⟩

/-- A residue of a modulus that fits is below the modulus, so it fits (R17, R70). -/
theorem natAbs_imod_lt (x : Int) {m : Int} {bound : Nat} (hm : 0 < m) (hfit : m.natAbs < bound) :
    (imod x m).natAbs < bound := by
  have hnonneg := imod_nonneg x hm
  have hlt := imod_lt x hm
  omega

/-- A command whose outcome is a residue writes it. -/
theorem exec_writes_residue {x m : Int} (h : outcomeOf i s = (.result [(rd, imod x m)] none, s.source)) (hm : 0 < m)
    (hfit : m.natAbs < s.config.bound) : ∃ t, exec i s = .next t ∧ State.SucceedsInto s t [rd] ∧
      t.Holds rd (x.fmod m) ∧ 0 ≤ t.val rd ∧ t.val rd < m := by
  obtain ⟨t, ht, hsucceeds, hholds⟩ := exec_writes h (natAbs_imod_lt x hm hfit)
  refine ⟨t, ht, hsucceeds, hholds, ?_⟩
  rw [hholds.val_eq]
  exact ⟨imod_nonneg x hm, imod_lt x hm⟩

end

/-! ## MODEXP (R72) -/

section
variable {s : State} {rs1 rs2 rs3 : Reg} (rd : Reg)

theorem exec_modexp (hm : 0 < s.val rs3) (he : 0 ≤ s.val rs2) (hfit : (s.val rs3).natAbs < s.config.bound) :
    ∃ t, exec (.modexp rd rs1 rs2 rs3) s = .next t ∧ State.SucceedsInto s t [rd] ∧
      t.Holds rd ((s.val rs1 ^ (s.val rs2).toNat).fmod (s.val rs3)) ∧ 0 ≤ t.val rd ∧ t.val rd < s.val rs3 :=
  exec_writes_residue (by simp [outcomeOf, modexpOutcome, hm.not_ge, he.not_gt, powMod_eq _ _ hm]) hm hfit

theorem exec_modexp_invalid (h : s.val rs3 ≤ 0 ∨ s.val rs2 < 0) :
    ∃ t, exec (.modexp rd rs1 rs2 rs3) s = .next t ∧ State.FailsWith s t .invalidOperand := by
  apply exec_failsWith_of_outcomeOf
  by_cases hm : s.val rs3 ≤ 0
  · simp [outcomeOf, modexpOutcome, hm]
  · simp [outcomeOf, modexpOutcome, hm, h.resolve_left hm]

end

/-- Settles O13: square and multiply is the exact residue, which fits because the modulus does. -/
theorem modexpWritesTheExactPower : Obligations.ModexpWritesTheExactPower := by
  unfold Obligations.ModexpWritesTheExactPower
  exact fun rd rs1 rs2 rs3 s hrange =>
    ⟨fun hm he => exec_modexp rd hm he (hrange.natAbs_val_lt rs3), exec_modexp_invalid rd⟩

/-! ## MONTMUL (R73) -/

theorem montgomeryR_eq {n : Int} (h : 0 ≤ n) : montgomeryR n = montR n := by
  obtain ⟨k, rfl⟩ := Int.eq_ofNat_of_zero_le h
  rw [montgomeryR, montR, montLimbs, bitlen_natCast, Int.toNat_natCast]

/-- The inverse of `R` that MONTMUL multiplies by (R73). -/
def montInv (n : Int) : Int := invMod (montR n) n

theorem montR_mul_montInv {n : Int} (hn : 0 < n) (hodd : n % 2 = 1) : montR n * montInv n ≡ 1 [ZMOD n] :=
  invMod_modEq _ hn (gcd_montR hodd)

theorem fmod_eq_of_modEq {a b n : Int} (hn : 0 ≤ n) (h : a ≡ b [ZMOD n]) : a.fmod n = b.fmod n := by
  rw [Int.fmod_eq_emod_of_nonneg a hn, Int.fmod_eq_emod_of_nonneg b hn]
  exact h

theorem fmod_modEq (a : Int) {n : Int} (hn : 0 ≤ n) : a.fmod n ≡ a [ZMOD n] := imod_modEq a hn

section
variable {s : State} {rs1 rs2 rs3 : Reg} (rd : Reg)

theorem exec_montmul (hn : 0 < s.val rs3) (hodd : s.val rs3 % 2 = 1) (hfit : (s.val rs3).natAbs < s.config.bound) :
    ∃ t, exec (.montmul rd rs1 rs2 rs3) s = .next t ∧ State.SucceedsInto s t [rd] ∧
      t.Holds rd ((s.val rs1 * s.val rs2 * montInv (s.val rs3)).fmod (s.val rs3)) := by
  have hodd' : imod (s.val rs3) 2 ≠ 0 := by
    rw [imod_eq_emod (by decide), hodd]
    decide
  obtain ⟨t, ht, hsucceeds, hholds, -⟩ := exec_writes_residue (i := .montmul rd rs1 rs2 rs3) (rd := rd)
    (x := s.val rs1 * s.val rs2 * montInv (s.val rs3)) (m := s.val rs3)
    (by simp [outcomeOf, montmulOutcome, hn.not_ge, hodd', montProduct, montInv]) hn hfit
  exact ⟨t, ht, hsucceeds, hholds⟩

theorem exec_montmul_invalid (h : s.val rs3 ≤ 0 ∨ s.val rs3 % 2 = 0) :
    ∃ t, exec (.montmul rd rs1 rs2 rs3) s = .next t ∧ State.FailsWith s t .invalidOperand := by
  rw [← imod_eq_emod (by decide)] at h
  exact exec_failsWith_of_outcomeOf (by simp only [outcomeOf, montmulOutcome, if_pos h])

end

/-- Settles O14: `R` is a power of 2 and so has an inverse modulo an odd `N`, the one MONTMUL multiplies by. -/
theorem montmulWritesTheMontgomeryProduct : Obligations.MontmulWritesTheMontgomeryProduct := by
  unfold Obligations.MontmulWritesTheMontgomeryProduct
  refine fun rd rs1 rs2 rs3 s hrange => ⟨fun hn hodd => ?_, exec_montmul_invalid rd⟩
  obtain ⟨t, ht, hsucceeds, hholds⟩ := exec_montmul (rs1 := rs1) (rs2 := rs2) rd hn hodd (hrange.natAbs_val_lt rs3)
  obtain ⟨hnonneg, hlt⟩ := invMod_range (montR (s.val rs3)) hn
  refine ⟨t, montInv (s.val rs3), ht, hsucceeds, hnonneg, hlt, ?_, hholds⟩
  rw [montgomeryR_eq hn.le]
  exact fmod_eq_of_modEq hn.le (montR_mul_montInv hn hodd)

/-! ## GCD (R75) -/

theorem gcd_lt {a b bound : Nat} (ha : a < bound) (hb : b < bound) : a.gcd b < bound := by
  rcases Nat.eq_zero_or_pos a with rfl | hpos
  · rwa [Nat.gcd_zero_left]
  · exact (Nat.gcd_le_left b hpos).trans_lt ha

theorem exec_gcd {s : State} (hrange : s.InRange) (rd rs1 rs2 : Reg) : ∃ t, exec (.gcd rd rs1 rs2) s = .next t ∧
    State.SucceedsInto s t [rd] ∧ t.Holds rd (Int.gcd (s.val rs1) (s.val rs2)) :=
  exec_writes rfl (gcd_lt (hrange.natAbs_val_lt rs1) (hrange.natAbs_val_lt rs2))

/-- Settles O16: the gcd is at most an operand that is not 0, so it fits. -/
theorem gcdWritesTheGcd : Obligations.GcdWritesTheGcd := by
  unfold Obligations.GcdWritesTheGcd
  exact fun rd rs1 rs2 s hrange => exec_gcd hrange rd rs1 rs2

/-! ## EGCD (R76, R77) -/

/-- The model's loop is a run of R76's, if its counter exceeds the second operand. -/
theorem egcdLoop_run : ∀ (fuel : Nat) (r0 r1 s0 s1 t0 t1 : Int), 0 ≤ r1 → r1 < fuel →
    EuclidRun r0 r1 s0 s1 t0 t1 (egcdLoop fuel r0 r1 s0 s1 t0 t1) := by
  intro fuel
  induction fuel with
  | zero => intro r0 r1 _ _ _ _ hnonneg hlt; omega
  | succ fuel ih =>
    intro r0 r1 s0 s1 t0 t1 hnonneg hlt
    unfold egcdLoop
    split
    · next hzero =>
      subst hzero
      exact .stop ..
    · next hne =>
      have hpos : 0 < r1 := by omega
      have hrem : r0 - r0.fdiv r1 * r1 = r0 % r1 := by
        rw [Int.fdiv_eq_ediv_of_nonneg r0 hnonneg, mul_comm, Int.emod_def]
      refine .turn _ _ _ _ _ _ _ _ hne rfl (ih _ _ _ _ _ _ ?_ ?_)
      · rw [hrem]
        exact Int.emod_nonneg r0 hne
      · rw [hrem]
        have := Int.emod_lt_of_pos r0 hpos
        omega

theorem egcdCore_run (a b : Int) : EuclidRun |a| |b| 1 0 0 1 (egcdCore a.natAbs b.natAbs) := by
  rw [← Int.natCast_natAbs, ← Int.natCast_natAbs]
  exact egcdLoop_run _ _ _ _ _ _ _ (by simp) (by simp)

/-- The sign moved to the coefficient makes the product one of magnitude and coefficient (R77). -/
theorem mul_signed (a c : Int) : a * signed a c = |a| * c := by
  unfold signed
  split
  · next h => rw [abs_of_neg h]; ring
  · next h => rw [abs_of_nonneg (not_lt.1 h)]

theorem abs_signed (a c : Int) : |signed a c| = |c| := by
  unfold signed
  split
  · exact abs_neg c
  · rfl

theorem egcd_bezout (a b : Int) : a * signed a (egcdCore a.natAbs b.natAbs).2.1
    + b * signed b (egcdCore a.natAbs b.natAbs).2.2 = Int.gcd a b := by
  have h := (egcdCore_spec a.natAbs b.natAbs).2
  rw [Int.natCast_natAbs, Int.natCast_natAbs] at h
  rw [mul_signed, mul_signed, h, Int.gcd]

theorem distinct3_iff (a b c : Reg) : distinct3 a b c = true ↔ a ≠ b ∧ a ≠ c ∧ b ≠ c := by
  simp [distinct3, and_assoc]

theorem Config.one_lt_bound {c : Config} (h : c.wf = true) : 1 < c.bound := by
  simp only [Config.wf, Bool.and_eq_true, decide_eq_true_eq] at h
  exact Nat.one_lt_two_pow (by simp only [Config.width]; omega)

/-- Results for different registers, all of which fit, are all written (R64, R65). -/
theorem State.complete_results {s : State} {ws : List (Reg × Int)} (hnodup : (ws.map Prod.fst).Nodup)
    (hfit : ∀ p ∈ ws, p.2.natAbs < s.config.bound) :
    State.SucceedsInto s (s.complete (.result ws none)) (ws.map Prod.fst) ∧
      ∀ p ∈ ws, (s.complete (.result ws none)).Holds p.1 p.2 := by
  have hall : resultsFit s.config.width ws none = true := by
    simpa [resultsFit, fitsWidth_iff, Config.bound] using hfit
  rw [State.complete, if_pos hall]
  refine ⟨⟨s.commit_succeeded ws none, s.commit_frame ws none, s.commit_key ws none, s.commit_source ws none⟩,
    fun p hp => State.holds_of_reg ?_⟩
  rw [State.reg_commit]
  exact s.reg_writeAll_of_mem ws hnodup hp

/-- The coefficients of EGCD, signs moved, and their bounds (R77). -/
theorem abs_egcd_le (a b : Int) : |signed a (egcdCore a.natAbs b.natAbs).2.1| ≤ max 1 |b| ∧
    |signed b (egcdCore a.natAbs b.natAbs).2.2| ≤ max 1 |a| := by
  rw [abs_signed, abs_signed, ← Int.natCast_natAbs a, ← Int.natCast_natAbs b]
  exact egcdCore_bound a.natAbs b.natAbs

theorem natAbs_lt_of_abs_le_max {x y : Int} {bound : Nat} (h : |x| ≤ max 1 |y|) (hone : 1 < bound)
    (hy : y.natAbs < bound) : x.natAbs < bound := by
  rw [← Int.natCast_natAbs, ← Int.natCast_natAbs] at h
  omega

theorem exec_egcd {s : State} {rd rdx rdy : Reg} (hwf : s.config.wf = true) (hrange : s.InRange)
    (hdistinct : distinct3 rd rdx rdy = true) (rs1 rs2 : Reg) :
    ∃ t, exec (.egcd rd rdx rdy rs1 rs2) s = .next t ∧ State.SucceedsInto s t [rd, rdx, rdy] ∧
      t.Holds rd (Int.gcd (s.val rs1) (s.val rs2)) ∧
      t.Holds rdx (signed (s.val rs1) (egcdCore (s.val rs1).natAbs (s.val rs2).natAbs).2.1) ∧
      t.Holds rdy (signed (s.val rs2) (egcdCore (s.val rs1).natAbs (s.val rs2).natAbs).2.2) := by
  obtain ⟨hx, hy⟩ := abs_egcd_le (s.val rs1) (s.val rs2)
  have h1 := hrange.natAbs_val_lt rs1
  have h2 := hrange.natAbs_val_lt rs2
  have hone := Config.one_lt_bound hwf
  have hdests : [rd, rdx, rdy].Nodup := by simpa [and_assoc] using (distinct3_iff rd rdx rdy).1 hdistinct
  obtain ⟨hsucceeds, hholds⟩ := State.complete_results (s := s)
    (ws := [(rd, (Int.gcd (s.val rs1) (s.val rs2) : Int)),
      (rdx, signed (s.val rs1) (egcdCore (s.val rs1).natAbs (s.val rs2).natAbs).2.1),
      (rdy, signed (s.val rs2) (egcdCore (s.val rs1).natAbs (s.val rs2).natAbs).2.2)]) hdests (by
    simp only [List.forall_mem_cons, List.not_mem_nil, false_imp_iff, implies_true, and_true]
    exact ⟨gcd_lt h1 h2, natAbs_lt_of_abs_le_max hx hone h2, natAbs_lt_of_abs_le_max hy hone h1⟩)
  simp only [List.forall_mem_cons, List.not_mem_nil, false_imp_iff, implies_true, and_true] at hholds
  refine ⟨_, ?_, hsucceeds, hholds⟩
  rw [exec_eq_complete]
  simp only [outcomeOf, egcdOutcome, hdistinct, if_true, (egcdCore_spec _ _).1]
  rfl

theorem exec_egcd_illegal {rd rdx rdy : Reg} (h : rd = rdx ∨ rd = rdy ∨ rdx = rdy) (rs1 rs2 : Reg) (s : State) :
    ∃ t, exec (.egcd rd rdx rdy rs1 rs2) s = .next t ∧ State.FailsWith s t .illegalCommand := by
  apply exec_failsWith_of_outcomeOf
  have hequal : ¬distinct3 rd rdx rdy = true := by
    rw [distinct3_iff]
    tauto
  simp only [outcomeOf, egcdOutcome, if_neg hequal]

/-- Settles O17: the loop is a run of R76's with the gcd and small Bézout coefficients, whose signs R77 moves. -/
theorem egcdWritesBezoutCoefficients : Obligations.EgcdWritesBezoutCoefficients := by
  unfold Obligations.EgcdWritesBezoutCoefficients
  refine fun rd rdx rdy rs1 rs2 s hwf hrange => ⟨fun h1 h2 h3 => ?_, fun h => exec_egcd_illegal h rs1 rs2 s⟩
  obtain ⟨t, ht, hsucceeds, hg, hx, hy⟩ :=
    exec_egcd hwf hrange ((distinct3_iff rd rdx rdy).2 ⟨h1, h2, h3⟩) rs1 rs2
  have hrun := egcdCore_run (s.val rs1) (s.val rs2)
  have hgcd : (egcdCore (s.val rs1).natAbs (s.val rs2).natAbs).1 = Int.gcd (s.val rs1) (s.val rs2) :=
    (egcdCore_spec _ _).1
  obtain ⟨hx', hy'⟩ := abs_egcd_le (s.val rs1) (s.val rs2)
  exact ⟨t, _, _, _, _, _, ht, hsucceeds, hgcd ▸ hrun, rfl, rfl, rfl, egcd_bezout _ _, hx', hy', hg, hx, hy⟩

/-! ## MODINV (R78) -/

section
variable {s : State} {rs1 rs2 : Reg} (rd : Reg)

theorem exec_modinv (hm : 0 < s.val rs2) (hgcd : Int.gcd (s.val rs1) (s.val rs2) = 1)
    (hfit : (s.val rs2).natAbs < s.config.bound) : ∃ t, exec (.modinv rd rs1 rs2) s = .next t ∧
      State.SucceedsInto s t [rd] ∧ t.Holds rd (invMod (s.val rs1) (s.val rs2)) := by
  have hgcd' : igcd (s.val rs1) (s.val rs2) = 1 := by rw [igcd_eq, hgcd, Nat.cast_one]
  refine exec_writes ?_ (natAbs_imod_lt _ hm hfit)
  simp only [outcomeOf, modinvOutcome, if_neg hm.not_ge, hgcd', ne_eq, not_true_eq_false, if_false]

theorem exec_modinv_invalid (hm : s.val rs2 ≤ 0) :
    ∃ t, exec (.modinv rd rs1 rs2) s = .next t ∧ State.FailsWith s t .invalidOperand :=
  exec_failsWith_of_outcomeOf (by simp [outcomeOf, modinvOutcome, hm])

theorem exec_modinv_none (hm : 0 < s.val rs2) (hgcd : Int.gcd (s.val rs1) (s.val rs2) ≠ 1) :
    ∃ t, exec (.modinv rd rs1 rs2) s = .next t ∧ State.FailsWith s t .noModularInverse :=
  exec_failsWith_of_outcomeOf (by simp [outcomeOf, modinvOutcome, hm.not_ge, igcd_eq, hgcd])

end

/-- Settles O18: with `gcd(a, m) = 1` the Euclidean coefficient is the inverse; the two errors are the model's checks. -/
theorem modinvWritesTheInverse : Obligations.ModinvWritesTheInverse := by
  unfold Obligations.ModinvWritesTheInverse
  refine fun rd rs1 rs2 s hrange => ⟨fun hm hgcd => ?_, exec_modinv_invalid rd, exec_modinv_none rd⟩
  obtain ⟨t, ht, hsucceeds, hholds⟩ := exec_modinv rd hm hgcd (hrange.natAbs_val_lt rs2)
  obtain ⟨hnonneg, hlt⟩ := invMod_range (s.val rs1) hm
  exact ⟨t, _, ht, hsucceeds, hholds, hnonneg, hlt, fmod_eq_of_modEq hm.le (invMod_modEq _ hm hgcd)⟩

/-! ## LCM (R79) -/

/-- R79's quotient is the least common multiple. -/
theorem abs_mul_ediv_gcd (a b : Int) : |a * b| / (Int.gcd a b : Int) = Int.lcm a b := by
  rw [← Int.natCast_natAbs, Int.natAbs_mul, ← Int.natCast_div]
  rfl

theorem outcomeOf_lcm {s : State} {rs1 rs2 : Reg} (h : ¬(s.val rs1 = 0 ∧ s.val rs2 = 0)) (rd : Reg) :
    outcomeOf (.lcm rd rs1 rs2) s = (.result [(rd, (Int.lcm (s.val rs1) (s.val rs2) : Int))] none, s.source) := by
  rw [← abs_mul_ediv_gcd, ← Int.natCast_natAbs, ← idiv_eq_ediv (Nat.cast_nonneg _), ← igcd_eq]
  simp only [outcomeOf, lcmOutcome, if_neg h]

section
variable {s : State} {rs1 rs2 : Reg} (rd : Reg)

theorem exec_lcm (h : ¬(s.val rs1 = 0 ∧ s.val rs2 = 0)) (hfit : Int.lcm (s.val rs1) (s.val rs2) < s.config.bound) :
    ∃ t, exec (.lcm rd rs1 rs2) s = .next t ∧ State.SucceedsInto s t [rd] ∧
      t.Holds rd (Int.lcm (s.val rs1) (s.val rs2)) :=
  exec_writes (outcomeOf_lcm h rd) (by rwa [Int.natAbs_natCast])

theorem exec_lcm_overflow (h : ¬(s.val rs1 = 0 ∧ s.val rs2 = 0))
    (hlarge : s.config.bound ≤ Int.lcm (s.val rs1) (s.val rs2)) :
    ∃ t, exec (.lcm rd rs1 rs2) s = .next t ∧ State.FailsWith s t .overflow := by
  refine ⟨_, exec_eq_complete _ s, ?_⟩
  rw [outcomeOf_lcm h rd]
  exact s.complete_one_overflow rd _ (by rwa [Int.natAbs_natCast])

theorem exec_lcm_zero (h : s.val rs1 = 0 ∧ s.val rs2 = 0) :
    ∃ t, exec (.lcm rd rs1 rs2) s = .next t ∧ State.FailsWith s t .divisionByZero :=
  exec_failsWith_of_outcomeOf (by simp only [outcomeOf, lcmOutcome, if_pos h])

end

/-- Settles O19: the quotient is the lcm, and the completion compares it with `2^W`. -/
theorem lcmWritesTheLcmOrOverflows : Obligations.LcmWritesTheLcmOrOverflows := by
  unfold Obligations.LcmWritesTheLcmOrOverflows
  refine fun rd rs1 rs2 s => ⟨fun h hfit => ?_, exec_lcm_overflow rd, fun h1 h2 => exec_lcm_zero rd ⟨h1, h2⟩⟩
  obtain ⟨t, ht, hsucceeds, hholds⟩ := exec_lcm rd h hfit
  exact ⟨t, ht, hsucceeds, (abs_mul_ediv_gcd _ _).symm ▸ hholds, hholds⟩

/-! ## LOADKEY (R88) -/

/-- The key fields of a modulus whose square fits all fit: `n + 1 ≤ n²` (R68, R88; log 22). -/
theorem resultsFit_ofModulus {width n : Nat} (h2 : 2 ≤ n) (hfit : n * n < 2 ^ width) :
    resultsFit width [] (some (KeySlot.ofModulus n)) = true := by
  have hg : n + 1 ≤ n * n := by nlinarith
  simp only [resultsFit, KeySlot.ofModulus, List.all_nil, Bool.true_and, Bool.and_eq_true, fitsWidth_iff,
    Int.natAbs_natCast]
  omega

section
variable {s : State} {rs1 : Reg}

theorem exec_loadkey (hready : s.key.ready = false) {n : Nat} (hn : s.val rs1 = n) (h2 : 2 ≤ n)
    (hfit : n * n < s.config.bound) : ∃ t, exec (.loadkey rs1) s = .next t ∧ t.Succeeded ∧ State.Frame s t [] ∧
      t.source = s.source ∧ t.key = KeySlot.ofModulus n := by
  have hok : outcomeOf (.loadkey rs1) s = (.result [] (some (KeySlot.ofModulus n)), s.source) := by
    have hsquare : fitsWidth s.config.width ((n : Int) * n) = true :=
      (fitsWidth_iff _ _).2 (by rwa [Int.natAbs_mul, Int.natAbs_natCast])
    have hlarge : ¬(n : Int) < 2 := by omega
    simp [outcomeOf, loadkeyOutcome, hready, hn, hsquare, hlarge]
  refine ⟨s.commit [] (some (KeySlot.ofModulus n)), ?_, s.commit_succeeded _ _, s.commit_frame _ _, s.commit_source _ _,
    s.commit_key _ _⟩
  rw [exec_eq_complete, hok]
  exact congrArg _ (if_pos (resultsFit_ofModulus h2 hfit))

theorem exec_loadkey_invalid (hready : s.key.ready = false)
    (h : s.val rs1 < 2 ∨ (s.config.bound : Int) ≤ s.val rs1 * s.val rs1) :
    ∃ t, exec (.loadkey rs1) s = .next t ∧ State.FailsWith s t .invalidKey := by
  apply exec_failsWith_of_outcomeOf
  have hbad : s.val rs1 < 2 ∨ fitsWidth s.config.width (s.val rs1 * s.val rs1) = false := by
    rw [fitsWidth_false_iff]
    exact h.imp_right fun hlarge => by rw [Config.bound] at hlarge; omega
  simp only [outcomeOf, loadkeyOutcome, hready, if_pos hbad, Bool.false_eq_true, if_false]

end

/-- Settles O25: the checks in the model's order, and a commit of all key fields at once. -/
theorem loadkeyLoadsThePublicKey : Obligations.LoadkeyLoadsThePublicKey := by
  unfold Obligations.LoadkeyLoadsThePublicKey
  refine fun rs1 s => ⟨fun hready h2 hfit => ?_, fun hready => exec_loadkey_of_ready hready rs1, fun hready h => ?_⟩
  · obtain ⟨n, hn⟩ := Int.eq_ofNat_of_zero_le (a := s.val rs1) (by omega)
    rw [hn] at h2 hfit ⊢
    obtain ⟨t, ht, hok, hframe, hsource, hkey⟩ := exec_loadkey (n := n) hready hn (by omega) (by exact_mod_cast hfit)
    refine ⟨t, ht, hok, hframe, hsource, ?_⟩
    rw [hkey]
    simp [KeySlot.ofModulus]
  · exact exec_loadkey_invalid hready (by simpa [Config.bound, Config.width] using h)

/-! ## HADD and HSCALE (R89, R90) -/

/-- A ready key has `KEY.NSQ = n²`, which is positive and fits (R19, R87). -/
theorem KeySlot.Inv.of_ready {k : KeySlot} {bound : Nat} (h : k.Inv bound) (hready : k.ready = true) :
    k = KeySlot.ofModulus k.n ∧ 2 ≤ k.n ∧ k.n * k.n < bound := by
  rcases h with h | h
  · rw [h] at hready
    cases hready
  · exact h

theorem KeySlot.Inv.nsq_eq {k : KeySlot} {bound : Nat} (h : k.Inv bound) (hready : k.ready = true) :
    k.nsq = k.n * k.n := by
  rw [(h.of_ready hready).1]
  rfl

theorem KeySlot.Inv.nsq_pos {k : KeySlot} {bound : Nat} (h : k.Inv bound) (hready : k.ready = true) :
    (0 : Int) < k.nsq := by
  obtain ⟨-, h2, -⟩ := h.of_ready hready
  rw [h.nsq_eq hready]
  exact_mod_cast Nat.mul_pos (by omega) (by omega)

theorem KeySlot.Inv.nsq_lt {k : KeySlot} {bound : Nat} (h : k.Inv bound) (hready : k.ready = true) :
    (k.nsq : Int).natAbs < bound := by
  rw [Int.natAbs_natCast, h.nsq_eq hready]
  exact (h.of_ready hready).2.2

section
variable {s : State} (hkey : s.key.Inv s.config.bound) (hready : s.key.ready = true)
include hkey hready

theorem exec_hadd (rd rs1 rs2 : Reg) : ∃ t, exec (.hadd rd rs1 rs2) s = .next t ∧ State.SucceedsInto s t [rd] ∧
    t.Holds rd ((s.val rs1 * s.val rs2).fmod s.key.nsq) ∧ 0 ≤ t.val rd ∧ t.val rd < s.key.nsq :=
  exec_writes_residue (by simp [outcomeOf, haddOutcome, hready, State.keyNsq]) (hkey.nsq_pos hready) (hkey.nsq_lt hready)

theorem exec_hscale {rs2 : Reg} (hk : 0 ≤ s.val rs2) (rd rs1 : Reg) :
    ∃ t, exec (.hscale rd rs1 rs2) s = .next t ∧ State.SucceedsInto s t [rd] ∧
      t.Holds rd ((s.val rs1 ^ (s.val rs2).toNat).fmod s.key.nsq) ∧ 0 ≤ t.val rd ∧ t.val rd < s.key.nsq :=
  exec_writes_residue
    (by simp [outcomeOf, hscaleOutcome, hready, hk.not_gt, State.keyNsq, powMod_eq _ _ (hkey.nsq_pos hready)])
    (hkey.nsq_pos hready) (hkey.nsq_lt hready)

omit hkey in
theorem exec_hscale_invalid {rs2 : Reg} (hk : s.val rs2 < 0) (rd rs1 : Reg) :
    ∃ t, exec (.hscale rd rs1 rs2) s = .next t ∧ State.FailsWith s t .invalidConstant :=
  exec_failsWith_of_outcomeOf (by simp [outcomeOf, hscaleOutcome, hready, hk])

end

/-- Settles O26: the residue modulo `n²`, or the absent key's error. -/
theorem haddMultipliesCiphertexts : Obligations.HaddMultipliesCiphertexts := by
  unfold Obligations.HaddMultipliesCiphertexts
  exact fun rd rs1 rs2 s hkey =>
    ⟨fun hready => exec_hadd hkey hready rd rs1 rs2, fun habsent => exec_hadd_of_absent habsent rd rs1 rs2⟩

/-- Settles O27: the residue of the exact power modulo `n²`, or the two errors in the model's order. -/
theorem hscaleRaisesCiphertexts : Obligations.HscaleRaisesCiphertexts := by
  unfold Obligations.HscaleRaisesCiphertexts
  exact fun rd rs1 rs2 s hkey => ⟨fun hready hk => exec_hscale hkey hready hk rd rs1,
    fun habsent => exec_hscale_of_absent habsent rd rs1 rs2, fun hready hk => exec_hscale_invalid hready hk rd rs1⟩

end Sys2Proof.Machine
end

section
/-! SUPPORT. MRTEST and MRWIT: the draws, the rounds, and what they say of primes (43_primality.md R80 to R86). -/

namespace Sys2Proof.Machine

/-! ## Draws (R8) -/

theorem witnessInRange_mem {n : Nat} (hn : 5 ≤ n) (raw : Nat) :
    2 ≤ witnessInRange n raw ∧ witnessInRange n raw ≤ n - 2 := by
  unfold witnessInRange
  split
  · omega
  · have := Nat.mod_lt raw (show 0 < n - 3 by omega)
    omega

theorem WitnessSource.draw_mem (w : WitnessSource) {n : Nat} (hn : 5 ≤ n) : 2 ≤ (w.draw n).1 ∧ (w.draw n).1 ≤ n - 2 := by
  unfold WitnessSource.draw
  split <;> exact witnessInRange_mem hn _

/-- A listed answer in range is the one drawn. -/
theorem WitnessSource.draw_listed {w : WitnessSource} {n raw : Nat} {rest : List Nat} (hn : 5 ≤ n)
    (hqueue : w.queue = raw :: rest) (hlo : 2 ≤ raw) (hhi : raw ≤ n - 2) :
    w.draw n = (raw, { queue := rest, drawn := w.drawn + 1 }) := by
  have hrange : 2 ≤ raw ∧ raw + 2 ≤ n := by omega
  simp [WitnessSource.draw, hqueue, witnessInRange, hrange]

/-- Settles O20: an answer in range is kept, and any other is folded into the range. -/
theorem drawsAreWitnessesInRange : Obligations.DrawsAreWitnessesInRange := by
  unfold Obligations.DrawsAreWitnessesInRange
  intro w n hn
  obtain ⟨hlo, hhi⟩ := w.draw_mem hn
  exact ⟨hlo, hhi, fun raw rest hqueue => WitnessSource.draw_listed hn hqueue⟩

theorem Draws.mem_range {n : Nat} (hn : 5 ≤ n) {w w' : WitnessSource} {as : List Nat} (h : Draws n w as w') :
    ∀ a ∈ as, 2 ≤ a ∧ a ≤ n - 2 := by
  induction h with
  | none w => exact fun _ ha => absurd ha List.not_mem_nil
  | more w w' as _ ih => exact List.forall_mem_cons.2 ⟨w.draw_mem hn, ih⟩

/-! ## Pre-checks and rounds (R80, R81) -/

theorem verdict_eq_one_iff (b : Bool) : verdict b = 1 ↔ b = true := by cases b <;> decide

theorem mrPre_of_preDecided {n v : Int} (h : PreDecided n v) : ∃ b, mrPre n = some b ∧ v = verdict b := by
  rcases h with ⟨hlt, rfl⟩ | ⟨hsmall, rfl⟩ | ⟨hlarge, heven, rfl⟩
  · exact ⟨false, by simp [mrPre, hlt], rfl⟩
  · have hge : ¬n < 2 := by omega
    exact ⟨true, by simp [mrPre, hge, hsmall], rfl⟩
  · have hge : ¬n < 2 := by omega
    have hne : ¬(n = 2 ∨ n = 3) := by omega
    refine ⟨false, ?_, rfl⟩
    rw [mrPre, if_neg hge, if_neg hne, imod_eq_emod (by decide), if_pos heven]

/-- The pre-checks leave an odd candidate from 5 on undecided. -/
theorem mrPre_of_odd {n : Int} (h5 : 5 ≤ n) (hodd : n % 2 = 1) : mrPre n = none := by
  have hge : ¬n < 2 := by omega
  have hne : ¬(n = 2 ∨ n = 3) := by omega
  rw [mrPre, if_neg hge, if_neg hne, imod_eq_emod (by decide), if_neg (by omega)]

/-- Every candidate is decided by the pre-checks, or odd and at least 5. -/
theorem preDecided_or_odd (n : Int) : (∃ v, PreDecided n v) ∨ 5 ≤ n ∧ n % 2 = 1 := by
  by_cases hodd : 5 ≤ n ∧ n % 2 = 1
  · exact .inr hodd
  · refine .inl ?_
    by_cases hlt : n < 2
    · exact ⟨0, .inl ⟨hlt, rfl⟩⟩
    · by_cases hsmall : n = 2 ∨ n = 3
      · exact ⟨1, .inr (.inl ⟨hsmall, rfl⟩)⟩
      · exact ⟨0, .inr (.inr ⟨by omega, by omega, rfl⟩)⟩

/-- The model's round is R81's. -/
theorem mrRound_iff_passesRound {n : Nat} (hn : 3 ≤ n) (hodd : n % 2 = 1) (a : Nat) :
    mrRound n a = true ↔ PassesRound n a := by
  constructor
  · intro h
    obtain ⟨heq, hd⟩ := mrDecompose_spec (n := n) (by omega)
    exact ⟨_, _, heq, hd, (mrRound_iff a hn hodd heq hd).1 h⟩
  · rintro ⟨d, r, heq, hd, h⟩
    exact (mrRound_iff a hn hodd heq hd).2 h

theorem mrRound_eq_false_iff {n : Nat} (hn : 3 ≤ n) (hodd : n % 2 = 1) (a : Nat) :
    mrRound n a = false ↔ ¬PassesRound n a := by
  rw [← mrRound_iff_passesRound hn hodd, Bool.not_eq_true]

/-! ## MRTEST (R82) -/

/-- The rounds draw one witness each, until all have passed or the last one drawn fails. -/
theorem mrRounds_draws (n k : Nat) (w : WitnessSource) : ∃ as, Draws n w as (mrRounds k n w).2 ∧ as.length ≤ k ∧
    ((as.length = k ∧ (∀ a ∈ as, mrRound n a = true) ∧ (mrRounds k n w).1 = true) ∨
      ∃ before a, as = before ++ [a] ∧ (∀ b ∈ before, mrRound n b = true) ∧ mrRound n a = false ∧
        (mrRounds k n w).1 = false) := by
  induction k generalizing w with
  | zero => exact ⟨[], .none w, le_rfl, .inl ⟨rfl, nofun, rfl⟩⟩
  | succ k ih =>
    by_cases hround : mrRound n (w.draw n).1 = true
    · obtain ⟨as, hdraws, hlength, hverdict⟩ := ih (w.draw n).2
      rw [mrRounds, if_pos hround]
      refine ⟨(w.draw n).1 :: as, .more w _ as hdraws, Nat.succ_le_succ hlength, ?_⟩
      rcases hverdict with ⟨hk, hall, htrue⟩ | ⟨before, a, rfl, hbefore, ha, hfalse⟩
      · exact .inl ⟨congrArg Nat.succ hk, List.forall_mem_cons.2 ⟨hround, hall⟩, htrue⟩
      · exact .inr ⟨(w.draw n).1 :: before, a, rfl, List.forall_mem_cons.2 ⟨hround, hbefore⟩, ha, hfalse⟩
    · rw [mrRounds, if_neg hround]
      exact ⟨[(w.draw n).1], .more w _ [] (.none _), by simp,
        .inr ⟨[], (w.draw n).1, rfl, nofun, Bool.eq_false_iff.2 hround, rfl⟩⟩

/-- A verdict fits every register. -/
theorem natAbs_verdict_lt {c : Config} (h : c.wf = true) (b : Bool) : (verdict b).natAbs < c.bound := by
  have := Config.one_lt_bound h
  cases b <;> simp [verdict] <;> omega

section
variable {s : State} (hwf : s.config.wf = true)
include hwf

/-- MRTEST writes its verdict and leaves the source after its draws. -/
theorem exec_mrtest (rd rs1 : Reg) (k : Rounds) : ∃ t, exec (.mrtest rd rs1 k) s = .next t ∧ t.Succeeded ∧
    State.Frame s t [rd] ∧ t.key = s.key ∧ t.source = (mrtestVerdict (s.val rs1) k.val s.source).2 ∧
    t.Holds rd (verdict (mrtestVerdict (s.val rs1) k.val s.source).1) := by
  obtain ⟨hsucceeds, hreg⟩ := (s.withSource (mrtestVerdict (s.val rs1) k.val s.source).2).complete_one rd
    (verdict (mrtestVerdict (s.val rs1) k.val s.source).1) (natAbs_verdict_lt hwf _)
  exact ⟨_, rfl, hsucceeds.succeeded, hsucceeds.frame.of_withSource, hsucceeds.key, hsucceeds.source,
    State.holds_of_reg hreg⟩

theorem exec_mrtest_decided {rs1 : Reg} {v : Int} (h : PreDecided (s.val rs1) v) (rd : Reg) (k : Rounds) :
    ∃ t, exec (.mrtest rd rs1 k) s = .next t ∧ State.SucceedsInto s t [rd] ∧ t.Holds rd v := by
  obtain ⟨b, hb, rfl⟩ := mrPre_of_preDecided h
  obtain ⟨t, ht, hok, hframe, hkey, hsource, hholds⟩ := exec_mrtest hwf rd rs1 k
  rw [mrtestVerdict, hb] at hsource hholds
  exact ⟨t, ht, ⟨hok, hframe, hkey, hsource⟩, hholds⟩

/-- The rounds of an undecided candidate, with R81's condition for each draw. -/
theorem exec_mrtest_rounds {rs1 : Reg} {n : Nat} (hn : s.val rs1 = n) (h5 : 5 ≤ n) (hodd : n % 2 = 1) (rd : Reg)
    (k : Rounds) : ∃ t as, exec (.mrtest rd rs1 k) s = .next t ∧ t.Succeeded ∧ State.Frame s t [rd] ∧ t.key = s.key ∧
      Draws n s.source as t.source ∧ as.length ≤ k.val ∧
      ((as.length = k.val ∧ (∀ a ∈ as, PassesRound n a) ∧ t.Holds rd 1) ∨
        ∃ before a, as = before ++ [a] ∧ (∀ b ∈ before, PassesRound n b) ∧ ¬PassesRound n a ∧ t.Holds rd 0) := by
  obtain ⟨t, ht, hok, hframe, hkey, hsource, hholds⟩ := exec_mrtest hwf rd rs1 k
  rw [mrtestVerdict, hn, mrPre_of_odd (by omega) (by omega)] at hsource hholds
  simp only [Int.toNat_natCast] at hsource hholds
  obtain ⟨as, hdraws, hlength, hverdict⟩ := mrRounds_draws n k.val s.source
  have h3 : 3 ≤ n := by omega
  simp only [mrRound_iff_passesRound h3 hodd, mrRound_eq_false_iff h3 hodd] at hverdict
  refine ⟨t, as, ht, hok, hframe, hkey, hsource ▸ hdraws, hlength, ?_⟩
  rcases hverdict with ⟨hk, hall, htrue⟩ | ⟨before, a, has, hbefore, ha, hfalse⟩
  · exact .inl ⟨hk, hall, by rwa [htrue] at hholds⟩
  · exact .inr ⟨before, a, has, hbefore, ha, by rwa [hfalse] at hholds⟩

/-! ## MRWIT (R83) -/

theorem exec_mrwit_decided {rs1 : Reg} {v : Int} (h : PreDecided (s.val rs1) v) (rd rs2 : Reg) :
    ∃ t, exec (.mrwit rd rs1 rs2) s = .next t ∧ State.SucceedsInto s t [rd] ∧ t.Holds rd v := by
  obtain ⟨b, hb, rfl⟩ := mrPre_of_preDecided h
  exact exec_writes (by rw [outcomeOf, mrwitOutcome, hb]) (natAbs_verdict_lt hwf b)

theorem exec_mrwit_round {rs1 rs2 : Reg} {n a : Nat} (hn : s.val rs1 = n) (ha : s.val rs2 = a) (h5 : 5 ≤ n)
    (hodd : n % 2 = 1) (hlo : 2 ≤ a) (hhi : a ≤ n - 2) (rd : Reg) :
    ∃ t, exec (.mrwit rd rs1 rs2) s = .next t ∧ State.SucceedsInto s t [rd] ∧ t.Holds rd (verdict (mrRound n a)) := by
  refine exec_writes ?_ (natAbs_verdict_lt hwf _)
  rw [outcomeOf, mrwitOutcome, hn, ha, mrPre_of_odd (by omega) (by omega)]
  simp only [Int.toNat_natCast]
  rw [if_neg (by omega)]

omit hwf in
theorem exec_mrwit_invalid {rs1 rs2 : Reg} (h5 : 5 ≤ s.val rs1) (hodd : s.val rs1 % 2 = 1)
    (h : s.val rs2 < 2 ∨ s.val rs1 - 2 < s.val rs2) (rd : Reg) :
    ∃ t, exec (.mrwit rd rs1 rs2) s = .next t ∧ State.FailsWith s t .invalidOperand := by
  apply exec_failsWith_of_outcomeOf
  rw [outcomeOf, mrwitOutcome, mrPre_of_odd h5 hodd]
  simp only [gt_iff_lt, if_pos h]

end

/-- Settles O21: a decided candidate draws nothing; the rounds of another are `mrRounds_draws`. -/
theorem mrtestDrawsUntilAWitnessFails : Obligations.MrtestDrawsUntilAWitnessFails := by
  unfold Obligations.MrtestDrawsUntilAWitnessFails
  exact fun rd rs1 k s hwf => ⟨fun v hv => exec_mrtest_decided hwf hv rd k,
    fun n hn h5 hodd => exec_mrtest_rounds hwf hn h5 hodd rd k⟩

/-- Settles O22: the pre-checks, the check of the witness, and the round. -/
theorem mrwitWritesTheRoundsVerdict : Obligations.MrwitWritesTheRoundsVerdict := by
  unfold Obligations.MrwitWritesTheRoundsVerdict
  refine fun rd rs1 rs2 s hwf => ⟨fun v hv => exec_mrwit_decided hwf hv rd rs2,
    fun h5 hodd h => exec_mrwit_invalid h5 hodd h rd, fun n a hn ha h5 hodd hlo hhi => ?_⟩
  obtain ⟨t, ht, hsucceeds, hholds⟩ := exec_mrwit_round hwf hn ha h5 hodd hlo hhi rd
  refine ⟨t, ht, hsucceeds, fun hpass => ?_, fun hfail => ?_⟩
  · rwa [(mrRound_iff_passesRound (by omega) hodd a).2 hpass] at hholds
  · rwa [(mrRound_eq_false_iff (by omega) hodd a).2 hfail] at hholds

/-! ## Primes (R85) -/

/-- In a field, square roots of 1 are 1 and -1: walking back from `x^(2^r) = 1` ends at 1, or meets -1. -/
theorem eq_one_or_neg_one_of_pow_two_pow {F : Type*} [Field F] (x : F) :
    ∀ r : Nat, x ^ 2 ^ r = 1 → x = 1 ∨ ∃ j < r, x ^ 2 ^ j = -1
  | 0, h => .inl (by simpa using h)
  | r + 1, h => by
    rw [pow_succ, pow_mul, sq_eq_one_iff] at h
    rcases h with hone | hneg
    · exact (eq_one_or_neg_one_of_pow_two_pow x r hone).imp_right fun ⟨j, hj, hx⟩ => ⟨j, by omega, hx⟩
    · exact .inr ⟨r, by omega, hneg⟩

/-- A residue of a power, read in `ZMod p`. -/
theorem pow_mod_eq_iff {p : Nat} (x e y : Nat) (hy : y < p) : x ^ e % p = y ↔ (x : ZMod p) ^ e = (y : ZMod p) := by
  rw [← Nat.cast_pow, ZMod.natCast_eq_natCast_iff', Nat.mod_eq_of_lt hy]

/-- Every witness in range passes its round on a prime (R85 (1)). -/
theorem passesRound_of_prime {p a : Nat} (hp : p.Prime) (hlo : 2 ≤ a) (hhi : a ≤ p - 2) : PassesRound p a := by
  have := Fact.mk hp
  have hp2 := hp.two_le
  obtain ⟨heq, hd⟩ := mrDecompose_spec hp2
  refine ⟨_, _, heq, hd, ?_⟩
  generalize (mrDecompose p).1 = d at *
  generalize (mrDecompose p).2 = r at *
  have hne : (a : ZMod p) ≠ 0 := fun h => by
    have := Nat.le_of_dvd (by omega) ((ZMod.natCast_eq_zero_iff a p).1 h)
    omega
  have hneg : ((p - 1 : Nat) : ZMod p) = -1 := by
    rw [Nat.cast_sub (by omega), ZMod.natCast_self, Nat.cast_one, zero_sub]
  have hfermat : ((a : ZMod p) ^ d) ^ 2 ^ r = 1 := by
    rw [← pow_mul, ← heq]
    exact ZMod.pow_card_sub_one_eq_one hne
  rw [pow_mod_eq_iff a d 1 (by omega), Nat.cast_one]
  refine (eq_one_or_neg_one_of_pow_two_pow _ r hfermat).imp_right fun ⟨j, hj, hx⟩ => ⟨j, hj, ?_⟩
  rw [pow_mod_eq_iff a _ (p - 1) (by omega), hneg, pow_mul]
  exact hx

/-- A prime is 2 or 3, which the pre-checks accept, or odd and at least 5. -/
theorem prime_cases {p : Nat} (hp : p.Prime) : PreDecided p 1 ∨ 5 ≤ p ∧ p % 2 = 1 := by
  have hp2 := hp.two_le
  rcases hp.eq_two_or_odd with h2 | hodd
  · exact .inl (.inr (.inl ⟨.inl (by omega), rfl⟩))
  · by_cases h3 : p = 3
    · exact .inl (.inr (.inl ⟨.inr (by omega), rfl⟩))
    · exact .inr ⟨by omega, hodd⟩

section
variable {s : State} (hwf : s.config.wf = true) {rs1 : Reg} {p : Nat} (hval : s.val rs1 = p) (hp : p.Prime)
include hwf hval hp

theorem exec_mrtest_prime (rd : Reg) (k : Rounds) : ∃ t, exec (.mrtest rd rs1 k) s = .next t ∧ t.Holds rd 1 := by
  rcases prime_cases hp with hdecided | ⟨h5, hodd⟩
  · obtain ⟨t, ht, -, hholds⟩ := exec_mrtest_decided hwf (hval ▸ hdecided) rd k
    exact ⟨t, ht, hholds⟩
  · obtain ⟨t, as, ht, -, -, -, hdraws, -, hverdict⟩ := exec_mrtest_rounds hwf hval h5 hodd rd k
    rcases hverdict with ⟨-, -, hholds⟩ | ⟨before, a, rfl, -, hfail, -⟩
    · exact ⟨t, ht, hholds⟩
    · obtain ⟨hlo, hhi⟩ := hdraws.mem_range h5 a (by simp)
      exact absurd (passesRound_of_prime hp hlo hhi) hfail

/-- MRWIT on a prime answers 1, unless it refuses a witness out of range. -/
theorem exec_mrwit_prime (rd rs2 : Reg) : ∃ t, exec (.mrwit rd rs1 rs2) s = .next t ∧
    (t.Holds rd 1 ∨ State.FailsWith s t .invalidOperand ∧ ¬(2 ≤ s.val rs2 ∧ s.val rs2 ≤ p - 2)) := by
  rcases prime_cases hp with hdecided | ⟨h5, hodd⟩
  · obtain ⟨t, ht, -, hholds⟩ := exec_mrwit_decided hwf (hval ▸ hdecided) rd rs2
    exact ⟨t, ht, .inl hholds⟩
  · by_cases hrange : 2 ≤ s.val rs2 ∧ s.val rs2 ≤ p - 2
    · obtain ⟨a, ha⟩ := Int.eq_ofNat_of_zero_le (a := s.val rs2) (by omega)
      obtain ⟨t, ht, -, hholds⟩ := exec_mrwit_round hwf hval ha h5 hodd (by omega) (by omega) rd
      rw [(mrRound_iff_passesRound (by omega) hodd a).2 (passesRound_of_prime hp (by omega) (by omega))] at hholds
      exact ⟨t, ht, .inl hholds⟩
    · have hout : s.val rs2 < 2 ∨ s.val rs1 - 2 < s.val rs2 := by omega
      obtain ⟨t, ht, hfails⟩ := exec_mrwit_invalid (by omega) (by omega) hout rd
      exact ⟨t, ht, .inr ⟨hfails, hrange⟩⟩

end

theorem State.Holds.ne_zero_of_one {t : State} {i : Reg} (h : t.Holds i 1) : ¬t.Holds i 0 := fun h0 => by
  cases h.val_eq.symm.trans h0.val_eq

/-- Settles O23: on a prime every round passes, so the verdict is 1, and an answer 0 rules a prime out. -/
theorem primesPassEveryRound : Obligations.PrimesPassEveryRound := by
  unfold Obligations.PrimesPassEveryRound
  refine ⟨fun rd rs1 k s p hwf hval hp => exec_mrtest_prime hwf hval hp rd k, fun rd rs1 rs2 s p hwf hval hp hlo hhi => ?_,
    ?_, ?_⟩
  · obtain ⟨t, ht, hholds | ⟨-, hrange⟩⟩ := exec_mrwit_prime hwf hval hp rd rs2
    · exact ⟨t, ht, hholds⟩
    · exact absurd ⟨hlo, hhi⟩ hrange
  · rintro rd rs1 k s t hwf ht hzero ⟨p, hp, hval⟩
    obtain ⟨u, hu, hone⟩ := exec_mrtest_prime hwf hval hp rd k
    obtain rfl := Host.Outcome.next.inj (ht.symm.trans hu)
    exact hone.ne_zero_of_one hzero
  · rintro rd rs1 rs2 s t hwf ht hok hzero ⟨p, hp, hval⟩
    obtain ⟨u, hu, hone | ⟨hfails, -⟩⟩ := exec_mrwit_prime hwf hval hp rd rs2 <;>
      obtain rfl := Host.Outcome.next.inj (ht.symm.trans hu)
    · exact hone.ne_zero_of_one hzero
    · exact Bool.false_ne_true (hok.err.symm.trans hfails.failed.err)

/-! ## MRTEST and MRWIT (R83) -/

/-- With one listed answer in range for each round, the rounds pass exactly if each listed answer does. -/
theorem mrRounds_listed {n : Nat} (hn : 5 ≤ n) (queue : List Nat) (drawn : Nat)
    (hrange : ∀ a ∈ queue, 2 ≤ a ∧ a ≤ n - 2) :
    (mrRounds queue.length n { queue := queue, drawn := drawn }).1 = true ↔ ∀ a ∈ queue, mrRound n a = true := by
  induction queue generalizing drawn with
  | nil => exact iff_of_true rfl nofun
  | cons a queue ih =>
    obtain ⟨⟨hlo, hhi⟩, hrest⟩ := List.forall_mem_cons.1 hrange
    rw [List.length_cons, mrRounds, WitnessSource.draw_listed hn rfl hlo hhi, List.forall_mem_cons, ← ih (drawn + 1) hrest]
    by_cases hround : mrRound n a = true <;> simp [hround]

theorem State.val_writeInt_self (s : State) (i : Reg) (v : Int) : (s.writeInt i v).val i = v :=
  (State.holds_of_reg (s.reg_setReg_self i _)).val_eq

theorem State.val_writeInt_ne (s : State) {i j : Reg} (h : j ≠ i) (v : Int) : (s.writeInt i v).val j = s.val j :=
  congrArg BigReg.value (s.reg_setReg_ne h _)

/-- Settles O24: MRTEST's rounds over the listed answers pass exactly if each answer passes MRWIT's round. -/
theorem mrtestIsTheAndOfMrwits : Obligations.MrtestIsTheAndOfMrwits := by
  unfold Obligations.MrtestIsTheAndOfMrwits
  intro rd rs1 rs2 k s t n hwf hne hn h5 hodd hlength hrange ht
  have hmrtest : t.Holds rd 1 ↔ ∀ a ∈ s.source.queue, mrRound n a = true := by
    obtain ⟨u, hu, -, -, -, -, hholds⟩ := exec_mrtest hwf rd rs1 k
    obtain rfl := Host.Outcome.next.inj (ht.symm.trans hu)
    rw [mrtestVerdict, hn, mrPre_of_odd (by omega) (by omega), ← hlength] at hholds
    rw [← mrRounds_listed h5 s.source.queue s.source.drawn hrange, ← verdict_eq_one_iff]
    exact ⟨fun hone => hholds.val_eq.symm.trans hone.val_eq, fun hone => hone ▸ hholds⟩
  rw [hmrtest]
  refine forall₂_congr fun a ha => ?_
  obtain ⟨hlo, hhi⟩ := hrange a ha
  obtain ⟨u, hu, -, hholds⟩ := exec_mrwit_round (s := s.writeInt rs2 a) (rs1 := rs1) (rs2 := rs2) hwf
    ((s.val_writeInt_ne hne a).trans hn) (s.val_writeInt_self rs2 a) h5 hodd hlo hhi rd
  rw [← verdict_eq_one_iff]
  constructor
  · exact fun hone => ⟨u, hu, hone ▸ hholds⟩
  · rintro ⟨u', hu', hone⟩
    obtain rfl := Host.Outcome.next.inj (hu.symm.trans hu')
    exact hholds.val_eq.symm.trans hone.val_eq

end Sys2Proof.Machine
end

section
/-! SUPPORT. The errors each command reports (60_exceptions.md R98), and commands one after the other: the Montgomery
identity (41_modexp_montgomery.md R73), the host's encrypt, and the laws of Paillier keys (44_homomorphic.md R92 to R94). -/

namespace Sys2Proof.Machine

/-! ## The errors each command reports (R98) -/

/-- A command that ends with an error reports its code (R64). -/
theorem errcode_mem_of_fails {i : Instr} {s : State} {e : CmdError} {codes : List (BitVec 8)}
    (h : ∃ t, exec i s = .next t ∧ State.FailsWith s t e) (he : e.code ∈ codes) :
    (s.completed i).status.errcode ∈ codes := by
  obtain ⟨t, ht, hfails⟩ := h
  rwa [← eq_completed_of_exec ht, hfails.failed.errcode]

/-- A command that succeeds reports 0x00 (R64). -/
theorem errcode_mem_of_succeeds {i : Instr} {s : State} {P : State → Prop} {codes : List (BitVec 8)}
    (h : ∃ t, exec i s = .next t ∧ t.Succeeded ∧ P t) (h0 : 0x00#8 ∈ codes) :
    (s.completed i).status.errcode ∈ codes := by
  obtain ⟨t, ht, hok, -⟩ := h
  rwa [← eq_completed_of_exec ht, hok.errcode]

/-- The same of a command that writes `dests`. -/
theorem errcode_mem_of_writes {i : Instr} {s : State} {dests : List Reg} {P : State → Prop} {codes : List (BitVec 8)}
    (h : ∃ t, exec i s = .next t ∧ State.SucceedsInto s t dests ∧ P t) (h0 : 0x00#8 ∈ codes) :
    (s.completed i).status.errcode ∈ codes :=
  errcode_mem_of_succeeds (h.imp fun _ ht => ⟨ht.1, ht.2.1.succeeded, ht.2.2⟩) h0

section
variable {s : State} (rd rs1 rs2 rs3 : Reg)

theorem errcode_modexp (hinv : s.Inv) : (s.completed (.modexp rd rs1 rs2 rs3)).status.errcode ∈ codesOf .modexp := by
  by_cases hbad : s.val rs3 ≤ 0 ∨ s.val rs2 < 0
  · exact errcode_mem_of_fails (exec_modexp_invalid rd hbad) (by decide)
  · push Not at hbad
    exact errcode_mem_of_writes (exec_modexp rd hbad.1 hbad.2 (hinv.in_range.natAbs_val_lt rs3)) (by decide)

theorem errcode_montmul (hinv : s.Inv) : (s.completed (.montmul rd rs1 rs2 rs3)).status.errcode ∈ codesOf .montmul := by
  by_cases hbad : s.val rs3 ≤ 0 ∨ s.val rs3 % 2 = 0
  · exact errcode_mem_of_fails (exec_montmul_invalid rd hbad) (by decide)
  · push Not at hbad
    exact errcode_mem_of_writes (exec_montmul rd hbad.1 (by omega) (hinv.in_range.natAbs_val_lt rs3)) (by decide)

theorem errcode_modinv (hinv : s.Inv) : (s.completed (.modinv rd rs1 rs2)).status.errcode ∈ codesOf .modinv := by
  rcases le_or_gt (s.val rs2) 0 with hm | hm
  · exact errcode_mem_of_fails (exec_modinv_invalid rd hm) (by decide)
  · by_cases hgcd : Int.gcd (s.val rs1) (s.val rs2) = 1
    · exact errcode_mem_of_writes (exec_modinv rd hm hgcd (hinv.in_range.natAbs_val_lt rs2)) (by decide)
    · exact errcode_mem_of_fails (exec_modinv_none rd hm hgcd) (by decide)

theorem errcode_lcm (s : State) : (s.completed (.lcm rd rs1 rs2)).status.errcode ∈ codesOf .lcm := by
  by_cases hzero : s.val rs1 = 0 ∧ s.val rs2 = 0
  · exact errcode_mem_of_fails (exec_lcm_zero rd hzero) (by decide)
  · rcases Nat.lt_or_ge (Int.lcm (s.val rs1) (s.val rs2)) s.config.bound with hfit | hlarge
    · exact errcode_mem_of_writes (exec_lcm rd hzero hfit) (by decide)
    · exact errcode_mem_of_fails (exec_lcm_overflow rd hzero hlarge) (by decide)

theorem errcode_mrwit (hinv : s.Inv) : (s.completed (.mrwit rd rs1 rs2)).status.errcode ∈ codesOf .mrwit := by
  rcases preDecided_or_odd (s.val rs1) with ⟨v, hv⟩ | ⟨h5, hodd⟩
  · exact errcode_mem_of_writes (exec_mrwit_decided hinv.config_wf hv rd rs2) (by decide)
  · by_cases hbad : s.val rs2 < 2 ∨ s.val rs1 - 2 < s.val rs2
    · exact errcode_mem_of_fails (exec_mrwit_invalid h5 hodd hbad rd) (by decide)
    · obtain ⟨n, hn⟩ := Int.eq_ofNat_of_zero_le (a := s.val rs1) (by omega)
      obtain ⟨a, ha⟩ := Int.eq_ofNat_of_zero_le (a := s.val rs2) (by omega)
      exact errcode_mem_of_writes
        (exec_mrwit_round hinv.config_wf hn ha (by omega) (by omega) (by omega) (by omega) rd) (by decide)

theorem errcode_loadkey (s : State) : (s.completed (.loadkey rs1)).status.errcode ∈ codesOf .loadkey := by
  cases hready : s.key.ready with
  | true => exact errcode_mem_of_fails (exec_loadkey_of_ready hready rs1) (by decide)
  | false =>
    by_cases hbad : s.val rs1 < 2 ∨ (s.config.bound : Int) ≤ s.val rs1 * s.val rs1
    · exact errcode_mem_of_fails (exec_loadkey_invalid hready hbad) (by decide)
    · push Not at hbad
      obtain ⟨n, hn⟩ := Int.eq_ofNat_of_zero_le (a := s.val rs1) (by omega)
      rw [hn] at hbad
      exact errcode_mem_of_succeeds (exec_loadkey hready hn (by omega) (by exact_mod_cast hbad.2)) (by decide)

theorem errcode_hadd (hinv : s.Inv) : (s.completed (.hadd rd rs1 rs2)).status.errcode ∈ codesOf .hadd := by
  cases hready : s.key.ready with
  | true => exact errcode_mem_of_writes (exec_hadd hinv.key_inv hready rd rs1 rs2) (by decide)
  | false => exact errcode_mem_of_fails (exec_hadd_of_absent hready rd rs1 rs2) (by decide)

theorem errcode_hscale (hinv : s.Inv) : (s.completed (.hscale rd rs1 rs2)).status.errcode ∈ codesOf .hscale := by
  cases hready : s.key.ready with
  | true =>
    rcases lt_or_ge (s.val rs2) 0 with hk | hk
    · exact errcode_mem_of_fails (exec_hscale_invalid hready hk rd rs1) (by decide)
    · exact errcode_mem_of_writes (exec_hscale hinv.key_inv hready hk rd rs1) (by decide)
  | false => exact errcode_mem_of_fails (exec_hscale_of_absent hready rd rs1 rs2) (by decide)

end

/-- Settles O11: each command's clauses cover every operand value, and each names the code. -/
theorem eachCommandReportsOnlyItsErrors : Obligations.EachCommandReportsOnlyItsErrors := by
  unfold Obligations.EachCommandReportsOnlyItsErrors
  intro i s t hwf hinv ht
  obtain rfl := eq_completed_of_exec ht
  cases i with
  | modexp rd rs1 rs2 rs3 => exact errcode_modexp rd rs1 rs2 rs3 hinv
  | montmul rd rs1 rs2 rs3 => exact errcode_montmul rd rs1 rs2 rs3 hinv
  | gcd rd rs1 rs2 => exact errcode_mem_of_writes (exec_gcd hinv.in_range rd rs1 rs2) List.mem_cons_self
  | egcd rd rdx rdy rs1 rs2 =>
    exact errcode_mem_of_writes (exec_egcd hinv.config_wf hinv.in_range hwf rs1 rs2) List.mem_cons_self
  | modinv rd rs1 rs2 => exact errcode_modinv rd rs1 rs2 hinv
  | lcm rd rs1 rs2 => exact errcode_lcm rd rs1 rs2 s
  | mrtest rd rs1 k => exact errcode_mem_of_succeeds (exec_mrtest hinv.config_wf rd rs1 k) List.mem_cons_self
  | mrwit rd rs1 rs2 => exact errcode_mrwit rd rs1 rs2 hinv
  | loadkey rs1 => exact errcode_loadkey rs1 s
  | hadd rd rs1 rs2 => exact errcode_hadd rd rs1 rs2 hinv
  | hscale rd rs1 rs2 => exact errcode_hscale rd rs1 rs2 hinv

/-! ## One command after the other -/

theorem execAll_cons {i : Instr} {rest : List Instr} {s t : State} (h : exec i (s.issue (encode i)) = .next t) :
    execAll (i :: rest) s = execAll rest t := by
  rw [execAll, h]

/-- A command that succeeded wrote `v` to `rd`, and nothing else that a later command reads. -/
structure State.Wrote (s t : State) (rd : Reg) (v : Int) : Prop where
  succeeded : t.Succeeded
  holds : t.Holds rd v
  regs : ∀ r, r ≠ rd → t.reg r = s.reg r
  key : t.key = s.key
  config : t.config = s.config

theorem State.Wrote.val_ne {s t : State} {rd r : Reg} {v : Int} (h : State.Wrote s t rd v) (hr : r ≠ rd) :
    t.val r = s.val r :=
  congrArg BigReg.value (h.regs r hr)

/-- An issued command that succeeds into `rd` wrote to it. -/
theorem State.SucceedsInto.wrote {s t : State} {w : Word} {rd : Reg} {v : Int} (h : State.SucceedsInto (s.issue w) t [rd])
    (hv : t.Holds rd v) : State.Wrote s t rd v where
  succeeded := h.succeeded
  holds := hv
  regs r hr := h.frame.regs r (by simpa using hr)
  key := h.key
  config := h.frame.config

section
variable {s : State}

theorem wrote_modexp {rs1 rs2 rs3 : Reg} (rd : Reg) (w : Word) (hm : 0 < s.val rs3) (he : 0 ≤ s.val rs2)
    (hfit : (s.val rs3).natAbs < s.config.bound) : ∃ t, exec (.modexp rd rs1 rs2 rs3) (s.issue w) = .next t ∧
      State.Wrote s t rd ((s.val rs1 ^ (s.val rs2).toNat).fmod (s.val rs3)) := by
  obtain ⟨t, ht, hsucceeds, hholds, -⟩ := exec_modexp (s := s.issue w) (rs1 := rs1) rd hm he hfit
  exact ⟨t, ht, hsucceeds.wrote hholds⟩

theorem wrote_montmul {rs1 rs2 rs3 : Reg} (rd : Reg) (w : Word) (hn : 0 < s.val rs3) (hodd : s.val rs3 % 2 = 1)
    (hfit : (s.val rs3).natAbs < s.config.bound) : ∃ t, exec (.montmul rd rs1 rs2 rs3) (s.issue w) = .next t ∧
      State.Wrote s t rd ((s.val rs1 * s.val rs2 * montInv (s.val rs3)).fmod (s.val rs3)) := by
  obtain ⟨t, ht, hsucceeds, hholds⟩ := exec_montmul (s := s.issue w) (rs1 := rs1) (rs2 := rs2) rd hn hodd hfit
  exact ⟨t, ht, hsucceeds.wrote hholds⟩

theorem wrote_gcd (hrange : s.InRange) (rd rs1 rs2 : Reg) (w : Word) : ∃ t,
    exec (.gcd rd rs1 rs2) (s.issue w) = .next t ∧ State.Wrote s t rd (Int.gcd (s.val rs1) (s.val rs2)) := by
  obtain ⟨t, ht, hsucceeds, hholds⟩ := exec_gcd (s := s.issue w) hrange rd rs1 rs2
  exact ⟨t, ht, hsucceeds.wrote hholds⟩

variable (hkey : s.key.Inv s.config.bound) (hready : s.key.ready = true)
include hkey hready

theorem wrote_hadd (rd rs1 rs2 : Reg) (w : Word) : ∃ t, exec (.hadd rd rs1 rs2) (s.issue w) = .next t ∧
    State.Wrote s t rd ((s.val rs1 * s.val rs2).fmod s.key.nsq) := by
  obtain ⟨t, ht, hsucceeds, hholds, -⟩ := exec_hadd (s := s.issue w) hkey hready rd rs1 rs2
  exact ⟨t, ht, hsucceeds.wrote hholds⟩

theorem wrote_hscale {rs2 : Reg} {k : Nat} (hk : s.val rs2 = k) (rd rs1 : Reg) (w : Word) : ∃ t,
    exec (.hscale rd rs1 rs2) (s.issue w) = .next t ∧ State.Wrote s t rd ((s.val rs1 ^ k).fmod s.key.nsq) := by
  have hnonneg : 0 ≤ s.val rs2 := hk ▸ Int.natCast_nonneg k
  obtain ⟨t, ht, hsucceeds, hholds, -⟩ := exec_hscale (s := s.issue w) hkey hready hnonneg rd rs1
  rw [State.val_issue, State.val_issue, hk, Int.toNat_natCast] at hholds
  exact ⟨t, ht, hsucceeds.wrote hholds⟩

end

/-! ## Two Montgomery products (R73) -/

/-- Multiplying by `R⁻¹` twice and by `R²` once leaves the plain product. -/
theorem montgomery_identity (a b : Int) {n : Int} (hn : 0 < n) (hodd : n % 2 = 1) :
    ((a * b * montInv n).fmod n * (montR n * montR n).fmod n * montInv n).fmod n = (a * b).fmod n := by
  apply fmod_eq_of_modEq hn.le
  have hinv := montR_mul_montInv hn hodd
  calc (a * b * montInv n).fmod n * (montR n * montR n).fmod n * montInv n
      ≡ a * b * montInv n * (montR n * montR n) * montInv n [ZMOD n] :=
        ((fmod_modEq _ hn.le).mul (fmod_modEq _ hn.le)).mul_right _
    _ = a * b * (montR n * montInv n) * (montR n * montInv n) := by ring
    _ ≡ a * b * 1 * 1 [ZMOD n] := (hinv.mul_left _).mul hinv
    _ = a * b := by ring

/-- Settles O15: each MONTMUL multiplies by `R⁻¹`, and the second operand `R²` makes up for both. -/
theorem twoMontmulsGiveTheProduct : Obligations.TwoMontmulsGiveTheProduct := by
  unfold Obligations.TwoMontmulsGiveTheProduct
  intro rT rd rs1 rs2 rR2 rN s hrange hTR2 hTN hn hodd hR2
  obtain ⟨t, ht, hwrote⟩ := wrote_montmul (rs1 := rs1) (rs2 := rs2) rT (encode (.montmul rT rs1 rs2 rN)) hn hodd
    (hrange.natAbs_val_lt rN)
  have hN : t.val rN = s.val rN := hwrote.val_ne hTN.symm
  obtain ⟨u, hu, hwrote'⟩ := wrote_montmul (s := t) (rs1 := rT) (rs2 := rR2) (rs3 := rN) rd
    (encode (.montmul rd rT rR2 rN)) (hN ▸ hn) (hN ▸ hodd) (by rw [hN, hwrote.config]; exact hrange.natAbs_val_lt rN)
  have hholds := hwrote'.holds
  rw [hN, hwrote.holds.val_eq, hwrote.val_ne hTR2.symm, hR2, montgomeryR_eq hn.le, montgomery_identity _ _ hn hodd]
    at hholds
  exact ⟨u, (execAll_cons ht).trans (execAll_cons hu), hwrote'.succeeded, hholds⟩

/-! ## The host's encrypt (R92) -/

section
variable {s : State} {rM rR rN rG : Reg} {m : Nat}

/-- The three key commands of `encrypt`: `rC` takes `(g^m mod n²) * (r^n mod n²) mod n²`. -/
theorem execAll_encrypt {rA rB rC : Reg} (hkey : s.key.Inv s.config.bound) (hready : s.key.ready = true)
    (hnodup : [rR, rN, rG, rM, rA, rB, rC].Nodup) (hN : s.val rN = s.key.n) (hM : s.val rM = m) (rest : List Instr) :
    ∃ t, execAll (.hscale rA rG rM :: .hscale rB rR rN :: .hadd rC rA rB :: rest) s = execAll rest t ∧ t.Succeeded ∧
      t.Holds rC (((s.val rG ^ m).fmod s.key.nsq * (s.val rR ^ s.key.n).fmod s.key.nsq).fmod s.key.nsq) ∧
      (∀ r, r ∉ [rA, rB, rC] → t.reg r = s.reg r) ∧ t.key = s.key ∧ t.config = s.config := by
  simp only [List.nodup_cons, List.mem_cons, List.not_mem_nil, or_false, not_or] at hnodup
  obtain ⟨⟨-, -, -, hRA, -⟩, ⟨-, -, hNA, -⟩, -, -, ⟨hAB, hAC⟩, hBC, -⟩ := hnodup
  obtain ⟨t1, h1, w1⟩ := wrote_hscale hkey hready hM rA rG (encode (.hscale rA rG rM))
  rw [← w1.key, ← w1.config] at hkey
  rw [← w1.key] at hready
  obtain ⟨t2, h2, w2⟩ := wrote_hscale hkey hready ((w1.val_ne hNA).trans hN) rB rR (encode (.hscale rB rR rN))
  rw [← w2.key, ← w2.config] at hkey
  rw [← w2.key] at hready
  obtain ⟨t3, h3, w3⟩ := wrote_hadd hkey hready rC rA rB (encode (.hadd rC rA rB))
  refine ⟨t3, (execAll_cons h1).trans ((execAll_cons h2).trans (execAll_cons h3)), w3.succeeded, ?_, fun r hr => ?_,
    ?_, ?_⟩
  · have hholds := w3.holds
    rwa [w2.val_ne hAB, w1.holds.val_eq, w2.holds.val_eq, w1.val_ne hRA, w2.key, w1.key] at hholds
  · simp only [List.mem_cons, List.not_mem_nil, or_false, not_or] at hr
    rw [w3.regs r hr.2.2, w2.regs r hr.2.1, w1.regs r hr.1]
  · rw [w3.key, w2.key, w1.key]
  · rw [w3.config, w2.config, w1.config]

end

/-- Settles O29: the gcd command, then the three key commands on the state it leaves. -/
theorem encryptCompositionComputesTheCiphertext : Obligations.EncryptCompositionComputesTheCiphertext := by
  unfold Obligations.EncryptCompositionComputesTheCiphertext
  intro rT rR rN rG rM rA rB rC s hnodup hinv hready hN hG hM
  obtain ⟨hT, hrest⟩ := List.nodup_cons.1 hnodup
  obtain ⟨m, hm⟩ := Int.eq_ofNat_of_zero_le hM
  obtain ⟨t, ht, hgcd⟩ := wrote_gcd hinv.in_range rT rR rN (encode (.gcd rT rR rN))
  have hkept : ∀ r ∈ [rR, rN, rG, rM, rA, rB, rC], t.val r = s.val r := fun r hr =>
    hgcd.val_ne fun h => hT (h ▸ hr)
  simp only [List.forall_mem_cons] at hkept
  obtain ⟨hR', hN', hG', hM', -⟩ := hkept
  obtain ⟨u, hu, hok, hC, hregs, hkey, -⟩ := execAll_encrypt (s := t) (rG := rG) (rM := rM) (m := m)
    (by rw [hgcd.key, hgcd.config]; exact hinv.key_inv) (hgcd.key ▸ hready) hrest (by rw [hN', hgcd.key, hN])
    (hM'.trans hm) []
  simp only [List.mem_cons, List.not_mem_nil, or_false, not_or] at hT
  refine ⟨u, (execAll_cons ht).trans hu, hok, ?_, ?_, fun r hr => ?_, hkey.trans hgcd.key⟩
  · refine State.holds_of_reg ((hregs rT ?_).trans hgcd.holds.reg_eq)
    simp [hT]
  · have hg : (s.key.g : Int) = s.key.n + 1 := by
      rw [(hinv.key_inv.of_ready hready).1]
      rfl
    rwa [hR', hG', hgcd.key, hG, hg, ← Int.toNat_natCast m, ← hm] at hC
  · simp only [List.mem_cons, List.not_mem_nil, or_false, not_or] at hr
    rw [hregs r (by simp [hr]), hgcd.regs r hr.1]

/-! ## Paillier keys (R94) -/

/-- `(1 + n*z)^k ≡ 1 + k*n*z` modulo `n²`: the later terms of the expansion are multiples of `n²`. -/
theorem one_add_mul_pow_modEq (n z : Int) (k : Nat) : (1 + n * z) ^ k ≡ 1 + k * n * z [ZMOD n * n] := by
  induction k with
  | zero => simp [Int.ModEq]
  | succ k ih =>
    rw [pow_succ]
    refine (ih.mul_right _).trans (Int.modEq_iff_dvd.2 ⟨-(k * z * z), ?_⟩)
    push_cast
    ring

/-- Fermat for both primes of a modulus: a number coprime to `n` has order dividing `lambda` (R94). -/
theorem PaillierKey.pow_lambda_modEq {p q n lambda mu r : Nat} (h : PaillierKey p q n lambda mu) (hr : Nat.Coprime r n) :
    r ^ lambda ≡ 1 [MOD n] := by
  have fermat {p' : Nat} (hp' : p'.Prime) (hdvd : p' - 1 ∣ lambda) (hcop : Nat.Coprime r p') :
      r ^ lambda ≡ 1 [MOD p'] := by
    obtain ⟨c, rfl⟩ := hdvd
    rw [pow_mul]
    simpa [Nat.totient_prime hp'] using (Nat.ModEq.pow_totient hcop).pow c
  rw [h.n_eq] at hr ⊢
  refine (Nat.modEq_and_modEq_iff_modEq_mul ((Nat.coprime_primes h.p_prime h.q_prime).2 h.ne)).1 ⟨?_, ?_⟩
  · exact fermat h.p_prime (h.lambda_eq ▸ Nat.dvd_lcm_left _ _) hr.coprime_mul_right_right
  · exact fermat h.q_prime (h.lambda_eq ▸ Nat.dvd_lcm_right _ _) hr.coprime_mul_left_right

/-- `c` encrypts `m` for some random value coprime to `n`, said modulo `n²` (R92). -/
def Encrypts (n m : Nat) (c : Int) : Prop :=
  ∃ r : Nat, Nat.Coprime r n ∧ c ≡ ((n : Int) + 1) ^ m * (r : Int) ^ n [ZMOD (n : Int) * n]

theorem nsq_nonneg (n : Nat) : (0 : Int) ≤ (n : Int) * n := mul_self_nonneg _

theorem Encrypts.of_isEncryption {n m r : Nat} {c : Int} (hr : Nat.Coprime r n) (h : IsEncryption n m r c) :
    Encrypts n m c :=
  ⟨r, hr, h ▸ fmod_modEq _ (nsq_nonneg n)⟩

/-- The product of two encryptions encrypts the sum (R94). -/
theorem Encrypts.mul {n a b : Nat} {c d : Int} (hc : Encrypts n a c) (hd : Encrypts n b d) :
    Encrypts n (a + b) ((c * d).fmod ((n : Int) * n)) := by
  obtain ⟨ra, hra, hc⟩ := hc
  obtain ⟨rb, hrb, hd⟩ := hd
  refine ⟨ra * rb, hra.mul_left hrb, (fmod_modEq _ (nsq_nonneg n)).trans ((hc.mul hd).trans (congrArg (· % _) ?_))⟩
  push_cast
  ring

/-- The power of an encryption encrypts the multiple (R94). -/
theorem Encrypts.pow {n a : Nat} {c : Int} (hc : Encrypts n a c) (k : Nat) :
    Encrypts n (a * k) ((c ^ k).fmod ((n : Int) * n)) := by
  obtain ⟨r, hr, hc⟩ := hc
  refine ⟨r ^ k, hr.pow_left k, (fmod_modEq _ (nsq_nonneg n)).trans ((hc.pow k).trans (congrArg (· % _) ?_))⟩
  push_cast
  ring

/-- Raised to `lambda`, an encryption of `m` is `1 + m*lambda*n` modulo `n²`: the random factor vanishes (R93, R94). -/
theorem Encrypts.pow_lambda_modEq {p q n lambda mu m : Nat} {c : Int} (hc : Encrypts n m c)
    (hkey : PaillierKey p q n lambda mu) : c ^ lambda ≡ 1 + m * lambda * n [ZMOD (n : Int) * n] := by
  obtain ⟨r, hr, hc⟩ := hc
  obtain ⟨z, hz⟩ := ((Int.natCast_modEq_iff.2 (hkey.pow_lambda_modEq hr)).symm).dvd
  push_cast at hz
  have hrandom : ((r : Int) ^ n) ^ lambda ≡ 1 [ZMOD (n : Int) * n] := by
    have hone : (r : Int) ^ lambda = 1 + n * z := by linarith
    rw [pow_right_comm, hone]
    exact (one_add_mul_pow_modEq n z n).trans (Int.modEq_iff_dvd.2 ⟨-z, by ring⟩)
  have hplain : (((n : Int) + 1) ^ m) ^ lambda ≡ 1 + m * lambda * n [ZMOD (n : Int) * n] := by
    have := one_add_mul_pow_modEq n 1 (m * lambda)
    rw [mul_one, mul_one, add_comm 1 (n : Int)] at this
    rw [← pow_mul]
    exact_mod_cast this
  calc c ^ lambda ≡ (((n : Int) + 1) ^ m * (r : Int) ^ n) ^ lambda [ZMOD (n : Int) * n] := hc.pow lambda
    _ = (((n : Int) + 1) ^ m) ^ lambda * ((r : Int) ^ n) ^ lambda := mul_pow _ _ _
    _ ≡ (1 + m * lambda * n) * 1 [ZMOD (n : Int) * n] := hplain.mul hrandom
    _ = 1 + m * lambda * n := mul_one _

/-- What a number that is `1 + x*n` modulo `n²` decrypts to: `L` is exact and gives `x` modulo `n` (R93). -/
theorem decryptsTo_of_modEq {n mu m : Nat} {u x : Int} (hn : 0 < n) (hu : u ≡ 1 + x * n [ZMOD (n : Int) * n])
    (hx : x * mu ≡ m [ZMOD n]) : DecryptsTo n mu u (m % n) := by
  obtain ⟨z, hz⟩ := hu.dvd
  have hquot : u - 1 = n * (x - n * z) := by linarith
  have hn' : (n : Int) ≠ 0 := by exact_mod_cast hn.ne'
  refine ⟨by rw [hquot, Int.mul_emod_right], ?_⟩
  rw [hquot, Int.mul_ediv_cancel_left _ hn', Int.natCast_mod]
  refine Int.ModEq.trans (Int.modEq_iff_dvd.2 ⟨z * mu, ?_⟩) hx
  ring

/-- MODEXP with `lambda` and the host's last step give back what was encrypted (R93, R94). -/
theorem Encrypts.decryptsTo {p q n lambda mu m : Nat} {c : Int} (hc : Encrypts n m c)
    (hkey : PaillierKey p q n lambda mu) : DecryptsTo n mu ((c ^ lambda).fmod ((n : Int) * n)) (m % n) := by
  have hn : 0 < n := hkey.n_eq ▸ Nat.mul_pos hkey.p_prime.pos hkey.q_prime.pos
  refine decryptsTo_of_modEq hn ((fmod_modEq _ (nsq_nonneg n)).trans (hc.pow_lambda_modEq hkey)) ?_
  have hmu : (lambda : Int) * mu ≡ 1 [ZMOD n] := by
    have hone : lambda * mu ≡ 1 [MOD n] := by
      have h1 : 1 < n := by
        have := hkey.p_prime.two_le
        have := hkey.q_prime.two_le
        rw [hkey.n_eq]
        nlinarith
      rw [Nat.ModEq, hkey.mu_inv, Nat.mod_eq_of_lt h1]
    exact_mod_cast Int.natCast_modEq_iff.2 hone
  calc (m : Int) * lambda * mu = m * (lambda * mu) := by ring
    _ ≡ m * 1 [ZMOD n] := hmu.mul_left _
    _ = m := mul_one _

/-! ## The commands of the laws (R92 to R94) -/

theorem State.HasKey.nsq_eq {s : State} {n : Nat} (h : s.HasKey n) (hinv : s.key.Inv s.config.bound) :
    (s.key.nsq : Int) = (n : Int) * n := by
  obtain ⟨hready, rfl⟩ := h
  exact_mod_cast hinv.nsq_eq hready

/-- The last command of a decryption, on a register that holds an encryption (R93). -/
theorem execAll_decrypt {p q n lambda mu m : Nat} {s : State} {rC rLam rNsq : Reg} (rU : Reg)
    (hpaillier : PaillierKey p q n lambda mu) (hinv : s.key.Inv s.config.bound) (hkey : s.HasKey n)
    (hC : Encrypts n m (s.val rC)) (hLam : s.val rLam = lambda) (hNsq : s.val rNsq = (n : Int) * n) :
    ∃ t u, execAll [.modexp rU rC rLam rNsq] s = .next t ∧ t.Succeeded ∧ t.Holds rU u ∧ DecryptsTo n mu u (m % n) := by
  have hnsq := hNsq.trans (hkey.nsq_eq hinv).symm
  obtain ⟨t, ht, hwrote⟩ := wrote_modexp (rs1 := rC) rU (encode (.modexp rU rC rLam rNsq))
    (hnsq ▸ hinv.nsq_pos hkey.1) (hLam ▸ Int.natCast_nonneg lambda) (hnsq ▸ hinv.nsq_lt hkey.1)
  have hholds := hwrote.holds
  rw [hLam, Int.toNat_natCast, hNsq] at hholds
  exact ⟨t, _, execAll_cons ht, hwrote.succeeded, hholds, hC.decryptsTo hpaillier⟩

/-- Settles O30: the commands of `encrypt` leave an encryption of `m`, which `lambda` and `mu` decrypt. -/
theorem paillierRoundTrip : Obligations.PaillierRoundTrip := by
  unfold Obligations.PaillierRoundTrip
  intro p q n lambda mu m r rM rR rN rG rLam rNsq rA rB rC rU s hpaillier hinv hkey hmn hr hnodup hM hR hN hG hLam hNsq
  have hnsq := hkey.nsq_eq hinv.key_inv
  simp only [List.nodup_cons, List.mem_cons, List.not_mem_nil, or_false, not_or] at hnodup
  obtain ⟨t, ht, -, hC, hregs, hkey', hconfig⟩ := execAll_encrypt (rR := rR) (rN := rN) (rG := rG) (rM := rM) (rA := rA)
    (rB := rB) (rC := rC) hinv.key_inv hkey.1 (by simp [hnodup, eq_comm]) (by rw [hN, hkey.2]) hM
    [.modexp rU rC rLam rNsq]
  rw [hnsq, hG, hR, hkey.2] at hC
  have henc : Encrypts n m (t.val rC) := by
    rw [hC.val_eq]
    have hn := nsq_nonneg n
    exact ⟨r, hr, (fmod_modEq _ hn).trans ((fmod_modEq _ hn).mul (fmod_modEq _ hn))⟩
  have hval (x : Reg) (hx : x ∉ [rA, rB, rC]) : t.val x = s.val x := congrArg BigReg.value (hregs x hx)
  obtain ⟨u, x, hu, hok, hholds, hdecrypts⟩ := execAll_decrypt rU hpaillier (by rw [hkey', hconfig]; exact hinv.key_inv)
    (show t.HasKey n by rw [State.HasKey, hkey']; exact hkey) henc ((hval rLam (by simp [hnodup])).trans hLam)
    ((hval rNsq (by simp [hnodup])).trans hNsq)
  rw [Nat.mod_eq_of_lt hmn] at hdecrypts
  exact ⟨u, x, ht.trans hu, hok, hholds, hdecrypts⟩

section
variable {p q n lambda mu m : Nat} {s : State} {i : Instr} {rC rLam rNsq rU : Reg}

/-- A key command that leaves an encryption in `rC`, and the decryption of that register. -/
theorem execAll_then_decrypt {c : Int} (hpaillier : PaillierKey p q n lambda mu) (hinv : s.Inv) (hkey : s.HasKey n)
    (hLamC : rLam ≠ rC) (hNsqC : rNsq ≠ rC) (hLam : s.val rLam = lambda) (hNsq : s.val rNsq = (n : Int) * n)
    (hi : ∃ t, exec i (s.issue (encode i)) = .next t ∧ State.Wrote s t rC c) (hc : Encrypts n m c) :
    ∃ t u, execAll [i, .modexp rU rC rLam rNsq] s = .next t ∧ t.Succeeded ∧ t.Holds rU u ∧
      DecryptsTo n mu u (m % n) := by
  obtain ⟨t, ht, hwrote⟩ := hi
  obtain ⟨u, x, hu, hrest⟩ := execAll_decrypt rU hpaillier (by rw [hwrote.key, hwrote.config]; exact hinv.key_inv)
    (show t.HasKey n by rw [State.HasKey, hwrote.key]; exact hkey) (hwrote.holds.val_eq ▸ hc)
    ((hwrote.val_ne hLamC).trans hLam) ((hwrote.val_ne hNsqC).trans hNsq)
  exact ⟨u, x, (execAll_cons ht).trans hu, hrest⟩

end

/-- Settles O31: HADD leaves an encryption of the sum. -/
theorem paillierAdditionLaw : Obligations.PaillierAdditionLaw := by
  unfold Obligations.PaillierAdditionLaw
  intro p q n lambda mu a b ra rb rA rB rC rLam rNsq rU s hpaillier hinv hkey hra hrb hnodup hA hB hLam hNsq
  simp only [List.nodup_cons, List.mem_cons, List.not_mem_nil, or_false, not_or] at hnodup
  obtain ⟨-, -, ⟨hCLam, hCNsq, -⟩, -⟩ := hnodup
  refine execAll_then_decrypt hpaillier hinv hkey (Ne.symm hCLam) (Ne.symm hCNsq) hLam hNsq
    (wrote_hadd hinv.key_inv hkey.1 rC rA rB _) ?_
  rw [hkey.nsq_eq hinv.key_inv]
  exact (Encrypts.of_isEncryption hra hA).mul (Encrypts.of_isEncryption hrb hB)

/-- Settles O32: HSCALE leaves an encryption of the multiple. -/
theorem paillierScalingLaw : Obligations.PaillierScalingLaw := by
  unfold Obligations.PaillierScalingLaw
  intro p q n lambda mu a k ra rA rK rC rLam rNsq rU s hpaillier hinv hkey hra hnodup hA hK hLam hNsq
  simp only [List.nodup_cons, List.mem_cons, List.not_mem_nil, or_false, not_or] at hnodup
  obtain ⟨-, -, ⟨hCLam, hCNsq, -⟩, -⟩ := hnodup
  refine execAll_then_decrypt hpaillier hinv hkey (Ne.symm hCLam) (Ne.symm hCNsq) hLam hNsq
    (wrote_hscale hinv.key_inv hkey.1 hK rC rA _) ?_
  rw [hkey.nsq_eq hinv.key_inv]
  exact (Encrypts.of_isEncryption hra hA).pow k

end Sys2Proof.Machine
end

section
/-! SUPPORT. The byte view, and the host's pseudo-operations as lists of accesses (20_memory.md R38, 30_encoding.md R61). -/

namespace Sys2Proof.Machine

/-! ## Bytes (R38) -/

/-- A byte of a 32-bit part is a byte of the number it is part of. -/
theorem byte_of_limb (x : Nat) {k : Nat} (hk : k < 4) : x % 2 ^ 32 / 2 ^ (8 * k) % 2 ^ 8 = x / 2 ^ (8 * k) % 2 ^ 8 := by
  interval_cases k <;> omega

/-- Byte `j` of a magnitude is byte `j mod 4` of its limb `j / 4`. -/
theorem byte_of_magnitude (mag j : Nat) :
    (limbOf mag (j / 4)).toNat / 2 ^ (8 * (j % 4)) % 2 ^ 8 = mag / 256 ^ j % 256 := by
  have hj : 32 * (j / 4) + 8 * (j % 4) = 8 * j := by omega
  rw [limbOf_toNat, byte_of_limb _ (Nat.mod_lt j (by decide)), Nat.div_div_eq_div_mul, ← pow_add, hj, pow_mul]
  norm_num

theorem State.byteAt_of_peek {s : State} {off k : Nat} {w : Word} (haligned : off % 4 = 0) (hk : k < 4)
    (h : s.peek (locate off) = some w) :
    ∃ b, s.byteAt (off + k) = some b ∧ b.toNat = w.toNat / 2 ^ (8 * k) % 2 ^ 8 := by
  refine ⟨w.extractLsb' (8 * k) 8, ?_, by rw [BitVec.extractLsb'_toNat, Nat.shiftRight_eq_div_pow]⟩
  rw [State.byteAt, show (off + k) / 4 * 4 = off by omega, show (off + k) % 4 = k by omega, h, Option.map_some]

/-- An idle block shows limb `i` of the selected magnitude in the window (R39). -/
theorem State.peek_limb {s : State} {i m : Nat} (hidle : s.pend = none) (hl : i < s.config.limbs)
    (hm : s.selectedMag = some m) : s.peek (.limb i) = some (limbOf m i) := by
  simp [State.peek, State.readLimb, State.busy, hidle, hl, hm]

theorem State.peek_sign {s : State} {b : Bool} (hidle : s.pend = none) (hb : s.selectedSign = some b) :
    s.peek .sign = some (0#31 ++ BitVec.ofBool b) := by
  simp [State.peek, State.readSign, State.busy, hidle, hb]

/-- Settles O37: byte `k` of a word is cut out of it, and byte `j` of the window out of limb `j / 4`. -/
theorem windowBytesAreLittleEndian : Obligations.WindowBytesAreLittleEndian := by
  unfold Obligations.WindowBytesAreLittleEndian
  refine ⟨fun s off k w haligned hk h => State.byteAt_of_peek haligned hk h, fun s r j hlimbs hidle hsel hj => ?_⟩
  have hpeek : s.peek (locate (0x1000 + 4 * (j / 4))) = some (limbOf (s.reg r).mag (j / 4)) := by
    rw [locate_limb (by omega)]
    exact State.peek_limb hidle (by omega) (State.selectedMag_big hsel)
  obtain ⟨b, hb, hvalue⟩ := State.byteAt_of_peek (by omega) (Nat.mod_lt j (by decide : 4 > 0)) hpeek
  rw [show 0x1000 + 4 * (j / 4) + j % 4 = 0x1000 + j by omega] at hb
  exact ⟨b, hb, hvalue.trans (byte_of_magnitude _ j)⟩

/-! ## Reads one after the other -/

/-- Reads that are all served give the host their words and change the bus port only (R43, R61). -/
theorem feed_reads {ι : Type} {off : ι → Nat} {word : ι → Word} (l : List ι) (s : State)
    (h : ∀ i ∈ l, off i < 0x4000 ∧ off i % 4 = 0 ∧ s.peek (locate (off i)) = some (word i)) :
    ∃ v rest, feed (l.map fun i => r32 s.config (off i)) s = .next (l.map word, s.withBus v rest) := by
  induction l generalizing s with
  | nil => exact ⟨s.readData, s.inputs, rfl⟩
  | cons i l ih =>
    obtain ⟨⟨hoff, haligned, hpeek⟩, hl⟩ := List.forall_mem_cons.1 h
    have hserve : (s.withInputs []).serve .w32 (off i) .read = s.withBus (word i) [] := by
      rw [State.serve_withInputs, State.serve_read_aligned _ haligned, State.serveRead_of_peek hpeek]
      rfl
    have hfirst := feed_r32 s hoff
    rw [hserve] at hfirst
    have hsame (x : Location) : (s.withBus (word i) []).peek x = s.peek x := by cases x <;> rfl
    obtain ⟨v, rest, hrest⟩ := ih (s.withBus (word i) []) fun j hj => by rw [hsame]; exact hl j hj
    exact ⟨v, rest, feed_append hfirst hrest⟩

/-- Reads of STATUS, as many as one likes. -/
theorem feed_status_reads (s : State) (k : Nat) :
    ∃ v rest, feed (List.replicate k (r32 s.config 0x00C)) s =
      .next (List.replicate k s.statusWord, s.withBus v rest) := by
  have h := feed_reads (off := fun _ => 0x00C) (word := fun _ => s.statusWord) (List.replicate k ()) s
    fun _ _ => ⟨by decide, rfl, rfl⟩
  simpa only [List.map_replicate] using h

/-! ## run (R61) -/

/-- The engine's turn gives the host nothing back (R64). -/
theorem feed_engine {s t : State} (h : engineStep s = .next t) : feed [.engine] s = .next ([], t.withInputs []) := by
  have hstep : step (s.withInputs [.engine]) = .next (t.withInputs []) := engineStep_withInputs h []
  simp only [feed, hstep]
  rfl

/-- Settles O45: the issue, the polls that find the word in flight, its completion, and two reads of STATUS. -/
theorem runReadsTheCompletedStatus : Obligations.RunReadsTheCompletedStatus := by
  unfold Obligations.RunReadsTheCompletedStatus
  intro s w polls hidle
  obtain ⟨u, hu, hpend, hdone⟩ : ∃ u, engineStep (s.issue w) = .next u ∧ u.pend = none ∧ u.status.done = true :=
    ⟨_, engineStep_of_pend (s.issue_pend w), State.complete_pend _ _, State.complete_done _ _⟩
  have hissue : feed (issueOp s.config w) s = .next ([], (s.issue w).withInputs []) := by
    have h := feed_w32 s (off := 0x010) (by decide) w
    rwa [State.serve_withInputs, State.serve_write_cmd_idle hidle] at h
  obtain ⟨v, rest, hpolls⟩ := feed_status_reads ((s.issue w).withInputs []) polls
  have hengine := feed_engine (engineStep_withBus hu v rest)
  obtain ⟨_, hframe⟩ := engineStep_frame hu
  have hconfig : u.config = s.config := hframe.config
  obtain ⟨v', rest', hreads⟩ := feed_status_reads ((u.withBus v rest).withInputs []) 2
  refine ⟨u, u.withBus v' rest', hu, ?_, ?_, ?_, ?_, rfl, rfl, rfl, hpend⟩
  · have hlist : runOp s.config w polls = issueOp s.config w ++ (List.replicate polls (r32 s.config 0x00C) ++
        ([.engine] ++ List.replicate 2 (r32 u.config 0x00C))) := by
      simp [runOp, waitOp, hconfig, List.replicate]
    have hfeed := feed_append hissue (feed_append hpolls (feed_append hengine hreads))
    rw [hlist]
    exact hfeed
  · rw [State.statusWord_toNat]
    simp only [State.issue_pend, reduceCtorEq, if_false]
    split_ifs <;> omega
  · rw [State.statusWord_toNat, if_pos hpend]
    split_ifs <;> omega
  · rw [State.statusWord_toNat, if_pos hpend, if_pos hdone]
    split_ifs <;> omega

/-! ## getreg and getkey (R61) -/

/-- The state with `SEL` at `x` and no input left. -/
def State.selected (s : State) (x : BitVec 5) : State := { s with sel := x, inputs := [] }

theorem feed_select (s : State) (v : Word) :
    feed [w32 s.config 0x014 v] s = .next ([], s.selected (v.extractLsb' 0 5)) :=
  feed_w32 s (by decide) v

theorem toNat_select {n : Nat} (h : n < 32) : ((BitVec.ofNat 32 n).extractLsb' 0 5).toNat = n := by
  rw [toNat_lowFive, BitVec.toNat_ofNat]
  omega

/-- The limbs of a number from limb `k` on, put together again (R61). -/
theorem limbSum_limbs (m k n : Nat) : limbSum ((List.range' k n).map (limbOf m)) = m / 2 ^ (32 * k) % 2 ^ (32 * n) := by
  induction n generalizing k with
  | zero => simp [limbSum, Nat.mod_one]
  | succ n ih =>
    rw [List.range'_succ, List.map_cons, limbSum, ih, limbOf_toNat, mul_add 32 k 1, mul_one, pow_add,
      ← Nat.div_div_eq_div_mul, mul_add 32 n 1, mul_one, pow_add, mul_comm (2 ^ (32 * n)), Nat.mod_mul]

/-- The words of a register that fits make up its value again. -/
theorem hostInteger_words {b : Bool} {m limbs : Nat} (h : m < 2 ^ (32 * limbs)) :
    hostInteger ((0#31 ++ BitVec.ofBool b) :: (List.range limbs).map (limbOf m)) = BigReg.value { sign := b, mag := m } := by
  have hm : limbSum ((List.range limbs).map (limbOf m)) = m := by
    rw [List.range_eq_range', limbSum_limbs, mul_zero, pow_zero, Nat.div_one, Nat.mod_eq_of_lt h]
  rw [hostInteger, hm]
  cases b <;> rfl

/-- The reads of `getreg` on an idle block with a register or key field selected. -/
theorem feed_valueReads {s : State} {b : Bool} {m : Nat} (hlimbs : s.config.limbs ≤ 2048) (hidle : s.pend = none)
    (hb : s.selectedSign = some b) (hm : s.selectedMag = some m) :
    ∃ v rest, feed (valueReads s.config) s =
      .next ((0#31 ++ BitVec.ofBool b) :: (List.range s.config.limbs).map (limbOf m), s.withBus v rest) := by
  obtain ⟨v, rest, hsign⟩ := feed_reads (off := fun _ => 0x018) (word := fun _ => 0#31 ++ BitVec.ofBool b) [()] s
    fun _ _ => ⟨by decide, rfl, State.peek_sign hidle hb⟩
  obtain ⟨v', rest', hwindow⟩ := feed_reads (off := fun k => 0x1000 + 4 * k) (word := limbOf m)
    (List.range s.config.limbs) (s.withBus v rest) fun k hk => by
      rw [List.mem_range] at hk
      refine ⟨by omega, by omega, ?_⟩
      rw [locate_limb (by omega)]
      exact State.peek_limb hidle hk hm
  exact ⟨v', rest', feed_append hsign hwindow⟩

/-- `getreg` and `getkey`: what they select is what the host gets. -/
theorem feed_select_valueReads {s : State} {n : Nat} {b : Bool} {m : Nat} (hwf : s.config.wf = true)
    (hidle : s.pend = none) (hn : n < 32) (hb : ∀ x : BitVec 5, x.toNat = n → (s.selected x).selectedSign = some b)
    (hm : ∀ x : BitVec 5, x.toNat = n → (s.selected x).selectedMag = some m) (hfit : m < s.config.bound) :
    ∃ ws t, feed (w32 s.config 0x014 (BitVec.ofNat 32 n) :: valueReads s.config) s = .next (ws, t) ∧
      hostInteger ws = BigReg.value { sign := b, mag := m } ∧
      t.br = s.br ∧ t.key = s.key ∧ t.status = s.status ∧ t.cmd = s.cmd ∧ t.ie = s.ie ∧ t.pend = none := by
  have hx := toNat_select hn
  obtain ⟨v, rest, hreads⟩ := feed_valueReads (s := s.selected ((BitVec.ofNat 32 n).extractLsb' 0 5))
    (Config.limbs_le_of_wf hwf) hidle (hb _ hx) (hm _ hx)
  exact ⟨_, _, feed_append (feed_select s (BitVec.ofNat 32 n)) hreads, hostInteger_words hfit, rfl, rfl, rfl, rfl, rfl,
    hidle⟩

theorem State.selectedMag_key {s : State} (j : Fin 3) (h : s.sel.toNat = 16 + j.val) :
    s.selectedMag = some ([s.key.n, s.key.nsq, s.key.g][j.val]'j.isLt) := by
  match j with
  | 0 => exact State.selectedMag_keyN h
  | 1 => exact State.selectedMag_keyNsq h
  | 2 => exact State.selectedMag_keyG h

/-- Every key field fits a register (R19, R88). -/
theorem KeySlot.Inv.field_lt {k : KeySlot} {bound : Nat} (h : k.Inv bound) (hbound : 0 < bound) (j : Fin 3) :
    [k.n, k.nsq, k.g][j.val]'j.isLt < bound := by
  rcases h with h | ⟨h, h2, hfit⟩
  · rw [h]
    match j with
    | 0 | 1 | 2 => exact hbound
  · have hnsq : k.nsq = k.n * k.n := congrArg KeySlot.nsq h
    have hg : k.g = k.n + 1 := congrArg KeySlot.g h
    have hle : k.n + 1 ≤ k.n * k.n := by nlinarith
    match j with
    | 0 => exact (Nat.le_mul_self k.n).trans_lt hfit
    | 1 => exact hnsq ▸ hfit
    | 2 => exact hg ▸ hle.trans_lt hfit

/-- Settles O44: the selection, then the sign and the limbs of what is selected, which make up its value. -/
theorem getregGivesTheValue : Obligations.GetregGivesTheValue := by
  unfold Obligations.GetregGivesTheValue
  refine fun s hwf hidle => ⟨fun i hrange => ?_, fun j hkey => ?_⟩
  · exact feed_select_valueReads hwf hidle (by omega) (fun x hx => State.selectedSign_big (s := s.selected x) hx)
      (fun x hx => State.selectedMag_big (s := s.selected x) hx) (hrange i)
  · exact feed_select_valueReads (b := false) hwf hidle (by omega)
      (fun x hx => State.selectedSign_key (s := s.selected x) (hx.symm ▸ by omega) (hx.symm ▸ by omega))
      (fun x hx => State.selectedMag_key (s := s.selected x) j hx) (hkey.field_lt (Nat.two_pow_pos _) j)

/-! ## setreg (R61, R117) -/

theorem State.setReg_setReg (s : State) (i : Reg) (a b : BigReg) : (s.setReg i a).setReg i b = s.setReg i b := by
  simp [State.setReg]

/-- One limb more of a number (R38). -/
theorem mod_next_limb (m n : Nat) : m % 2 ^ (32 * (n + 1)) = m % 2 ^ (32 * n) + 2 ^ (32 * n) * (limbOf m n).toNat := by
  rw [mul_add, mul_one, pow_add, Nat.mod_mul, limbOf_toNat]

/-- Writing limb `n` above the lower limbs of a number gives one limb more of it. -/
theorem withLimb_limbOf (m n : Nat) : withLimb (m % 2 ^ (32 * n)) n (limbOf m n) = m % 2 ^ (32 * (n + 1)) := by
  have hlt : m % 2 ^ (32 * n) < 2 ^ (32 * n) := Nat.mod_lt _ (Nat.two_pow_pos _)
  have hle : 2 ^ (32 * n) ≤ 2 ^ (32 * (n + 1)) := Nat.pow_le_pow_right (by decide) (by omega)
  rw [withLimb, Nat.div_eq_of_lt (hlt.trans_le hle), Nat.mod_mod, mod_next_limb]
  ring

/-- The limb writes of `setreg` for the limbs below `n`. -/
def limbWritesBelow (c : Config) (m n : Nat) : List Input :=
  (List.range n).filterMap fun k => if limbOf m k = 0#32 then none else some (w32 c (0x1000 + 4 * k) (limbOf m k))

theorem limbWritesBelow_succ (c : Config) (m n : Nat) : limbWritesBelow c m (n + 1) =
    limbWritesBelow c m n ++ if limbOf m n = 0#32 then [] else [w32 c (0x1000 + 4 * n) (limbOf m n)] := by
  rw [limbWritesBelow, List.range_succ, List.filterMap_append]
  congr 1
  by_cases h : limbOf m n = 0#32 <;> simp [h]

theorem State.withInputs_self {s : State} {l : List Input} (h : s.inputs = l) : s.withInputs l = s := by
  subst h
  rfl

section
variable {s : State} {i : Reg} (hinputs : s.inputs = []) (hlimbs : s.config.limbs ≤ 2048) (hidle : s.pend = none)
  (hsel : s.sel.toNat = i.val)
include hinputs hlimbs hidle hsel

/-- A limb write of `setreg`, skipped if the limb is 0, adds one limb to the register (R39). -/
theorem feed_limbWrite (m : Nat) {n : Nat} (hn : n < s.config.limbs) :
    feed (if limbOf m n = 0#32 then [] else [w32 s.config (0x1000 + 4 * n) (limbOf m n)])
        (s.setReg i { sign := false, mag := m % 2 ^ (32 * n) }) =
      .next ([], s.setReg i { sign := false, mag := m % 2 ^ (32 * (n + 1)) }) := by
  split
  · next hzero =>
    rw [mod_next_limb, hzero]
    rfl
  · have hwrite := feed_w32 (s.setReg i { sign := false, mag := m % 2 ^ (32 * n) }) (off := 0x1000 + 4 * n) (by omega)
      (limbOf m n)
    rw [State.withInputs_self (by exact hinputs),
      State.serve_write_limb_idle (s := s.setReg i _) (r := i) (by omega) hidle hn hsel, State.reg_setReg_self, State.setReg_setReg, withLimb_limbOf] at hwrite
    exact hwrite

theorem feed_limbWritesBelow (m n : Nat) (hn : n ≤ s.config.limbs) :
    feed (limbWritesBelow s.config m n) (s.setReg i BigReg.zero) =
      .next ([], s.setReg i { sign := false, mag := m % 2 ^ (32 * n) }) := by
  induction n with
  | zero =>
    rw [mul_zero, pow_zero, Nat.mod_one]
    rfl
  | succ n ih =>
    rw [limbWritesBelow_succ]
    exact feed_append (ih (by omega)) (feed_limbWrite hinputs hlimbs hidle hsel m hn)

omit hlimbs in
/-- The last write of `setreg`: SIGN, for a negative value (R27). -/
theorem feed_signWrite (v : Int) : feed (if v < 0 then [w32 s.config 0x018 1#32] else [])
      (s.setReg i { sign := false, mag := v.natAbs }) = .next ([], s.setReg i (BigReg.ofInt v)) := by
  split
  · next hneg =>
    have hwrite := feed_w32 (s.setReg i { sign := false, mag := v.natAbs }) (off := 0x018) (by decide) 1#32
    rw [State.withInputs_self (by exact hinputs), State.serve_write_sign_idle (s := s.setReg i _) (r := i) hidle hsel,
      State.reg_setReg_self, State.setReg_setReg] at hwrite
    rw [BigReg.ofInt, decide_eq_true hneg]
    exact hwrite
  · next hneg =>
    rw [BigReg.ofInt, decide_eq_false hneg]
    rfl

end

/-- All accesses of `setreg`: the register holds the value, and of the rest only SEL changed. -/
theorem feed_setregOp {s : State} {v : Int} (hwf : s.config.wf = true) (hidle : s.pend = none)
    (hv : v.natAbs < s.config.bound) (i : Reg) : feed (setregOp s.config i v) s =
      .next ([], (s.selected ((BitVec.ofNat 32 i.val).extractLsb' 0 5)).setReg i (BigReg.ofInt v)) := by
  have hsel := toNat_select (show i.val < 32 by omega)
  have hlimbs := Config.limbs_le_of_wf hwf
  have hclear : feed [w32 s.config 0x020 (BitVec.ofNat 32 i.val)] s =
      .next ([], (s.withInputs []).setReg i BigReg.zero) := by
    have h := feed_w32 s (off := 0x020) (by decide) (BitVec.ofNat 32 i.val)
    rwa [State.serve_write_regClr_idle (s := s.withInputs []) (r := i) hidle (by rw [← toNat_lowFive, hsel])] at h
  have hselect := feed_select ((s.withInputs []).setReg i BigReg.zero) (BitVec.ofNat 32 i.val)
  have hlimbWrites := feed_limbWritesBelow (s := s.selected ((BitVec.ofNat 32 i.val).extractLsb' 0 5)) rfl hlimbs hidle
    hsel v.natAbs s.config.limbs le_rfl
  have hmod : v.natAbs % 2 ^ (32 * s.config.limbs) = v.natAbs := Nat.mod_eq_of_lt hv
  rw [hmod] at hlimbWrites
  have hsign := feed_signWrite (s := s.selected ((BitVec.ofNat 32 i.val).extractLsb' 0 5)) rfl hidle hsel v
  exact feed_append (feed_append (feed_append hclear hselect) hlimbWrites) hsign

/-- Settles O43: REGCLR leaves no stale limb, each write adds its limb, and SIGN the sign. -/
theorem setregLeavesTheValue : Obligations.SetregLeavesTheValue := by
  unfold Obligations.SetregLeavesTheValue
  intro s i v hwf hidle hv
  refine ⟨_, feed_setregOp hwf hidle hv i, State.holds_of_reg (State.reg_setReg_self _ _ _), toNat_select (by omega),
    fun r hr => State.reg_setReg_ne _ hr _, rfl, rfl, rfl, rfl, rfl, hidle, rfl, rfl⟩

end Sys2Proof.Machine
end

section
/-! SUPPORT. A legal word is the packed word of its fields (30_encoding.md R50 to R59), and the assembler's lines (R60). -/

namespace Sys2Proof.Machine

/-! ## A legal word as the packed word of its fields (R51 to R55) -/

theorem roundsField_val (w : Word) : (roundsField w).val = w.toNat / 2 ^ 14 % 256 := by
  simp [roundsField, Nat.shiftRight_eq_div_pow]

section
variable {w : Word} {op : BitVec 6} (hop : opField w = op)
include hop

theorem packWord_fields_r4 (hres : reservedBitSet .r4 w = false) : packWord op (regBits (regField w 6))
    (regBits (regField w 10)) (regBits (regField w 14)) (regBits (regField w 18)) 0#4 = w := by
  have hupper := not_not.1 ((reservedBitSet_r4_iff w).not.1 (Bool.not_eq_true _ ▸ hres))
  apply BitVec.eq_of_toNat_eq
  rw [packWord_r4_toNat, ← hop, opField_toNat]
  simp only [regField_val, fieldNat]
  omega

theorem packWord_fields_r3 (hres : reservedBitSet .r3 w = false) : packWord op (regBits (regField w 6))
    (regBits (regField w 10)) (regBits (regField w 14)) 0#4 0#4 = w := by
  have hupper := not_not.1 ((reservedBitSet_r3_iff w).not.1 (Bool.not_eq_true _ ▸ hres))
  apply BitVec.eq_of_toNat_eq
  rw [packWord_r3_toNat, ← hop, opField_toNat]
  simp only [regField_val, fieldNat]
  omega

theorem packWord_fields_e (hres : reservedBitSet .e w = false) : packWord op (regBits (regField w 6))
    (regBits (regField w 10)) (regBits (regField w 14)) (regBits (regField w 18)) (regBits (regField w 22)) = w := by
  have hupper := not_not.1 ((reservedBitSet_e_iff w).not.1 (Bool.not_eq_true _ ▸ hres))
  apply BitVec.eq_of_toNat_eq
  rw [packWord_e_toNat, ← hop, opField_toNat]
  simp only [regField_val, fieldNat]
  omega

theorem packWord_fields_i (hres : reservedBitSet .i w = false) : packWord op (regBits (regField w 6))
    (regBits (regField w 10)) (roundsLow (roundsField w)) (roundsHigh (roundsField w)) 0#4 = w := by
  have hupper := not_not.1 ((reservedBitSet_i_iff w).not.1 (Bool.not_eq_true _ ▸ hres))
  apply BitVec.eq_of_toNat_eq
  rw [packWord_i_toNat, ← hop, opField_toNat]
  simp only [regField_val, roundsField_val, fieldNat]
  omega

theorem packWord_fields_k (hres : reservedBitSet .k w = false) :
    packWord op 0#4 (regBits (regField w 10)) 0#4 0#4 0#4 = w := by
  have hzero := (reservedBitSet_k_iff w).not.1 (Bool.not_eq_true _ ▸ hres)
  rw [not_or, not_not, not_not] at hzero
  obtain ⟨hfield, hupper⟩ := hzero
  rw [fieldNat] at hfield
  apply BitVec.eq_of_toNat_eq
  rw [packWord_k_toNat, ← hop, opField_toNat]
  simp only [regField_val, fieldNat]
  omega

end

/-- A word that decodes has the opcode of a mnemonic, no reserved bit of its format, and its operands (R58). -/
theorem shape_of_decode {w : Word} {i : Instr} (h : decode w = some i) :
    ∃ m : Mnemonic, opField w = m.opcode ∧ reservedBitSet m.format w = false ∧ operandsOf m w = some i := by
  unfold decode at h
  cases hm : mnemonicOf (opField w) with
  | none => rw [hm] at h; cases h
  | some m =>
    simp only [hm, Option.ite_none_left_eq_some, Bool.not_eq_true] at h
    exact ⟨m, (opcode_of_mnemonicOf hm).symm, h⟩

/-- The operands a mnemonic reads from a word are encoded to that word, format by format. -/
theorem encode_of_operandsOf {m : Mnemonic} {w : Word} {i : Instr} (hop : opField w = m.opcode)
    (hres : reservedBitSet m.format w = false) (h : operandsOf m w = some i) : encode i = w ∧ i.wellFormed = true := by
  cases m with
  | modexp | montmul =>
    obtain rfl := Option.some.inj h
    exact ⟨packWord_fields_r4 hop hres, rfl⟩
  | gcd | modinv | lcm | mrwit | hadd | hscale =>
    obtain rfl := Option.some.inj h
    exact ⟨packWord_fields_r3 hop hres, rfl⟩
  | mrtest =>
    obtain rfl := Option.some.inj h
    exact ⟨packWord_fields_i hop hres, rfl⟩
  | loadkey =>
    obtain rfl := Option.some.inj h
    exact ⟨packWord_fields_k hop hres, rfl⟩
  | egcd =>
    simp only [operandsOf, Option.ite_none_right_eq_some, Option.some.injEq] at h
    obtain ⟨hdistinct, rfl⟩ := h
    exact ⟨packWord_fields_e hop hres, hdistinct⟩

/-- Settles O3: a legal word has no bit outside its opcode and the fields its format reads. -/
theorem encodeAfterDecodeIsIdentity : Obligations.EncodeAfterDecodeIsIdentity := by
  unfold Obligations.EncodeAfterDecodeIsIdentity
  intro w i h
  obtain ⟨m, hop, hres, hoperands⟩ := shape_of_decode h
  exact encode_of_operandsOf hop hres hoperands

/-- Settles O1, by evaluating the decoder on the sixteen words. -/
theorem specExampleWordsDecode : Obligations.SpecExampleWordsDecode := by
  unfold Obligations.SpecExampleWordsDecode
  decide

/-! ## The assembler's lines (R60) -/

theorem asmReg_of_lt {n : Nat} (h : n < 16) : asmReg n = some ⟨n, h⟩ := dif_pos h

theorem asmRounds_of_lt {n : Nat} (h : n < 256) : asmRounds n = some ⟨n, h⟩ := dif_pos h

theorem eq_val_of_asmReg {n : Nat} {r : Reg} (h : asmReg n = some r) : n = r.val := by
  unfold asmReg at h
  split at h <;> cases h
  rfl

theorem eq_val_of_asmRounds {n : Nat} {k : Rounds} (h : asmRounds n = some k) : n = k.val := by
  unfold asmRounds at h
  split at h <;> cases h
  rfl

theorem operands_of_asm3 {f : Reg → Reg → Reg → Instr} {a b c : Nat} {i : Instr} (h : asm3 f a b c = some i) :
    ∃ x y z : Reg, a = x.val ∧ b = y.val ∧ c = z.val ∧ i = f x y z := by
  unfold asm3 at h
  split at h
  · next x y z hx hy hz =>
    exact ⟨x, y, z, eq_val_of_asmReg hx, eq_val_of_asmReg hy, eq_val_of_asmReg hz, (Option.some.inj h).symm⟩
  · cases h

theorem operands_of_asm4 {f : Reg → Reg → Reg → Reg → Instr} {a b c d : Nat} {i : Instr}
    (h : asm4 f a b c d = some i) : ∃ x y z u : Reg, a = x.val ∧ b = y.val ∧ c = z.val ∧ d = u.val ∧ i = f x y z u := by
  unfold asm4 at h
  split at h
  · next x y z u hx hy hz hu =>
    exact ⟨x, y, z, u, eq_val_of_asmReg hx, eq_val_of_asmReg hy, eq_val_of_asmReg hz, eq_val_of_asmReg hu,
      (Option.some.inj h).symm⟩
  · cases h

/-- A line with acceptable operands is accepted. -/
theorem assemble_ne_none {l : AsmLine} (h : AsmLineOk l) : assemble l ≠ none := by
  cases l with
  | modexp | montmul =>
    obtain ⟨h1, h2, h3, h4⟩ := h
    simp [assemble, asm4, asmReg_of_lt, h1, h2, h3, h4]
  | gcd | modinv | lcm | mrwit | hadd | hscale =>
    obtain ⟨h1, h2, h3⟩ := h
    simp [assemble, asm3, asmReg_of_lt, h1, h2, h3]
  | egcd =>
    obtain ⟨⟨h1, h2, h3, h4, h5⟩, hdx, hdy, hxy⟩ := h
    simp [assemble, asmReg_of_lt, h1, h2, h3, h4, h5, distinct3, hdx, hdy, hxy]
  | mrtest =>
    obtain ⟨h1, h2, h3⟩ := h
    simp [assemble, asmReg_of_lt, asmRounds_of_lt, h1, h2, Nat.lt_succ_of_le h3]
  | loadkey =>
    have h1 : _ < 16 := h
    simp [assemble, asmReg_of_lt h1]

/-- What an accepted line gives is its own command, well-formed. -/
theorem asmLineOf_of_assemble {l : AsmLine} {i : Instr} (h : assemble l = some i) :
    i.wellFormed = true ∧ asmLineOf i = l := by
  cases l with
  | modexp | montmul =>
    obtain ⟨x, y, z, u, rfl, rfl, rfl, rfl, rfl⟩ := operands_of_asm4 h
    exact ⟨rfl, rfl⟩
  | gcd | modinv | lcm | mrwit | hadd | hscale =>
    obtain ⟨x, y, z, rfl, rfl, rfl, rfl⟩ := operands_of_asm3 h
    exact ⟨rfl, rfl⟩
  | loadkey rs1 =>
    obtain ⟨x, hx, rfl⟩ := Option.map_eq_some_iff.1 h
    obtain rfl := eq_val_of_asmReg hx
    exact ⟨rfl, rfl⟩
  | mrtest rd rs1 rounds =>
    simp only [assemble] at h
    split at h
    · next x y k hx hy hk =>
      obtain rfl := eq_val_of_asmReg hx
      obtain rfl := eq_val_of_asmReg hy
      obtain rfl := eq_val_of_asmRounds hk
      obtain rfl := Option.some.inj h
      exact ⟨rfl, rfl⟩
    · cases h
  | egcd rd rdx rdy rs1 rs2 =>
    simp only [assemble] at h
    split at h
    · next x y z u v hx hy hz hu hv =>
      obtain ⟨hdistinct, hi⟩ := Option.ite_none_right_eq_some.1 h
      obtain rfl := eq_val_of_asmReg hx
      obtain rfl := eq_val_of_asmReg hy
      obtain rfl := eq_val_of_asmReg hz
      obtain rfl := eq_val_of_asmReg hu
      obtain rfl := eq_val_of_asmReg hv
      obtain rfl := Option.some.inj hi
      exact ⟨hdistinct, rfl⟩
    · cases h

/-- The operands of a well-formed command are ones an assembler accepts. -/
theorem asmLineOk_asmLineOf {i : Instr} (h : i.wellFormed = true) : AsmLineOk (asmLineOf i) := by
  cases i with
  | egcd rd rdx rdy rs1 rs2 =>
    obtain ⟨hdx, hdy, hxy⟩ := (distinct3_iff rd rdx rdy).1 h
    exact ⟨⟨rd.isLt, rdx.isLt, rdy.isLt, rs1.isLt, rs2.isLt⟩, Fin.val_ne_of_ne hdx, Fin.val_ne_of_ne hdy,
      Fin.val_ne_of_ne hxy⟩
  | mrtest rd rs1 k => exact ⟨rd.isLt, rs1.isLt, Nat.le_of_lt_succ k.isLt⟩
  | modexp rd rs1 rs2 rs3 | montmul rd rs1 rs2 rs3 => exact ⟨rd.isLt, rs1.isLt, rs2.isLt, rs3.isLt⟩
  | loadkey rs1 => exact rs1.isLt
  | gcd rd rs1 rs2 | modinv rd rs1 rs2 | lcm rd rs1 rs2 | mrwit rd rs1 rs2 | hadd rd rs1 rs2 | hscale rd rs1 rs2 =>
    exact ⟨rd.isLt, rs1.isLt, rs2.isLt⟩

/-- Settles O6: the accepted lines are the lines of well-formed commands, and these are the ones with good operands. -/
theorem assemblerRefusesOnlyBadOperands : Obligations.AssemblerRefusesOnlyBadOperands := by
  unfold Obligations.AssemblerRefusesOnlyBadOperands
  refine ⟨fun l => ⟨fun hnone hok => assemble_ne_none hok hnone, fun hbad => ?_⟩, fun l i => asmLineOf_of_assemble⟩
  by_contra hsome
  obtain ⟨i, hi⟩ := Option.ne_none_iff_exists'.1 hsome
  obtain ⟨hwf, rfl⟩ := asmLineOf_of_assemble hi
  exact hbad (asmLineOk_asmLineOf hwf)

end Sys2Proof.Machine
end
